-- ==== Sys2Proof/Word.lean ====
section
/-! DEFINITION. The word types of the machine: plain names for the widths the manual uses. -/

namespace Sys2Proof

/-- One byte of memory or of an instruction (20_memory.md R50). -/
abbrev Byte := BitVec 8

/-- A linear address, 64 bits in 64-bit mode (20_memory.md R50). -/
abbrev Addr := BitVec 64

/-- A lane: one single-precision datum (40_fnmsub_lane_arithmetic.md R130). -/
abbrev F32 := BitVec 32

/-- A vector register at its largest width (10_state.md R20, R21). -/
abbrev Vec := BitVec 512

/-- A set of the six MXCSR exception flags, laid out as `mxcsr[5:0]`: IE, DE, ZE, OE, UE, PE from bit 0
(10_state.md R27). -/
abbrev FlagSet := BitVec 6

end Sys2Proof
end

