-- ==== Sys2Proof/Syntax.lean ====
section
/-! DEFINITION. The instructions: one constructor of `Instr` for each of the 18 rows of spec/opcode_table.json
(30_encoding.md R81, R121), over the operand forms of 30_encoding.md R88 to R112. -/

namespace Sys2Proof

/-- A segment register, as a segment-override prefix names it (30_encoding.md R107). -/
inductive Segment where
  | es | cs | ss | ds | fs | gs
deriving DecidableEq, Repr

/-- A byte that may stand before the VEX or EVEX prefix (30_encoding.md R112): a segment override, the address-size
prefix 67H, or one of those that make the instruction raise #UD (LOCK, 66H, F2H, F3H, REX). -/
inductive LegacyPrefix where
  | seg (r : Segment)
  | addr32
  | lock
  | opsize
  | repne
  | rep
  | rex (low : BitVec 4)
deriving DecidableEq, Repr

/-- Which operands are multiplied and which is subtracted (40_fnmsub_lane_arithmetic.md R134). -/
inductive Form where
  | f132 | f213 | f231
deriving DecidableEq, Repr

/-- The four rounding modes of MXCSR.RC and EVEX.RC (10_state.md R27, 30_encoding.md R96): nearest even, toward −∞,
toward +∞, toward zero. -/
inductive RoundMode where
  | rn | rd | ru | rz
deriving DecidableEq, Repr

/-- The displacement a ModRM or SIB form carries (30_encoding.md R99, R104). -/
inductive Disp where
  | none
  | d8 (v : BitVec 8)
  | d32 (v : BitVec 32)
deriving DecidableEq, Repr

/-- A scaled index register: general register number and the two scale bits (30_encoding.md R100). -/
structure Index where
  reg : BitVec 4
  scale : BitVec 2
deriving DecidableEq, Repr

/-- The memory forms of ModRM and SIB in 64-bit mode (30_encoding.md R99 to R103): RIP-relative; a base register without
a SIB byte; a SIB byte with a base; a SIB byte without one (`mod = 00b`, `SIB.base = 101b`). -/
inductive MemForm where
  | ripRel (disp : BitVec 32)
  | base (b : BitVec 4) (d : Disp)
  | sib (b : BitVec 4) (i : Option Index) (d : Disp)
  | sibNoBase (i : Option Index) (disp : BitVec 32)
deriving DecidableEq, Repr

/-- Operand 3 of a VEX form: a register 0 to 15 or a full vector in memory (30_encoding.md R88, R92). -/
inductive VexOp3 where
  | reg (n : BitVec 4)
  | mem (m : MemForm)
deriving DecidableEq, Repr

/-- Operand 3 of an EVEX form without embedded rounding: a register 0 to 31, a full vector in memory (EVEX.b = 0), or one
32-bit datum broadcast from memory (EVEX.b = 1) (30_encoding.md R93, R94). -/
inductive EvexOp3 where
  | reg (n : BitVec 5)
  | mem (m : MemForm)
  | bcst (m : MemForm)
deriving DecidableEq, Repr

/-- The fields aaa and z of EVEX (30_encoding.md R95): the write-mask register, 000b for none, and zeroing-masking. -/
structure Masking where
  aaa : BitVec 3
  z : Bool
deriving DecidableEq, Repr

/-- The instructions, in the order of spec/opcode_table.json. Every constructor carries the bytes `p` that stand before
the VEX or EVEX prefix, then the operands in the manual's order (30_encoding.md R89): DEST, SRC2, SRC3. -/
inductive Instr where
  /-- Row 1, VFNMSUB132PS xmm1, xmm2, xmm3/m128 (R176). -/
  | vfnmsub132VexXmm (p : List LegacyPrefix) (d s2 : BitVec 4) (o : VexOp3)
  /-- Row 2, VFNMSUB213PS xmm1, xmm2, xmm3/m128 (R177). -/
  | vfnmsub213VexXmm (p : List LegacyPrefix) (d s2 : BitVec 4) (o : VexOp3)
  /-- Row 3, VFNMSUB231PS xmm1, xmm2, xmm3/m128 (R178). -/
  | vfnmsub231VexXmm (p : List LegacyPrefix) (d s2 : BitVec 4) (o : VexOp3)
  /-- Row 4, VFNMSUB132PS ymm1, ymm2, ymm3/m256 (R179). -/
  | vfnmsub132VexYmm (p : List LegacyPrefix) (d s2 : BitVec 4) (o : VexOp3)
  /-- Row 5, VFNMSUB213PS ymm1, ymm2, ymm3/m256 (R180). -/
  | vfnmsub213VexYmm (p : List LegacyPrefix) (d s2 : BitVec 4) (o : VexOp3)
  /-- Row 6, VFNMSUB231PS ymm1, ymm2, ymm3/m256 (R181). -/
  | vfnmsub231VexYmm (p : List LegacyPrefix) (d s2 : BitVec 4) (o : VexOp3)
  /-- Row 7, VFNMSUB132PS xmm1 {k1}{z}, xmm2, xmm3/m128/m32bcst (R200). -/
  | vfnmsub132EvexXmm (p : List LegacyPrefix) (k : Masking) (d s2 : BitVec 5) (o : EvexOp3)
  /-- Row 8, VFNMSUB213PS xmm1 {k1}{z}, xmm2, xmm3/m128/m32bcst (R201). -/
  | vfnmsub213EvexXmm (p : List LegacyPrefix) (k : Masking) (d s2 : BitVec 5) (o : EvexOp3)
  /-- Row 9, VFNMSUB231PS xmm1 {k1}{z}, xmm2, xmm3/m128/m32bcst (R202). -/
  | vfnmsub231EvexXmm (p : List LegacyPrefix) (k : Masking) (d s2 : BitVec 5) (o : EvexOp3)
  /-- Row 10, VFNMSUB132PS ymm1 {k1}{z}, ymm2, ymm3/m256/m32bcst (R203). -/
  | vfnmsub132EvexYmm (p : List LegacyPrefix) (k : Masking) (d s2 : BitVec 5) (o : EvexOp3)
  /-- Row 11, VFNMSUB213PS ymm1 {k1}{z}, ymm2, ymm3/m256/m32bcst (R204). -/
  | vfnmsub213EvexYmm (p : List LegacyPrefix) (k : Masking) (d s2 : BitVec 5) (o : EvexOp3)
  /-- Row 12, VFNMSUB231PS ymm1 {k1}{z}, ymm2, ymm3/m256/m32bcst (R205). -/
  | vfnmsub231EvexYmm (p : List LegacyPrefix) (k : Masking) (d s2 : BitVec 5) (o : EvexOp3)
  /-- Row 13 without embedded rounding, VFNMSUB132PS zmm1 {k1}{z}, zmm2, zmm3/m512/m32bcst (R206). -/
  | vfnmsub132EvexZmm (p : List LegacyPrefix) (k : Masking) (d s2 : BitVec 5) (o : EvexOp3)
  /-- Row 14 without embedded rounding, VFNMSUB213PS zmm1 {k1}{z}, zmm2, zmm3/m512/m32bcst (R207). -/
  | vfnmsub213EvexZmm (p : List LegacyPrefix) (k : Masking) (d s2 : BitVec 5) (o : EvexOp3)
  /-- Row 15 without embedded rounding, VFNMSUB231PS zmm1 {k1}{z}, zmm2, zmm3/m512/m32bcst (R208). -/
  | vfnmsub231EvexZmm (p : List LegacyPrefix) (k : Masking) (d s2 : BitVec 5) (o : EvexOp3)
  /-- Row 13 with embedded rounding, VFNMSUB132PS zmm1 {k1}{z}, zmm2, zmm3{er} (R206). -/
  | vfnmsub132EvexZmmEr (p : List LegacyPrefix) (k : Masking) (d s2 s3 : BitVec 5) (rc : RoundMode)
  /-- Row 14 with embedded rounding, VFNMSUB213PS zmm1 {k1}{z}, zmm2, zmm3{er} (R207). -/
  | vfnmsub213EvexZmmEr (p : List LegacyPrefix) (k : Masking) (d s2 s3 : BitVec 5) (rc : RoundMode)
  /-- Row 15 with embedded rounding, VFNMSUB231PS zmm1 {k1}{z}, zmm2, zmm3{er} (R208). -/
  | vfnmsub231EvexZmmEr (p : List LegacyPrefix) (k : Masking) (d s2 s3 : BitVec 5) (rc : RoundMode)
deriving DecidableEq, Repr

end Sys2Proof
end

