-- ==== Sys2Proof/Decode.lean ====
section
/-! DEFINITION. The decoder, total on any list of bytes (30_encoding.md R83 to R112), the length of an instruction
(R110), and after them the encoder, written from the same layouts. -/

namespace Sys2Proof

/-! ## Legacy prefix bytes -/

/-- The byte of a segment override (30_encoding.md R107). -/
def Segment.byte : Segment → Byte
  | .es => 0x26
  | .cs => 0x2E
  | .ss => 0x36
  | .ds => 0x3E
  | .fs => 0x64
  | .gs => 0x65

/-- The byte of a legacy prefix (30_encoding.md R112). -/
def LegacyPrefix.byte : LegacyPrefix → Byte
  | .seg r => r.byte
  | .addr32 => 0x67
  | .lock => 0xF0
  | .opsize => 0x66
  | .repne => 0xF2
  | .rep => 0xF3
  | .rex low => 4#4 ++ low

/-- The legacy prefix a byte is, if it is one (30_encoding.md R109 step 1, R112). -/
def legacyOf (b : Byte) : Option LegacyPrefix :=
  if b = 0x26 then some (.seg .es)
  else if b = 0x2E then some (.seg .cs)
  else if b = 0x36 then some (.seg .ss)
  else if b = 0x3E then some (.seg .ds)
  else if b = 0x64 then some (.seg .fs)
  else if b = 0x65 then some (.seg .gs)
  else if b = 0x67 then some .addr32
  else if b = 0xF0 then some .lock
  else if b = 0x66 then some .opsize
  else if b = 0xF2 then some .repne
  else if b = 0xF3 then some .rep
  else if b.extractLsb' 4 4 = 4 then some (.rex (b.extractLsb' 0 4))
  else none

/-- The legacy prefixes a byte sequence begins with, and what follows them (30_encoding.md R109 step 1). -/
def splitLegacy : List Byte → List LegacyPrefix × List Byte
  | [] => ([], [])
  | b :: bs =>
    match legacyOf b with
    | none => ([], b :: bs)
    | some q => (q :: (splitLegacy bs).1, (splitLegacy bs).2)

/-- The prefixes that make an instruction raise #UD (30_encoding.md R112). -/
def LegacyPrefix.forbidden : LegacyPrefix → Bool
  | .seg _ => false
  | .addr32 => false
  | .lock => true
  | .opsize => true
  | .repne => true
  | .rep => true
  | .rex _ => true

/-! ## ModRM, SIB and displacement -/

/-- A 32-bit displacement, little-endian (30_encoding.md R104). -/
def take32 : List Byte → Option (BitVec 32 × List Byte)
  | b0 :: b1 :: b2 :: b3 :: rest => some (b3 ++ b2 ++ b1 ++ b0, rest)
  | _ => none

/-- The displacement that `mod` calls for (30_encoding.md R99): none, 8 bits or 32 bits. -/
def takeDisp (mod : BitVec 2) (bs : List Byte) : Option (Disp × List Byte) :=
  if mod = 1 then
    match bs with
    | v :: rest => some (.d8 v, rest)
    | [] => none
  else if mod = 2 then
    match take32 bs with
    | some (v, rest) => some (.d32 v, rest)
    | none => none
  else some (.none, bs)

/-- The index of a SIB byte: `X‖index` = 0100b is no index and the scale is ignored (30_encoding.md R101 case 1). -/
def sibIndex (x : BitVec 1) (sib : Byte) : Option Index :=
  let n : BitVec 4 := x ++ sib.extractLsb' 3 3
  if n = 4 then none else some ⟨n, sib.extractLsb' 6 2⟩

/-- The memory operand of a ModRM byte with `mod` other than 11b (30_encoding.md R99 to R101); `x` and `b` are the true
extension bits. `none`: more bytes are needed. -/
def decodeMem (mod : BitVec 2) (rm : BitVec 3) (x b : BitVec 1) (bs : List Byte) : Option (MemForm × List Byte) :=
  if rm = 4 then
    match bs with
    | [] => none
    | sib :: rest =>
      if sib.extractLsb' 0 3 = 5 ∧ mod = 0 then
        match take32 rest with
        | some (v, rest') => some (.sibNoBase (sibIndex x sib) v, rest')
        | none => none
      else
        match takeDisp mod rest with
        | some (v, rest') => some (.sib (b ++ sib.extractLsb' 0 3) (sibIndex x sib) v, rest')
        | none => none
  else if rm = 5 ∧ mod = 0 then
    match take32 bs with
    | some (v, rest) => some (.ripRel v, rest)
    | none => none
  else
    match takeDisp mod bs with
    | some (v, rest) => some (.base (b ++ rm) v, rest)
    | none => none

/-! ## The decoder -/

/-- Why a byte sequence is not an instruction in scope (30_encoding.md R113): the first fixed field that has another
value. -/
inductive Reject where
  /-- The byte after the legacy prefixes is neither C4H nor 62H (R85 for the two-byte VEX prefix C5H). -/
  | notVexOrEvex
  /-- The opcode-map field is not 0F38. -/
  | opcodeMap
  /-- W = 1, the double-precision instructions (R98). -/
  | wBit
  /-- The pp field is not 66. -/
  | ppField
  /-- The opcode byte is none of 9EH, AEH, BEH. -/
  | opcodeByte
deriving DecidableEq, Repr

/-- What the decoder answers. -/
inductive Decoded where
  /-- One of the rows of spec/opcode_table.json, and the bytes after the instruction. -/
  | instr (i : Instr) (rest : List Byte)
  /-- An encoding in scope that matches no row and raises #UD: an EVEX prefix with P0[3:2] not 00b or P1[2] = 0, or with
  L'L = 11b outside embedded rounding (30_encoding.md R111, R121). -/
  | undefined (rest : List Byte)
  /-- Every byte so far fits an instruction in scope, or a run of legacy prefixes, and more bytes are needed. -/
  | needMore
  /-- Not an instruction in scope (30_encoding.md R113). -/
  | notInScope (why : Reject)
deriving DecidableEq, Repr

/-- The form an opcode byte selects (30_encoding.md R97). -/
def formOf (op : Byte) : Option Form :=
  if op = 0x9E then some .f132
  else if op = 0xAE then some .f213
  else if op = 0xBE then some .f231
  else none

/-- The encoding of the four rounding modes (10_state.md R27, 30_encoding.md R96). -/
def RoundMode.ofBits (b : BitVec 2) : RoundMode :=
  if b = 0 then .rn else if b = 1 then .rd else if b = 2 then .ru else .rz

/-- The row of a VEX form (rows 1 to 6): form and VEX.L (30_encoding.md R84). -/
def vexRow (f : Form) (l : BitVec 1) (p : List LegacyPrefix) (d s2 : BitVec 4) (o : VexOp3) : Instr :=
  if l = 0 then
    match f with
    | .f132 => .vfnmsub132VexXmm p d s2 o
    | .f213 => .vfnmsub213VexXmm p d s2 o
    | .f231 => .vfnmsub231VexXmm p d s2 o
  else
    match f with
    | .f132 => .vfnmsub132VexYmm p d s2 o
    | .f213 => .vfnmsub213VexYmm p d s2 o
    | .f231 => .vfnmsub231VexYmm p d s2 o

/-- The row of an EVEX form without embedded rounding (rows 7 to 15): form and L'L; `none` for the reserved length 11b
(30_encoding.md R91). -/
def evexRow (f : Form) (ll : BitVec 2) (p : List LegacyPrefix) (k : Masking) (d s2 : BitVec 5) (o : EvexOp3) :
    Option Instr :=
  if ll = 0 then
    some (match f with
    | .f132 => .vfnmsub132EvexXmm p k d s2 o
    | .f213 => .vfnmsub213EvexXmm p k d s2 o
    | .f231 => .vfnmsub231EvexXmm p k d s2 o)
  else if ll = 1 then
    some (match f with
    | .f132 => .vfnmsub132EvexYmm p k d s2 o
    | .f213 => .vfnmsub213EvexYmm p k d s2 o
    | .f231 => .vfnmsub231EvexYmm p k d s2 o)
  else if ll = 2 then
    some (match f with
    | .f132 => .vfnmsub132EvexZmm p k d s2 o
    | .f213 => .vfnmsub213EvexZmm p k d s2 o
    | .f231 => .vfnmsub231EvexZmm p k d s2 o)
  else none

/-- The row of an embedded-rounding form (rows 13 to 15 with `{er}`), whatever L'L is (30_encoding.md R91). -/
def erRow (f : Form) (p : List LegacyPrefix) (k : Masking) (d s2 s3 : BitVec 5) (rc : RoundMode) : Instr :=
  match f with
  | .f132 => .vfnmsub132EvexZmmEr p k d s2 s3 rc
  | .f213 => .vfnmsub213EvexZmmEr p k d s2 s3 rc
  | .f231 => .vfnmsub231EvexZmmEr p k d s2 s3 rc

/-- The fields of the ModRM byte and what follows it, for a VEX form whose prefix bytes are `b1`, `b2`
(30_encoding.md R83, R92). -/
def decodeVexOperands (p : List LegacyPrefix) (b1 b2 : Byte) (f : Form) (m : Byte) (bs : List Byte) : Decoded :=
  let r : BitVec 1 := ~~~(b1.extractLsb' 7 1)
  let x : BitVec 1 := ~~~(b1.extractLsb' 6 1)
  let b : BitVec 1 := ~~~(b1.extractLsb' 5 1)
  let d : BitVec 4 := r ++ m.extractLsb' 3 3
  let s2 : BitVec 4 := ~~~(b2.extractLsb' 3 4)
  let l : BitVec 1 := b2.extractLsb' 2 1
  if m.extractLsb' 6 2 = 3 then
    .instr (vexRow f l p d s2 (.reg (b ++ m.extractLsb' 0 3))) bs
  else
    match decodeMem (m.extractLsb' 6 2) (m.extractLsb' 0 3) x b bs with
    | some (a, rest) => .instr (vexRow f l p d s2 (.mem a)) rest
    | none => .needMore

/-- What follows the byte C4H (30_encoding.md R83, R84, R109 steps 2 to 4). -/
def decodeVex (p : List LegacyPrefix) (bs : List Byte) : Decoded :=
  match bs with
  | [] => .needMore
  | b1 :: bs =>
    if b1.extractLsb' 0 5 ≠ 2 then .notInScope .opcodeMap
    else match bs with
    | [] => .needMore
    | b2 :: bs =>
      if b2.extractLsb' 7 1 ≠ 0 then .notInScope .wBit
      else if b2.extractLsb' 0 2 ≠ 1 then .notInScope .ppField
      else match bs with
      | [] => .needMore
      | op :: bs =>
        match formOf op with
        | none => .notInScope .opcodeByte
        | some f =>
          match bs with
          | [] => .needMore
          | m :: bs => decodeVexOperands p b1 b2 f m bs

/-- Whether an EVEX prefix sets one of the reserved bits P0[3:2], P1[2] against R86 (30_encoding.md R111). -/
def evexReserved (p0 p1 : Byte) : Bool :=
  decide (p0.extractLsb' 2 2 ≠ 0 ∨ p1.extractLsb' 2 1 ≠ 1)

/-- The fields of the ModRM byte and what follows it, for an EVEX form whose payload bytes are `p0`, `p1`, `p2`
(30_encoding.md R86, R91, R93 to R96, R111). -/
def decodeEvexOperands (p : List LegacyPrefix) (p0 p1 p2 : Byte) (f : Form) (m : Byte) (bs : List Byte) : Decoded :=
  let r : BitVec 1 := ~~~(p0.extractLsb' 7 1)
  let x : BitVec 1 := ~~~(p0.extractLsb' 6 1)
  let b : BitVec 1 := ~~~(p0.extractLsb' 5 1)
  let r' : BitVec 1 := ~~~(p0.extractLsb' 4 1)
  let v' : BitVec 1 := ~~~(p2.extractLsb' 3 1)
  let vvvv : BitVec 4 := ~~~(p1.extractLsb' 3 4)
  let d : BitVec 5 := r' ++ r ++ m.extractLsb' 3 3
  let s2 : BitVec 5 := v' ++ vvvv
  let k : Masking := ⟨p2.extractLsb' 0 3, decide (p2.extractLsb' 7 1 = 1)⟩
  let ll : BitVec 2 := p2.extractLsb' 5 2
  let row : EvexOp3 → List Byte → Decoded := fun o rest =>
    if evexReserved p0 p1 then .undefined rest
    else match evexRow f ll p k d s2 o with
      | some i => .instr i rest
      | none => .undefined rest
  if m.extractLsb' 6 2 = 3 then
    if p2.extractLsb' 4 1 = 1 then
      if evexReserved p0 p1 then .undefined bs
      else .instr (erRow f p k d s2 (x ++ b ++ m.extractLsb' 0 3) (RoundMode.ofBits ll)) bs
    else row (.reg (x ++ b ++ m.extractLsb' 0 3)) bs
  else
    match decodeMem (m.extractLsb' 6 2) (m.extractLsb' 0 3) x b bs with
    | some (a, rest) => row (if p2.extractLsb' 4 1 = 1 then .bcst a else .mem a) rest
    | none => .needMore

/-- What follows the byte 62H (30_encoding.md R86, R87, R109 steps 2 to 5). The reserved bits are looked at last, so that
another fixed field decides first (R111, R113). -/
def decodeEvex (p : List LegacyPrefix) (bs : List Byte) : Decoded :=
  match bs with
  | [] => .needMore
  | p0 :: bs =>
    if p0.extractLsb' 0 2 ≠ 2 then .notInScope .opcodeMap
    else match bs with
    | [] => .needMore
    | p1 :: bs =>
      if p1.extractLsb' 7 1 ≠ 0 then .notInScope .wBit
      else if p1.extractLsb' 0 2 ≠ 1 then .notInScope .ppField
      else match bs with
      | [] => .needMore
      | p2 :: bs =>
        match bs with
        | [] => .needMore
        | op :: bs =>
          match formOf op with
          | none => .notInScope .opcodeByte
          | some f =>
            match bs with
            | [] => .needMore
            | m :: bs => decodeEvexOperands p p0 p1 p2 f m bs

/-- What follows the legacy prefixes (30_encoding.md R109 step 2). -/
def decodeBody (p : List LegacyPrefix) (bs : List Byte) : Decoded :=
  match bs with
  | [] => .needMore
  | b :: bs =>
    if b = 0xC4 then decodeVex p bs
    else if b = 0x62 then decodeEvex p bs
    else .notInScope .notVexOrEvex

/-- The decoder (30_encoding.md R109): the bytes in increasing address order. -/
def decode (bs : List Byte) : Decoded := decodeBody (splitLegacy bs).1 (splitLegacy bs).2

/-! ## Length -/

/-- Bytes of a displacement. -/
def Disp.length : Disp → Nat
  | .none => 0
  | .d8 _ => 1
  | .d32 _ => 4

/-- Bytes after the ModRM byte (30_encoding.md R110): SIB and displacement. -/
def MemForm.length : MemForm → Nat
  | .ripRel _ => 4
  | .base _ d => d.length
  | .sib _ _ d => 1 + d.length
  | .sibNoBase _ _ => 5

/-- Bytes after the ModRM byte of a VEX form. -/
def VexOp3.length : VexOp3 → Nat
  | .reg _ => 0
  | .mem m => m.length

/-- Bytes after the ModRM byte of an EVEX form. -/
def EvexOp3.length : EvexOp3 → Nat
  | .reg _ => 0
  | .mem m => m.length
  | .bcst m => m.length

/-- `len` of a VEX form (30_encoding.md R110). -/
def vexLength (p : List LegacyPrefix) (o : VexOp3) : Nat := p.length + 3 + 1 + 1 + o.length

/-- `len` of an EVEX form (30_encoding.md R110). -/
def evexLength (p : List LegacyPrefix) (o : EvexOp3) : Nat := p.length + 4 + 1 + 1 + o.length

/-- `len` of an instruction (30_encoding.md R110). -/
def Instr.length : Instr → Nat
  | .vfnmsub132VexXmm p _ _ o => vexLength p o
  | .vfnmsub213VexXmm p _ _ o => vexLength p o
  | .vfnmsub231VexXmm p _ _ o => vexLength p o
  | .vfnmsub132VexYmm p _ _ o => vexLength p o
  | .vfnmsub213VexYmm p _ _ o => vexLength p o
  | .vfnmsub231VexYmm p _ _ o => vexLength p o
  | .vfnmsub132EvexXmm p _ _ _ o => evexLength p o
  | .vfnmsub213EvexXmm p _ _ _ o => evexLength p o
  | .vfnmsub231EvexXmm p _ _ _ o => evexLength p o
  | .vfnmsub132EvexYmm p _ _ _ o => evexLength p o
  | .vfnmsub213EvexYmm p _ _ _ o => evexLength p o
  | .vfnmsub231EvexYmm p _ _ _ o => evexLength p o
  | .vfnmsub132EvexZmm p _ _ _ o => evexLength p o
  | .vfnmsub213EvexZmm p _ _ _ o => evexLength p o
  | .vfnmsub231EvexZmm p _ _ _ o => evexLength p o
  | .vfnmsub132EvexZmmEr p _ _ _ _ _ => evexLength p (.reg 0)
  | .vfnmsub213EvexZmmEr p _ _ _ _ _ => evexLength p (.reg 0)
  | .vfnmsub231EvexZmmEr p _ _ _ _ _ => evexLength p (.reg 0)

/-! ## The encoder -/

/-- What operand 3 contributes to an encoding: `mod`, `r/m`, the true bits X and B, and the bytes after ModRM. -/
structure RmFields where
  mod : BitVec 2
  rm : BitVec 3
  x : BitVec 1
  b : BitVec 1
  tail : List Byte
deriving DecidableEq, Repr

/-- A 32-bit displacement as bytes, little-endian (30_encoding.md R104). -/
def bytes32 (v : BitVec 32) : List Byte :=
  [v.extractLsb' 0 8, v.extractLsb' 8 8, v.extractLsb' 16 8, v.extractLsb' 24 8]

/-- The `mod` of a displacement and its bytes (30_encoding.md R99). -/
def Disp.mod : Disp → BitVec 2
  | .none => 0
  | .d8 _ => 1
  | .d32 _ => 2

/-- The bytes of a displacement. -/
def Disp.bytes : Disp → List Byte
  | .none => []
  | .d8 v => [v]
  | .d32 v => bytes32 v

/-- X and the SIB byte of an optional index and the low three bits of a base (30_encoding.md R100, R101). -/
def sibByte (i : Option Index) (base : BitVec 3) : BitVec 1 × Byte :=
  match i with
  | none => (0, 0#2 ++ 4#3 ++ base)
  | some ⟨n, sc⟩ => (n.extractLsb' 3 1, sc ++ n.extractLsb' 0 3 ++ base)

/-- The fields of a memory operand (30_encoding.md R99 to R101). Bits the decoder ignores are written as X = 0, B = 0 and
scale 00b. -/
def MemForm.fields : MemForm → RmFields
  | .ripRel v => ⟨0, 5, 0, 0, bytes32 v⟩
  | .base b d => ⟨d.mod, b.extractLsb' 0 3, 0, b.extractLsb' 3 1, d.bytes⟩
  | .sib b i d =>
    ⟨d.mod, 4, (sibByte i (b.extractLsb' 0 3)).1, b.extractLsb' 3 1, (sibByte i (b.extractLsb' 0 3)).2 :: d.bytes⟩
  | .sibNoBase i v => ⟨0, 4, (sibByte i 5).1, 0, (sibByte i 5).2 :: bytes32 v⟩

/-- The fields of operand 3 of a VEX form (30_encoding.md R92). -/
def VexOp3.fields : VexOp3 → RmFields
  | .reg n => ⟨3, n.extractLsb' 0 3, 0, n.extractLsb' 3 1, []⟩
  | .mem m => m.fields

/-- The fields of a register operand 3 of an EVEX form (30_encoding.md R93). -/
def evexRegFields (n : BitVec 5) : RmFields :=
  ⟨3, n.extractLsb' 0 3, n.extractLsb' 4 1, n.extractLsb' 3 1, []⟩

/-- The fields of operand 3 of an EVEX form and the bit EVEX.b (30_encoding.md R93, R94). -/
def EvexOp3.fields : EvexOp3 → RmFields × BitVec 1
  | .reg n => (evexRegFields n, 0)
  | .mem m => (m.fields, 0)
  | .bcst m => (m.fields, 1)

/-- The opcode byte of a form (30_encoding.md R97). -/
def Form.opcode : Form → Byte
  | .f132 => 0x9E
  | .f213 => 0xAE
  | .f231 => 0xBE

/-- The two bits of a rounding mode (30_encoding.md R96). -/
def RoundMode.bits : RoundMode → BitVec 2
  | .rn => 0
  | .rd => 1
  | .ru => 2
  | .rz => 3

/-- The bytes of a VEX form (30_encoding.md R83, R84). -/
def encodeVex (f : Form) (l : BitVec 1) (p : List LegacyPrefix) (d s2 : BitVec 4) (o : VexOp3) : List Byte :=
  let q := o.fields
  p.map LegacyPrefix.byte ++
    [0xC4,
     ~~~(d.extractLsb' 3 1) ++ ~~~q.x ++ ~~~q.b ++ 2#5,
     0#1 ++ ~~~s2 ++ l ++ 1#2,
     f.opcode,
     q.mod ++ d.extractLsb' 0 3 ++ q.rm] ++ q.tail

/-- The bytes of an EVEX form (30_encoding.md R86, R87). -/
def encodeEvex (f : Form) (ll : BitVec 2) (b : BitVec 1) (p : List LegacyPrefix) (k : Masking) (d s2 : BitVec 5)
    (q : RmFields) : List Byte :=
  p.map LegacyPrefix.byte ++
    [0x62,
     ~~~(d.extractLsb' 3 1) ++ ~~~q.x ++ ~~~q.b ++ ~~~(d.extractLsb' 4 1) ++ 0#2 ++ 2#2,
     0#1 ++ ~~~(s2.extractLsb' 0 4) ++ 1#1 ++ 1#2,
     BitVec.ofBool k.z ++ ll ++ b ++ ~~~(s2.extractLsb' 4 1) ++ k.aaa,
     f.opcode,
     q.mod ++ d.extractLsb' 0 3 ++ q.rm] ++ q.tail

/-- The bytes of an instruction. -/
def encode : Instr → List Byte
  | .vfnmsub132VexXmm p d s2 o => encodeVex .f132 0 p d s2 o
  | .vfnmsub213VexXmm p d s2 o => encodeVex .f213 0 p d s2 o
  | .vfnmsub231VexXmm p d s2 o => encodeVex .f231 0 p d s2 o
  | .vfnmsub132VexYmm p d s2 o => encodeVex .f132 1 p d s2 o
  | .vfnmsub213VexYmm p d s2 o => encodeVex .f213 1 p d s2 o
  | .vfnmsub231VexYmm p d s2 o => encodeVex .f231 1 p d s2 o
  | .vfnmsub132EvexXmm p k d s2 o => encodeEvex .f132 0 o.fields.2 p k d s2 o.fields.1
  | .vfnmsub213EvexXmm p k d s2 o => encodeEvex .f213 0 o.fields.2 p k d s2 o.fields.1
  | .vfnmsub231EvexXmm p k d s2 o => encodeEvex .f231 0 o.fields.2 p k d s2 o.fields.1
  | .vfnmsub132EvexYmm p k d s2 o => encodeEvex .f132 1 o.fields.2 p k d s2 o.fields.1
  | .vfnmsub213EvexYmm p k d s2 o => encodeEvex .f213 1 o.fields.2 p k d s2 o.fields.1
  | .vfnmsub231EvexYmm p k d s2 o => encodeEvex .f231 1 o.fields.2 p k d s2 o.fields.1
  | .vfnmsub132EvexZmm p k d s2 o => encodeEvex .f132 2 o.fields.2 p k d s2 o.fields.1
  | .vfnmsub213EvexZmm p k d s2 o => encodeEvex .f213 2 o.fields.2 p k d s2 o.fields.1
  | .vfnmsub231EvexZmm p k d s2 o => encodeEvex .f231 2 o.fields.2 p k d s2 o.fields.1
  | .vfnmsub132EvexZmmEr p k d s2 s3 rc => encodeEvex .f132 rc.bits 1 p k d s2 (evexRegFields s3)
  | .vfnmsub213EvexZmmEr p k d s2 s3 rc => encodeEvex .f213 rc.bits 1 p k d s2 (evexRegFields s3)
  | .vfnmsub231EvexZmmEr p k d s2 s3 rc => encodeEvex .f231 rc.bits 1 p k d s2 (evexRegFields s3)

/-! ## Words of the opcode table -/

/-- The `n` bytes of a word, the first one in its lowest bits. -/
def wordBytes : Nat → Nat → List Byte
  | 0, _ => []
  | n + 1, w => BitVec.ofNat 8 w :: wordBytes n (w / 256)

/-- The most bytes an instruction may have (30_encoding.md R110). -/
def maxLength : Nat := 15

/-- The 15 bytes at an instruction whose first `nbits` bits are `w` and whose other bits are 0. -/
def tableBytes (nbits w : Nat) : List Byte := wordBytes maxLength (w % 2 ^ nbits)

/-- The instruction the decoder reads from a word of spec/opcode_table.json, bit 0 being the least significant bit of the
first byte. -/
def decodeTableWord (nbits w : Nat) : Option Instr :=
  match decode (tableBytes nbits w) with
  | .instr i _ => some i
  | .undefined _ => none
  | .needMore => none
  | .notInScope _ => none

end Sys2Proof
end

