-- ==== Sys2Proof/Machine/Flags.lean ====
section
/-! DEFINITION. MXCSR: its fields, the exception flags, and how the flags of the lanes decide between delivering the
results and trapping. -/

namespace Sys2Proof.Machine

/-- Invalid operation, bit 0 (10_state.md R27). -/
def flagIE : FlagSet := 0x01

/-- Denormal operand, bit 1 (10_state.md R27). -/
def flagDE : FlagSet := 0x02

/-- Divide by zero, bit 2 (10_state.md R27); never signalled (40_fnmsub_lane_arithmetic.md R146). -/
def flagZE : FlagSet := 0x04

/-- Overflow, bit 3 (10_state.md R27). -/
def flagOE : FlagSet := 0x08

/-- Underflow, bit 4 (10_state.md R27). -/
def flagUE : FlagSet := 0x10

/-- Precision, bit 5 (10_state.md R27). -/
def flagPE : FlagSet := 0x20

/-- The pre-computation exceptions (60_exceptions.md R221, R222). -/
def preFlags : FlagSet := flagIE ||| flagDE

/-- The flags `mxcsr[5:0]`. -/
def mxFlags (m : BitVec 32) : FlagSet := m.extractLsb' 0 6

/-- The masks `mxcsr[12:7]`, 1 for masked, in the order of the flags. -/
def mxMasks (m : BitVec 32) : FlagSet := m.extractLsb' 7 6

/-- `mxcsr.DAZ`, bit 6. -/
def mxDaz (m : BitVec 32) : Bool := m.getLsbD 6

/-- `mxcsr.OM`, bit 10. -/
def mxOm (m : BitVec 32) : Bool := m.getLsbD 10

/-- `mxcsr.UM`, bit 11. -/
def mxUm (m : BitVec 32) : Bool := m.getLsbD 11

/-- `mxcsr.RC`, bits 14:13. -/
def mxRc (m : BitVec 32) : RoundMode := RoundMode.ofBits (m.extractLsb' 13 2)

/-- `mxcsr.FTZ`, bit 15. -/
def mxFtz (m : BitVec 32) : Bool := m.getLsbD 15

/-- What `SimdFpOutcome` answers (60_exceptions.md R222). -/
inductive SimdOutcome where
  | deliver (f : FlagSet)
  | trap (f : FlagSet)
deriving DecidableEq, Repr

/-- The union of flag sets. -/
def unionFlags : List FlagSet → FlagSet
  | [] => 0
  | f :: fs => f ||| unionFlags fs

/-- Some flag of `f` is unmasked under `m` (60_exceptions.md R222). -/
def someUnmasked (f m : FlagSet) : Bool := decide (f &&& ~~~m ≠ 0)

/-- `SimdFpOutcome(S, M)` (60_exceptions.md R222): the pre-computation flags of all lanes first, then all flags. -/
def simdFpOutcome (fs : List FlagSet) (m : FlagSet) : SimdOutcome :=
  if someUnmasked (unionFlags fs &&& preFlags) m then .trap (unionFlags fs &&& preFlags)
  else if someUnmasked (unionFlags fs) m then .trap (unionFlags fs)
  else .deliver (unionFlags fs)

end Sys2Proof.Machine
end

