-- ==== Sys2Proof/Machine/Lane.lean ====
section
/-! DEFINITION. The lane arithmetic `FNMSUB32` of 40_fnmsub_lane_arithmetic.md R133: `-(x*y) - z` in single precision with
one rounding, on exact integers. A finite datum is an integer multiple of 2^-149, so a product is one of 2^-298, and the
exact value of a lane is an `Int` in units of 2^-298. -/

namespace Sys2Proof.Machine

/-! ## Classes and values (R130 to R132) -/

/-- The sign bit, 31. -/
def f32Sign (v : F32) : Bool := v.getLsbD 31

/-- The biased exponent, bits 30:23. -/
def f32Exp (v : F32) : Nat := (v.extractLsb' 23 8).toNat

/-- The fraction, bits 22:0. -/
def f32Frac (v : F32) : Nat := (v.extractLsb' 0 23).toNat

/-- R131: `e = 0`, `f = 0`. -/
def isZero (v : F32) : Bool := decide (f32Exp v = 0) && decide (f32Frac v = 0)

/-- R131: `e = 0`, `f ≠ 0`. -/
def isDenormal (v : F32) : Bool := decide (f32Exp v = 0) && decide (f32Frac v ≠ 0)

/-- R131: `e = 255`, `f = 0`. -/
def isInf (v : F32) : Bool := decide (f32Exp v = 255) && decide (f32Frac v = 0)

/-- R131: `e = 255`, `f ≠ 0`. -/
def isNaN (v : F32) : Bool := decide (f32Exp v = 255) && decide (f32Frac v ≠ 0)

/-- R131: a NaN whose bit 22 is 0. -/
def isSNaN (v : F32) : Bool := isNaN v && !v.getLsbD 22

/-- R131: neither infinity nor NaN. -/
def isFinite (v : F32) : Bool := decide (f32Exp v ≠ 255)

/-- The QNaN real indefinite (R131). -/
def qnanIndefinite : F32 := 0xFFC00000

/-- The magnitude of a finite datum in units of 2^-149 (R132). -/
def f32Mag (v : F32) : Nat :=
  if f32Exp v = 0 then f32Frac v else (2 ^ 23 + f32Frac v) * 2 ^ (f32Exp v - 1)

/-- `ℝ(v)` of a finite datum in units of 2^-149 (R132). -/
def f32Val (v : F32) : Int := if f32Sign v then -(f32Mag v : Int) else (f32Mag v : Int)

/-- A datum from sign, biased exponent and fraction (R130). -/
def f32Make (s : Bool) (e : Nat) (f : Nat) : F32 := BitVec.ofBool s ++ BitVec.ofNat 8 e ++ BitVec.ofNat 23 f

/-- The zero of a sign. -/
def f32Zero (s : Bool) : F32 := f32Make s 0 0

/-- The infinity of a sign. -/
def f32Inf (s : Bool) : F32 := f32Make s 255 0

/-- The largest finite magnitude 7F7FFFFFH with a sign (R131). -/
def f32Max (s : Bool) : F32 := f32Make s 254 0x7FFFFF

/-! ## Control and result -/

/-- What a lane reads besides its operands (R133): rounding mode, DAZ, FTZ, and the overflow and underflow masks
(`true`: masked). -/
structure FpControl where
  rm : RoundMode
  daz : Bool
  ftz : Bool
  om : Bool
  um : Bool
deriving DecidableEq, Repr

/-- What a lane answers (R133): a result, absent when the instruction is certain to trap, and the flags signalled. -/
structure LaneResult where
  r : Option F32
  fl : FlagSet
deriving DecidableEq, Repr

/-! ## The steps of R133 -/

/-- R136: bit 22 set, every other bit kept. -/
def quiet (v : F32) : F32 := v ||| 0x00400000

/-- Step 1 (R136): the first NaN of `x`, `y`, `z`, quieted; IE if one of them is signalling. -/
def nanResult (x y z : F32) : LaneResult :=
  ⟨some (quiet (if isNaN x then x else if isNaN y then y else z)),
   if isSNaN x || isSNaN y || isSNaN z then flagIE else 0⟩

/-- Step 2 (R137): a denormal operand becomes a zero of its sign when DAZ = 1. -/
def dazOperand (daz : Bool) (v : F32) : F32 := if daz && isDenormal v then v &&& 0x80000000 else v

/-- `RoundInt(num/den, s, rm)` (R133): the rounded integer and whether rounding changed the value. -/
def roundInt (num den : Nat) (s : Bool) (rm : RoundMode) : Nat × Bool :=
  if num % den = 0 then (num / den, false)
  else
    let up : Bool :=
      match rm with
      | .rn => decide (den < 2 * (num % den)) || (decide (2 * (num % den) = den) && decide (num / den % 2 = 1))
      | .rz => false
      | .ru => !s
      | .rd => s
    (if up then num / den + 1 else num / den, true)

/-- A flag when a condition holds. -/
def flagIf (c : Bool) (f : FlagSet) : FlagSet := if c then f else 0

/-- Step 8 (R143): a tiny result, of sign `s` and exact magnitude `a * 2^-298`; `inex` is the inexactness of the rounding
with unbounded exponent. -/
def tinyResult (s : Bool) (a : Nat) (inex : Bool) (c : FpControl) (fl : FlagSet) : LaneResult :=
  if !c.um then ⟨none, fl ||| flagUE ||| flagIf inex flagPE⟩
  else if c.ftz then ⟨some (f32Zero s), fl ||| flagUE ||| flagPE⟩
  else
    let d := roundInt a (2 ^ 149) s c.rm
    ⟨some (BitVec.ofBool s ++ BitVec.ofNat 31 d.1), fl ||| flagIf d.2 (flagUE ||| flagPE)⟩

/-- Step 9 (R144): an overflowing result. -/
def overflowResult (s : Bool) (inex : Bool) (c : FpControl) (fl : FlagSet) : LaneResult :=
  if !c.om then ⟨none, fl ||| flagOE ||| flagIf inex flagPE⟩
  else
    let away : Bool :=
      match c.rm with
      | .rn => true
      | .ru => !s
      | .rd => s
      | .rz => false
    ⟨some (if away then f32Inf s else f32Max s), fl ||| flagOE ||| flagPE⟩

/-- Step 7 (R142): the 24-bit significand of a non-zero exact magnitude `a * 2^-298`, its exponent, and whether rounding with
unbounded exponent changed the value. -/
def roundUnbounded (s : Bool) (a : Nat) (rm : RoundMode) : Nat × Int × Bool :=
  let m := roundInt (a * 2 ^ 23) (2 ^ Nat.log2 a) s rm
  let e : Int := (Nat.log2 a : Int) - 298
  if m.1 = 2 ^ 24 then (2 ^ 23, e + 1, m.2) else (m.1, e, m.2)

/-- Steps 7 to 10 (R142 to R145): round a non-zero exact value of sign `s` and magnitude `a * 2^-298`. -/
def roundFinite (s : Bool) (a : Nat) (c : FpControl) (fl : FlagSet) : LaneResult :=
  let m := roundUnbounded s a c.rm
  if m.2.1 < -126 then tinyResult s a m.2.2 c fl
  else if 127 < m.2.1 then overflowResult s m.2.2 c fl
  else ⟨some (f32Make s (m.2.1 + 127).toNat m.1), fl ||| flagIf m.2.2 flagPE⟩

/-- The exact value `-(ℝ(x)·ℝ(y)) - ℝ(z)` in units of 2^-298 (R135, step 6). -/
def exactValue (x y z : F32) : Int := -(f32Val x * f32Val y) - f32Val z * 2 ^ 149

/-- The sign of the negated product `-(x*y)`: `NOT (x[31] XOR y[31])` (R133 step 3). -/
def productSign (x y : F32) : Bool := !(xor (f32Sign x) (f32Sign y))

/-- Step 6 (R141): the zero of an exactly zero value. -/
def zeroResult (x y z : F32) (rm : RoundMode) : F32 :=
  if (isZero x || isZero y) && isZero z && (productSign x y == !f32Sign z) then f32Zero (productSign x y)
  else f32Zero (decide (rm = .rd))

/-- Steps 6 to 10 for finite operands. -/
def finiteResult (x y z : F32) (c : FpControl) (fl : FlagSet) : LaneResult :=
  if exactValue x y z = 0 then ⟨some (zeroResult x y z c.rm), fl⟩
  else roundFinite (decide (exactValue x y z < 0)) (exactValue x y z).natAbs c fl

/-- Steps 3 to 10 (R138 to R145), for operands none of which is a NaN and after DAZ. -/
def fnmsubNumber (x y z : F32) (c : FpControl) : LaneResult :=
  let pinf : Bool := isInf x || isInf y
  let fl : FlagSet := flagIf (isDenormal x || isDenormal y || isDenormal z) flagDE
  if (isInf x && isZero y) || (isZero x && isInf y) then ⟨some qnanIndefinite, flagIE⟩
  else if isInf z && pinf && (productSign x y != !f32Sign z) then ⟨some qnanIndefinite, flagIE⟩
  else if isInf z then ⟨some (f32Inf (!f32Sign z)), fl⟩
  else if pinf then ⟨some (f32Inf (productSign x y)), fl⟩
  else finiteResult x y z c fl

/-- `FNMSUB32(x, y, z, rm, daz, ftz, om, um)` (R133). -/
def fnmsub32 (x y z : F32) (c : FpControl) : LaneResult :=
  if isNaN x || isNaN y || isNaN z then nanResult x y z
  else fnmsubNumber (dazOperand c.daz x) (dazOperand c.daz y) (dazOperand c.daz z) c

/-- The roles of the operands' lanes by form (R134): DEST, SRC2, SRC3 to `x`, `y`, `z`, then the lane function. -/
def formLane (f : Form) (dest src2 src3 : F32) (c : FpControl) : LaneResult :=
  match f with
  | .f132 => fnmsub32 dest src3 src2 c
  | .f213 => fnmsub32 src2 dest src3 c
  | .f231 => fnmsub32 src2 src3 dest c

end Sys2Proof.Machine
end

