-- ==== Sys2Proof/Config.lean ====
section
/-! DEFINITION. The implementation parameters the spec leaves open (00_scope.md R9), as plain data. They stand
in `State` as fields that no instruction writes, so that a statement about every state is one about every choice of
the parameters. -/

namespace Sys2Proof.Config

/-- The CPUID feature flags of 00_scope.md R3, R9, and the flag that widens the opmask registers
(10_state.md R25: 64 bits on a processor with AVX512BW, 16 otherwise). -/
structure Features where
  fma : Bool
  avx512f : Bool
  avx512vl : Bool
  avx512bw : Bool
deriving DecidableEq, Repr

/-- `MAXVL`, the width of a vector register (00_scope.md R9, R10). -/
def Features.maxvl (f : Features) : Nat := if f.avx512f then 512 else 256

/-- `NVREG`, the number of vector registers (00_scope.md R9, 10_state.md R20). -/
def Features.nvreg (f : Features) : Nat := if f.avx512f then 32 else 16

/-- `KWIDTH`, the width of an opmask register (00_scope.md R9, 10_state.md R25). -/
def Features.kwidth (f : Features) : Nat := if f.avx512bw then 64 else 16

/-- The access kinds of `Translate` (20_memory.md R58). -/
inductive AccessKind where
  | read
  | fetch
deriving DecidableEq, Repr

/-- What paging says of a refused access: the bits of the page-fault error code that do not follow from the access
itself (60_exceptions.md R228: P, RSVD, PK, SGX). -/
structure PageFaultCause where
  protection : Bool
  reservedBit : Bool
  protectionKey : Bool
  sgx : Bool
deriving DecidableEq, Repr

/-- What `Translate` answers at an address: ordinary memory, a page fault, or memory whose reads have side effects
(20_memory.md R58, R61). -/
inductive Answer where
  | memory
  | pageFault (c : PageFaultCause)
  | sideEffects
deriving DecidableEq, Repr

/-- A run of linear addresses, `size` bytes from `base` upward (modulo 2^64), and what `Translate` answers there. -/
structure Region where
  base : Addr
  size : Nat
  read : Answer
  fetch : Answer
deriving DecidableEq, Repr

/-- The open parameter `Translate` (00_scope.md R9, 20_memory.md R58) as data: whether linear addresses have 57 or 48
implemented bits (R50), and the regions that answer something of their own, the first one that holds an address
deciding; an address in no region is ordinary memory (R62, "identity, every canonical address readable"). -/
structure Translate where
  la57 : Bool
  regions : List Region
deriving DecidableEq, Repr

end Sys2Proof.Config
end

