-- ==== Sys2Proof/Machine/State.lean ====
section
/-! DEFINITION. The state of the machine as plain data, the faults and refusals a step can end in, and the state after
reset. Every field is listed with its rule and reset value in INVENTORY.md. -/

namespace Sys2Proof.Machine

/-- Operating modes (10_state.md R34), which the spec calls an enum and does not list: 64-bit mode and the five that 00_scope.md
R8(b) names (real-address, virtual-8086, 16-bit, protected 32-bit, compatibility), each a value of its own. DEDUCED, log 36. -/
inductive Mode where
  | real
  | virtual8086
  | bit16
  | protected32
  | compatibility
  | mode64
deriving DecidableEq, Repr

/-- Memory: the listed bytes, addresses strictly rising, no listed byte equal to what an unlisted address reads as
(20_memory.md R50). -/
abbrev Memory := List Host.Cell

/-- What a byte that is not listed reads as. DESIGN CHOICE (log 5): memory is unspecified at reset (10_state.md R38); every
content of memory is some list. -/
def unlistedByte : Byte := 0

/-- The addresses of a list of cells rise strictly. -/
def Memory.rising : Memory → Bool
  | [] => true
  | c :: rest => (rest.all fun e => decide (c.1 < e.1)) && Memory.rising rest

/-- The canonical form of memory: addresses strictly rising and below 2^64, and no entry equal to `unlistedByte`. -/
def Memory.wf (m : Memory) : Bool :=
  Memory.rising m && m.all fun c => decide (c.1 < 2 ^ 64) && decide (c.2 ≠ unlistedByte)

/-- State no instruction in scope reads or writes, and that the spec names singly or as a group (10_state.md R36; CR2 of
60_exceptions.md R220; the base of the interrupt descriptor table of R236). The spec gives no list of the groups: that the x87/MMX
registers are eight data registers, with no control, status or tag word, whose low 64 bits are the MMX registers, is a DESIGN
CHOICE (log 33); that there are eight debug registers, DR4 and DR5 being two of their own, is a DESIGN CHOICE (log 34); that 'the other control
registers' are CR2, which the spec names elsewhere, and CR3 and CR8, which it names nowhere, and no further one, is PRESUMED, the
family's (log 35). -/
structure Bystanders where
  x87 : Vector (BitVec 80) 8
  selES : BitVec 16
  selSS : BitVec 16
  selDS : BitVec 16
  selFS : BitVec 16
  selGS : BitVec 16
  dr : Vector (BitVec 64) 8
  cr2 : BitVec 64
  cr3 : BitVec 64
  cr8 : BitVec 64
  idtrBase : BitVec 64
  msr : List (Nat × BitVec 64)
deriving DecidableEq, Repr

/-- The machine. `feat`, `xlat`, `fsBase`, `gsBase`, the control registers, `mode` and `cs` are the parameters and the
record ENV of 00_scope.md R9 and 10_state.md R34: no instruction writes them. -/
structure State where
  /-- Vector registers (10_state.md R20, R21): register `i` is `zmm[i]`, of which the low `feat.maxvl` bits exist. -/
  zmm : Vector Vec 32
  /-- Opmask registers (10_state.md R25). -/
  k : Vector (BitVec 64) 8
  /-- The SIMD control and status register (10_state.md R27). -/
  mxcsr : BitVec 32
  /-- General registers 0 to 15 (10_state.md R31). -/
  gpr : Vector (BitVec 64) 16
  /-- The instruction pointer: the first byte of the instruction being executed (10_state.md R32). -/
  rip : Addr
  /-- The flags register, of which only AC matters here (10_state.md R30, 20_memory.md R56). -/
  rflags : BitVec 64
  /-- CR0: TS is bit 3 (10_state.md R34). -/
  cr0 : BitVec 64
  /-- CR4: OSXMMEXCPT is bit 10, OSXSAVE bit 18 (10_state.md R34). -/
  cr4 : BitVec 64
  /-- XCR0 (10_state.md R34). -/
  xcr0 : BitVec 64
  /-- The operating mode (10_state.md R34). -/
  mode : Mode
  /-- The CS selector, whose low two bits are CPL (60_exceptions.md R241). -/
  cs : BitVec 16
  /-- The code-segment base outside 64-bit mode (10_state.md R38). -/
  csBase : Addr
  /-- The segment base of FS (30_encoding.md R107). -/
  fsBase : Addr
  /-- The segment base of GS (30_encoding.md R107). -/
  gsBase : Addr
  /-- State no instruction in scope touches (10_state.md R36). -/
  other : Bystanders
  /-- The CPUID feature flags (00_scope.md R9). -/
  feat : Config.Features
  /-- The parameter `Translate` (00_scope.md R9). -/
  xlat : Config.Translate
  /-- The bytes of memory (20_memory.md R50). -/
  mem : Memory
deriving DecidableEq, Repr

/-- The exceptions of 60_exceptions.md R220, as the step's outcome `Fault(vector, code, s')` of 00_scope.md R14 and
60_exceptions.md R238: `s'` is the state the exception leaves, and every constructor carries it. All are the manual's own
faults, precise and restartable (R235). A run ends with one, where the processor would go on in a handler: safe (log 10). -/
inductive Fault where
  /-- #UD, vector 6: a form whose conditions of R224 or R225 fail, a reserved EVEX encoding (30_encoding.md R111), or in place
  of #XM when CR4.OSXMMEXCPT = 0 (R223). Raised by every form. Safe. -/
  | invalidOpcode (s' : State)
  /-- #NM, vector 7: CR0.TS = 1 (R226). Raised by every form. Safe. -/
  | deviceNotAvailable (s' : State)
  /-- #SS, vector 12: a memory operand through SS at a non-canonical address (R227). Raised by every form with a memory
  operand. Safe. -/
  | stackSegment (code : BitVec 32) (s' : State)
  /-- #GP, vector 13: a memory operand through another segment, or an instruction byte, at a non-canonical address (R227); an
  instruction longer than 15 bytes (R230). Raised by every form and by the fetch. Safe. -/
  | generalProtection (code : BitVec 32) (s' : State)
  /-- #PF, vector 14: paging refuses the operand read or the fetch (R227, R228); carries the error code and the faulting
  linear address, the value for CR2. Raised by every form and by the fetch. Safe. -/
  | pageFault (code : BitVec 32) (addr : Addr) (s' : State)
  /-- #XM, vector 19: an unmasked SIMD floating-point exception (R222, R223); `s'` has the flags OR-ed into MXCSR. Raised by
  every form but the embedded-rounding ones. Safe. -/
  | simdFloatingPoint (s' : State)
deriving DecidableEq, Repr

/-- Why the model gives a step no meaning. -/
inductive Refusal where
  /-- An instruction of the table without a meaning; no arm of `exec` answers it now. Safe. -/
  | notModelled (mnemonic : String)
  /-- The bytes at `rip` are not an instruction in scope, by the first field that says so (30_encoding.md R113). Raised by
  the step. Safe. -/
  | notInScope (why : Reject)
  /-- A mode other than 64-bit mode (00_scope.md R8(b), R9, 30_encoding.md R115). Raised by the step and by every form. Safe
  (log 7). -/
  | modeOutOfScope
  /-- An operand or instruction byte in memory whose reads have side effects (20_memory.md R61). Raised by every form with a
  memory operand and by the fetch. Safe. -/
  | sideEffectMemory
  /-- An unaligned memory operand while alignment checking is on (20_memory.md R56, 93_implementation_defined.md U12). Raised by
  every form with a memory operand. Safe. -/
  | alignmentCheckOpen
deriving DecidableEq, Repr

/-- The outcome of a step. -/
abbrev Result := Host.Outcome State Fault Refusal

/-- CPL, the low two bits of the CS selector (60_exceptions.md R241). -/
def State.cpl (s : State) : BitVec 2 := s.cs.extractLsb' 0 2

/-- The state `other` right after reset: PRESUMED the family's values (log 3); `msr` (log 4), and 0 in DR4 and DR5 (log 34), are
DESIGN CHOICES. -/
def Bystanders.reset : Bystanders where
  x87 := Vector.replicate 8 0
  selES := 0
  selSS := 0
  selDS := 0
  selFS := 0
  selGS := 0
  dr := ((Vector.replicate 8 0).set 6 0xFFFF0FF0).set 7 0x400
  cr2 := 0
  cr3 := 0
  cr8 := 0
  idtrBase := 0
  msr := []

/-- The machine right after reset (10_state.md R38, 70_reset_and_hazards.md R260). PRESUMED, the family's: RDX (log 2),
`rflags`, the CS selector, the FS and GS bases and `other` (log 3). DESIGN CHOICE: `feat` (log 1), `xlat` (log 6), memory
(log 5). -/
def State.reset : State where
  zmm := Vector.replicate 32 0
  k := Vector.replicate 8 0
  mxcsr := 0x1F80
  gpr := (Vector.replicate 16 0).set 2 0x50654
  rip := 0xFFF0
  rflags := 2
  cr0 := 0x60000010
  cr4 := 0
  xcr0 := 1
  mode := .real
  cs := 0xF000
  csBase := 0xFFFF0000
  fsBase := 0
  gsBase := 0
  other := Bystanders.reset
  feat := ⟨true, true, true, true⟩
  xlat := ⟨false, []⟩
  mem := []

end Sys2Proof.Machine
end

