-- ==== Sys2Proof/Machine/Ops.lean ====
section
/-! DEFINITION. The named operations over memory and registers, and the taking of an exception. -/

namespace Sys2Proof.Machine

/-! ## Memory -/

/-- The byte at an address. -/
def Memory.read (m : Memory) (a : Nat) : Byte :=
  match m with
  | [] => unlistedByte
  | c :: rest => if c.1 = a then c.2 else Memory.read rest a

/-- Put a byte in front of the cells above it, unless it is what an unlisted address reads as. -/
def Memory.cons (a : Nat) (b : Byte) (m : Memory) : Memory :=
  if b = unlistedByte then m else (a, b) :: m

/-- Write a byte, keeping the canonical form. -/
def Memory.write (m : Memory) (a : Nat) (b : Byte) : Memory :=
  match m with
  | [] => Memory.cons a b []
  | c :: rest =>
    if a < c.1 then Memory.cons a b (c :: rest)
    else if a = c.1 then Memory.cons a b rest
    else c :: Memory.write rest a b

/-- Write bytes upward from a linear address, addresses modulo 2^64. -/
def Memory.writeBytes (m : Memory) (a : Addr) (bs : List Byte) : Memory :=
  match bs with
  | [] => m
  | b :: rest => Memory.writeBytes (Memory.write m a.toNat b) (a + 1) rest

/-- A list of bytes as a number, little-endian (20_memory.md R53). -/
def leNat : List Byte → Nat
  | [] => 0
  | b :: bs => b.toNat + 256 * leNat bs

/-- A list of bytes as a `w`-bit value, little-endian (20_memory.md R53, R54). -/
def leWord (w : Nat) (bs : List Byte) : BitVec w := BitVec.ofNat w (leNat bs)

/-! ## Register access and update -/

/-- Read vector register `r` (00_scope.md R13). -/
def State.getZmm (s : State) (r : BitVec 5) : Vec := s.zmm[r.toNat]

/-- Write all of vector register `r` (00_scope.md R13). -/
def State.setZmm (s : State) (r : BitVec 5) (v : Vec) : State := { s with zmm := s.zmm.set r.toNat v }

/-- Read opmask register `r` (00_scope.md R13). -/
def State.getK (s : State) (r : BitVec 3) : BitVec 64 := s.k[r.toNat]

/-- Read general register `r` (00_scope.md R13). -/
def State.getGpr (s : State) (r : BitVec 4) : BitVec 64 := s.gpr[r.toNat]

/-- Set the instruction pointer (00_scope.md R13). -/
def State.setRip (s : State) (a : Addr) : State := { s with rip := a }

/-- `mxcsr[5:0] <- mxcsr[5:0] OR f`: the flags are only ever set (10_state.md R29). -/
def State.orFlags (s : State) (f : FlagSet) : State := { s with mxcsr := s.mxcsr ||| f.setWidth 32 }

/-- Replace memory. -/
def State.setMem (s : State) (m : Memory) : State := { s with mem := m }

/-- `MemWrite(lin, n, v)` of 00_scope.md R13 on a list of bytes: defined for completeness, no meaning uses it (20_memory.md
R57). -/
def State.memWrite (s : State) (a : Addr) (bs : List Byte) : State := s.setMem (s.mem.writeBytes a bs)

/-- The state after INIT, a warm reset (70_reset_and_hazards.md R260): as after power-up, but the vector registers, MXCSR and
XCR0 are left unchanged. Memory and the parameters, which are not the processor's, are kept (log 32). An event from outside:
no step performs it. -/
def State.initReset (s : State) : State :=
  { State.reset with zmm := s.zmm, mxcsr := s.mxcsr, xcr0 := s.xcr0, feat := s.feat, xlat := s.xlat, mem := s.mem }

/-- Lane `j` of a vector register (10_state.md R22). -/
def lane (v : Vec) (j : Nat) : F32 := v.extractLsb' (32 * j) 32

/-- A register from its lanes, lane 0 first, zero above them (41_vfnmsub_vex.md R170 step 6). -/
def packLanes : List F32 → Vec
  | [] => 0
  | l :: ls => l.setWidth 512 ||| (packLanes ls <<< 32)

/-! ## Taking an exception -/

/-- An exception an instruction raises, with its error code where the instruction chooses it (60_exceptions.md R220). -/
inductive Exc where
  | ud
  | nm
  | ss
  | gp
  | pf (code : BitVec 32) (addr : Addr)
  | xm
deriving DecidableEq, Repr

/-- `raise #XX(code)` at a state (60_exceptions.md R238): the step ends with the vector, the code and the state, whose `rip`
still points at the instruction. -/
def raise (e : Exc) (s : State) : Result :=
  match e with
  | .ud => .fault (.invalidOpcode s)
  | .nm => .fault (.deviceNotAvailable s)
  | .ss => .fault (.stackSegment 0 s)
  | .gp => .fault (.generalProtection 0 s)
  | .pf code addr => .fault (.pageFault code addr s)
  | .xm => .fault (.simdFloatingPoint s)

/-- The exception vector (60_exceptions.md R220). -/
def Fault.vector : Fault → Nat
  | .invalidOpcode _ => 6
  | .deviceNotAvailable _ => 7
  | .stackSegment _ _ => 12
  | .generalProtection _ _ => 13
  | .pageFault _ _ _ => 14
  | .simdFloatingPoint _ => 19

/-- The error code, for the exceptions that have one (60_exceptions.md R220). -/
def Fault.errorCode : Fault → Option (BitVec 32)
  | .invalidOpcode _ => none
  | .deviceNotAvailable _ => none
  | .stackSegment c _ => some c
  | .generalProtection c _ => some c
  | .pageFault c _ _ => some c
  | .simdFloatingPoint _ => none

/-- The faulting linear address recorded for CR2 (60_exceptions.md R220, R228). -/
def Fault.faultAddress : Fault → Option Addr
  | .invalidOpcode _ => none
  | .deviceNotAvailable _ => none
  | .stackSegment _ _ => none
  | .generalProtection _ _ => none
  | .pageFault _ a _ => some a
  | .simdFloatingPoint _ => none

/-- The state `s'` the exception leaves (60_exceptions.md R238); its `rip` is the saved instruction pointer (R237). -/
def Fault.state : Fault → State
  | .invalidOpcode s => s
  | .deviceNotAvailable s => s
  | .stackSegment _ s => s
  | .generalProtection _ s => s
  | .pageFault _ _ s => s
  | .simdFloatingPoint s => s

/-- What can end a step before an instruction has its effect: an exception or a refusal. -/
inductive Stop where
  | exc (e : Exc)
  | refuse (r : Refusal)
deriving DecidableEq, Repr

/-- A stop as the step's outcome; an exception leaves the state as it was (60_exceptions.md R235). -/
def Stop.result (t : Stop) (s : State) : Result :=
  match t with
  | .exc e => raise e s
  | .refuse r => .refused r

/-! ## Translation and the read of memory -/

/-- A linear address is canonical: its bits above the implemented ones copy the top implemented one (20_memory.md R50). -/
def canonical (la57 : Bool) (a : Addr) : Bool :=
  if la57 then decide ((a.setWidth 57).signExtend 64 = a) else decide ((a.setWidth 48).signExtend 64 = a)

/-- A region holds an address, counting upward from its base modulo 2^64. -/
def regionHolds (r : Config.Region) (a : Addr) : Bool := decide ((a - r.base).toNat < r.size)

/-- What `Translate` answers at an address (20_memory.md R58): the first region that holds it decides. -/
def translate (t : Config.Translate) (kind : Config.AccessKind) (a : Addr) : Config.Answer :=
  match t.regions.find? (fun r => regionHolds r a) with
  | none => .memory
  | some r =>
    match kind with
    | .read => r.read
    | .fetch => r.fetch

/-- The page-fault error code (60_exceptions.md R228): P, W/R = 0, U/S = (CPL = 3), RSVD, I/D, PK in bits 0 to 5, SGX in
bit 15. -/
def pageFaultCode (c : Config.PageFaultCause) (kind : Config.AccessKind) (cpl : BitVec 2) : BitVec 32 :=
  (BitVec.ofBool c.sgx ++ 0#9 ++ BitVec.ofBool c.protectionKey ++ BitVec.ofBool (decide (kind = .fetch)) ++
    BitVec.ofBool c.reservedBit ++ BitVec.ofBool (decide (cpl = 3)) ++ 0#1 ++ BitVec.ofBool c.protection : BitVec 16).setWidth 32

/-- The exception of a non-canonical address (20_memory.md R58, 60_exceptions.md R227): #SS(0) for an operand through SS,
#GP(0) otherwise and for a fetch. -/
def nonCanonical (kind : Config.AccessKind) (seg : Segment) : Exc :=
  match kind with
  | .read => if seg = .ss then .ss else .gp
  | .fetch => .gp

/-- One byte at a linear address (20_memory.md R58, R61): the byte, an exception, or the refusal of memory whose reads have
side effects. -/
def accessByte (s : State) (kind : Config.AccessKind) (seg : Segment) (a : Addr) : Except Stop Byte :=
  if canonical s.xlat.la57 a then
    match translate s.xlat kind a with
    | .memory => .ok (s.mem.read a.toNat)
    | .pageFault c => .error (.exc (.pf (pageFaultCode c kind s.cpl) a))
    | .sideEffects => .error (.refuse .sideEffectMemory)
  else .error (.exc (nonCanonical kind seg))

/-- `MemRead(lin, n)` as bytes, in the order of the offset `i` (20_memory.md R58): the lowest `i` whose byte does not come decides.
Which byte of an operand an instruction reports is `lowestStop`'s to say: by address, which differs from this one read's order
only past a wrap (log 38). -/
def memRead (s : State) (seg : Segment) (n : Nat) (a : Addr) : Except Stop (List Byte) :=
  match n with
  | 0 => .ok []
  | n + 1 =>
    match accessByte s .read seg a with
    | .error t => .error t
    | .ok b =>
      match memRead s seg n (a + 1) with
      | .error t => .error t
      | .ok bs => .ok (b :: bs)

/-- Of the bytes at these addresses, the one at the lowest address that does not come, and what it says: what an instruction
reports of its memory operand (42_vfnmsub_evex.md R195, 60_exceptions.md R231 step 5, 92_eei_decisions.md D19; log 13, 38). The
lower address decides also between a byte that faults and one whose reads have side effects (20_memory.md R61), an order that
the spec leaves open: DESIGN CHOICE, log 37. -/
def lowestStop (s : State) (seg : Segment) (as : List Addr) : Option (Addr × Stop) :=
  match as with
  | [] => none
  | a :: as =>
    match accessByte s .read seg a with
    | .ok _ => lowestStop s seg as
    | .error t =>
      match lowestStop s seg as with
      | none => some (a, t)
      | some (b, u) => if b < a then some (b, u) else some (a, t)

/-! ## Fetch -/

/-- The linear address of the instruction (10_state.md R32, R38): `rip` in 64-bit mode, where the code-segment base is
treated as zero (20_memory.md R62); above the code-segment base otherwise. -/
def fetchAddress (s : State) : Addr := if s.mode = .mode64 then s.rip else s.csBase + s.rip

/-- Up to `n` instruction bytes upward from an address modulo 2^64, and what stopped the fetch if it came short
(92_eei_decisions.md D12): the first byte in the order of the instruction decides, also past a wrap (DEDUCED, log 38). -/
def fetchBytes (s : State) (n : Nat) (a : Addr) : List Byte × Option Stop :=
  match n with
  | 0 => ([], none)
  | n + 1 =>
    match accessByte s .fetch .cs a with
    | .error t => ([], some t)
    | .ok b => (b :: (fetchBytes s n (a + 1)).1, (fetchBytes s n (a + 1)).2)

end Sys2Proof.Machine
end

