-- ==== Sys2Proof/Machine/Operands.lean ====
section
/-! DEFINITION. Operand 3 in memory: the effective and linear address (30_encoding.md R99 to R107), and the read of a full
vector or of a broadcast datum under a write mask (20_memory.md R58, R59). -/

namespace Sys2Proof.Machine

/-- FAULT_SUPPRESSION (00_scope.md R9, 92_eei_decisions.md D19): masked-off memory elements are exempt from faults. -/
def faultSuppression : Bool := true

/-! ## The address -/

/-- The last segment override wins (30_encoding.md R107, R112). -/
def lastSegment : List LegacyPrefix → Option Segment
  | [] => none
  | q :: ps =>
    match lastSegment ps with
    | some r => some r
    | none =>
      match q with
      | .seg r => some r
      | _ => none

/-- The address-size prefix 67H stands among the prefixes (30_encoding.md R106). -/
def addressSize32 (p : List LegacyPrefix) : Bool := p.any fun q => decide (q = .addr32)

/-- The base register of a memory form. -/
def baseRegister : MemForm → Option (BitVec 4)
  | .ripRel _ => none
  | .base b _ => some b
  | .sib b _ _ => some b
  | .sibNoBase _ _ => none

/-- The segment of a memory operand (30_encoding.md R107): the last override, else SS for a base RSP or RBP, else DS. -/
def operandSegment (p : List LegacyPrefix) (m : MemForm) : Segment :=
  match lastSegment p with
  | some r => r
  | none => if baseRegister m = some 4 ∨ baseRegister m = some 5 then .ss else .ds

/-- The base of a segment in 64-bit mode (30_encoding.md R107). -/
def segmentBase (s : State) : Segment → Addr
  | .es => 0
  | .cs => 0
  | .ss => 0
  | .ds => 0
  | .fs => s.fsBase
  | .gs => s.gsBase

/-- A displacement sign-extended, disp8 times the factor `n` (30_encoding.md R104, R105). -/
def dispValue (n : Nat) : Disp → Addr
  | .none => 0
  | .d8 v => v.signExtend 64 * BitVec.ofNat 64 n
  | .d32 v => v.signExtend 64

/-- The scaled index of a SIB form in `w`-bit arithmetic (30_encoding.md R100, R101, R106). -/
def indexValue (w : Nat) (s : State) : Option Index → BitVec w
  | none => 0
  | some i => (s.getGpr i.reg).setWidth w <<< i.scale.toNat

/-- The effective address in `w`-bit arithmetic (30_encoding.md R99 to R103, R106); `len` is the instruction's length, `n` the
disp8 factor. -/
def addressSum (w : Nat) (s : State) (len n : Nat) : MemForm → BitVec w
  | .ripRel v => (s.rip + BitVec.ofNat 64 len).setWidth w + (v.signExtend 64).setWidth w
  | .base b d => (s.getGpr b).setWidth w + (dispValue n d).setWidth w
  | .sib b i d => (s.getGpr b).setWidth w + indexValue w s i + (dispValue n d).setWidth w
  | .sibNoBase i v => indexValue w s i + (v.signExtend 64).setWidth w

/-- The effective address (30_encoding.md R99, R106): modulo 2^64, or with 67H modulo 2^32 and zero-extended. -/
def effectiveAddress (s : State) (p : List LegacyPrefix) (len n : Nat) (m : MemForm) : Addr :=
  if addressSize32 p then (addressSum 32 s len n m).setWidth 64 else addressSum 64 s len n m

/-- The linear address of a memory operand (30_encoding.md R107). -/
def linearAddress (s : State) (p : List LegacyPrefix) (len n : Nat) (m : MemForm) : Addr :=
  segmentBase s (operandSegment p m) + effectiveAddress s p len n m

/-! ## The read -/

/-- Alignment checking is on: CR0.AM (bit 18), EFLAGS.AC (bit 18) and CPL 3 (20_memory.md R56; bit places PRESUMED,
log 14). -/
def alignmentChecking (s : State) : Bool := s.cr0.getLsbD 18 && s.rflags.getLsbD 18 && decide (s.cpl = 3)

/-- Without the premise P_ac an operand not aligned to its size is refused (20_memory.md R56, 93_implementation_defined.md
U12; log 14). -/
def misaligned (s : State) (size : Nat) (a : Addr) : Bool := alignmentChecking s && decide (a.toNat % size ≠ 0)

/-- The lanes of a full vector in memory (20_memory.md R54, R59): a lane whose mask bit is 0 is not read and its value, which
nothing examines, stands as 0. `readFull` calls it when every byte it reads comes. -/
def readLanes (s : State) (seg : Segment) (act : List Bool) (a : Addr) : Except Stop (List F32) :=
  match act with
  | [] => .ok []
  | on :: act =>
    if on || !faultSuppression then
      match memRead s seg 4 a with
      | .error t => .error t
      | .ok bs =>
        match readLanes s seg act (a + 4) with
        | .error t => .error t
        | .ok ls => .ok (leWord 32 bs :: ls)
    else
      match readLanes s seg act (a + 4) with
      | .error t => .error t
      | .ok ls => .ok (0 :: ls)

/-- Some lane of the operand is read (20_memory.md R59). -/
def anyRead (act : List Bool) : Bool := act.any id || !faultSuppression

/-- The addresses of the bytes of a full-vector memory operand that are read under a mask (20_memory.md R59). -/
def bytesRead (act : List Bool) (a : Addr) : List Addr :=
  ((List.range (4 * act.length)).filter fun i => act.getD (i / 4) false || !faultSuppression).map fun i =>
    a + BitVec.ofNat 64 i

/-- A full-vector memory operand under a mask (20_memory.md R58, R59): the lowest address that does not come decides
(42_vfnmsub_evex.md R195), else the lanes are read. -/
def readFull (s : State) (seg : Segment) (act : List Bool) (a : Addr) : Except Stop (List F32) :=
  if anyRead act && misaligned s (4 * act.length) a then .error (.refuse .alignmentCheckOpen)
  else
    match lowestStop s seg (bytesRead act a) with
    | some (_, t) => .error t
    | none => readLanes s seg act a

/-- A broadcast memory operand under a mask (20_memory.md R59, 42_vfnmsub_evex.md R193): one datum, read if and only if some
lane is active, in every lane; the lowest address that does not come decides (60_exceptions.md R231 step 5). -/
def readBroadcast (s : State) (seg : Segment) (act : List Bool) (a : Addr) : Except Stop (List F32) :=
  if anyRead act then
    if misaligned s 4 a then .error (.refuse .alignmentCheckOpen)
    else
      match lowestStop s seg (bytesRead [true] a) with
      | some (_, t) => .error t
      | none =>
        match memRead s seg 4 a with
        | .error t => .error t
        | .ok bs => .ok (List.replicate act.length (leWord 32 bs))
  else .ok (List.replicate act.length 0)

/-- The lanes of a register operand. -/
def registerLanes (s : State) (r : BitVec 5) (kl : Nat) : List F32 := (List.range kl).map (lane (s.getZmm r))

/-- A VEX register number among 0 to 31 (10_state.md R23). -/
def vexReg (r : BitVec 4) : BitVec 5 := r.setWidth 5

/-- Operand 3 of a VEX form as lanes (41_vfnmsub_vex.md R170 step 3). -/
def readVexOp3 (s : State) (p : List LegacyPrefix) (kl : Nat) (o : VexOp3) : Except Stop (List F32) :=
  match o with
  | .reg n => .ok (registerLanes s (vexReg n) kl)
  | .mem m => readFull s (operandSegment p m) (List.replicate kl true) (linearAddress s p (vexLength p o) 1 m)

/-- Operand 3 of an EVEX form as lanes (42_vfnmsub_evex.md R190 step 3); disp8 is scaled by VL/8 or by 4
(30_encoding.md R105). -/
def readEvexOp3 (s : State) (p : List LegacyPrefix) (act : List Bool) (o : EvexOp3) : Except Stop (List F32) :=
  match o with
  | .reg n => .ok (registerLanes s n act.length)
  | .mem m => readFull s (operandSegment p m) act (linearAddress s p (evexLength p o) (4 * act.length) m)
  | .bcst m => readBroadcast s (operandSegment p m) act (linearAddress s p (evexLength p o) 4 m)

end Sys2Proof.Machine
end

