-- ==== Sys2Proof/WellFormed.lean ====
section
/-! DEFINITION. Which terms of `Instr` are instructions. `encodable`: the memory form is one that ModRM and SIB can say, so
that the encoder's bytes mean this very term. `wellFormed`: moreover no prefix, mask or length that makes every
execution of it raise #UD or #GP(0) by its encoding alone. -/

namespace Sys2Proof

/-- A base register with this displacement needs no SIB byte and is not the RIP-relative form: its low three bits are not
100b, and without a displacement not 101b (30_encoding.md R99, R101). -/
def baseEncodable (b : BitVec 4) (d : Disp) : Bool :=
  decide (b.extractLsb' 0 3 ≠ 4) && (decide (d ≠ .none) || decide (b.extractLsb' 0 3 ≠ 5))

/-- A SIB base without a displacement is not RBP or R13 (30_encoding.md R101 case 2). -/
def sibBaseEncodable (b : BitVec 4) (d : Disp) : Bool :=
  decide (d ≠ .none) || decide (b.extractLsb' 0 3 ≠ 5)

/-- RSP is no index (30_encoding.md R101 case 1). -/
def indexEncodable (i : Option Index) : Bool :=
  match i with
  | none => true
  | some x => decide (x.reg ≠ 4)

/-- A memory form that ModRM and SIB can say (30_encoding.md R99 to R101). -/
def MemForm.encodable : MemForm → Bool
  | .ripRel _ => true
  | .base b d => baseEncodable b d
  | .sib b i d => sibBaseEncodable b d && indexEncodable i
  | .sibNoBase i _ => indexEncodable i

/-- `encodable` for operand 3 of a VEX form. -/
def VexOp3.encodable : VexOp3 → Bool
  | .reg _ => true
  | .mem m => m.encodable

/-- `encodable` for operand 3 of an EVEX form. -/
def EvexOp3.encodable : EvexOp3 → Bool
  | .reg _ => true
  | .mem m => m.encodable
  | .bcst m => m.encodable

/-- Only prefixes of 30_encoding.md R112 that are allowed. -/
def prefixesAllowed (p : List LegacyPrefix) : Bool := p.all (fun q => !q.forbidden)

/-- Zeroing needs a mask register (30_encoding.md R111, R116). -/
def Masking.legal (k : Masking) : Bool := !(k.z && decide (k.aaa = 0))

/-- The legacy prefixes of an instruction. -/
def Instr.prefixes : Instr → List LegacyPrefix
  | .vfnmsub132VexXmm p _ _ _ => p
  | .vfnmsub213VexXmm p _ _ _ => p
  | .vfnmsub231VexXmm p _ _ _ => p
  | .vfnmsub132VexYmm p _ _ _ => p
  | .vfnmsub213VexYmm p _ _ _ => p
  | .vfnmsub231VexYmm p _ _ _ => p
  | .vfnmsub132EvexXmm p _ _ _ _ => p
  | .vfnmsub213EvexXmm p _ _ _ _ => p
  | .vfnmsub231EvexXmm p _ _ _ _ => p
  | .vfnmsub132EvexYmm p _ _ _ _ => p
  | .vfnmsub213EvexYmm p _ _ _ _ => p
  | .vfnmsub231EvexYmm p _ _ _ _ => p
  | .vfnmsub132EvexZmm p _ _ _ _ => p
  | .vfnmsub213EvexZmm p _ _ _ _ => p
  | .vfnmsub231EvexZmm p _ _ _ _ => p
  | .vfnmsub132EvexZmmEr p _ _ _ _ _ => p
  | .vfnmsub213EvexZmmEr p _ _ _ _ _ => p
  | .vfnmsub231EvexZmmEr p _ _ _ _ _ => p

/-- The masking fields of an instruction; a VEX form has none (41_vfnmsub_vex.md R182). -/
def Instr.masking : Instr → Masking
  | .vfnmsub132VexXmm _ _ _ _ => ⟨0, false⟩
  | .vfnmsub213VexXmm _ _ _ _ => ⟨0, false⟩
  | .vfnmsub231VexXmm _ _ _ _ => ⟨0, false⟩
  | .vfnmsub132VexYmm _ _ _ _ => ⟨0, false⟩
  | .vfnmsub213VexYmm _ _ _ _ => ⟨0, false⟩
  | .vfnmsub231VexYmm _ _ _ _ => ⟨0, false⟩
  | .vfnmsub132EvexXmm _ k _ _ _ => k
  | .vfnmsub213EvexXmm _ k _ _ _ => k
  | .vfnmsub231EvexXmm _ k _ _ _ => k
  | .vfnmsub132EvexYmm _ k _ _ _ => k
  | .vfnmsub213EvexYmm _ k _ _ _ => k
  | .vfnmsub231EvexYmm _ k _ _ _ => k
  | .vfnmsub132EvexZmm _ k _ _ _ => k
  | .vfnmsub213EvexZmm _ k _ _ _ => k
  | .vfnmsub231EvexZmm _ k _ _ _ => k
  | .vfnmsub132EvexZmmEr _ k _ _ _ _ => k
  | .vfnmsub213EvexZmmEr _ k _ _ _ _ => k
  | .vfnmsub231EvexZmmEr _ k _ _ _ _ => k

/-- Operand 3 is one the encodings can say. -/
def Instr.encodable : Instr → Bool
  | .vfnmsub132VexXmm _ _ _ o => o.encodable
  | .vfnmsub213VexXmm _ _ _ o => o.encodable
  | .vfnmsub231VexXmm _ _ _ o => o.encodable
  | .vfnmsub132VexYmm _ _ _ o => o.encodable
  | .vfnmsub213VexYmm _ _ _ o => o.encodable
  | .vfnmsub231VexYmm _ _ _ o => o.encodable
  | .vfnmsub132EvexXmm _ _ _ _ o => o.encodable
  | .vfnmsub213EvexXmm _ _ _ _ o => o.encodable
  | .vfnmsub231EvexXmm _ _ _ _ o => o.encodable
  | .vfnmsub132EvexYmm _ _ _ _ o => o.encodable
  | .vfnmsub213EvexYmm _ _ _ _ o => o.encodable
  | .vfnmsub231EvexYmm _ _ _ _ o => o.encodable
  | .vfnmsub132EvexZmm _ _ _ _ o => o.encodable
  | .vfnmsub213EvexZmm _ _ _ _ o => o.encodable
  | .vfnmsub231EvexZmm _ _ _ _ o => o.encodable
  | .vfnmsub132EvexZmmEr _ _ _ _ _ _ => true
  | .vfnmsub213EvexZmmEr _ _ _ _ _ _ => true
  | .vfnmsub231EvexZmmEr _ _ _ _ _ _ => true

/-- The syntax of 30_encoding.md R116 with allowed prefixes (R112), a legal mask (R111) and at most 15 bytes (R110). -/
def Instr.wellFormed (i : Instr) : Bool :=
  i.encodable && prefixesAllowed i.prefixes && i.masking.legal && decide (i.length ≤ maxLength)

end Sys2Proof
end

