-- ==== Sys2Proof/Machine/Packed.lean ====
section
/-! DEFINITION. The two templates of which every meaning is an instance: `execVex` (41_vfnmsub_vex.md R170) and `execEvex`,
with `execEr` for embedded rounding (42_vfnmsub_evex.md R190). -/

namespace Sys2Proof.Machine

/-- SAE_UPDATES_FLAGS (00_scope.md R9, 92_eei_decisions.md D10): an embedded-rounding form sets no MXCSR flag. -/
def saeUpdatesFlags : Bool := false

/-! ## What must hold before an operand is read -/

/-- Every mode but 64-bit mode is refused (00_scope.md R8(b), R9, 30_encoding.md R115, 92_eei_decisions.md D1; log 7). -/
def modeRefused (s : State) : Bool := decide (s.mode ≠ .mode64)

/-- Real-address and virtual-8086 mode, where a VEX or EVEX prefix is an invalid opcode: a row of the tables of
60_exceptions.md R224 and R225, which `modeRefused` comes before ("refused anyway by MODE"). -/
def modeInvalid (s : State) : Bool := decide (s.mode = .real) || decide (s.mode = .virtual8086)

/-- CR0.TS (10_state.md R34). -/
def crTs (s : State) : Bool := s.cr0.getLsbD 3

/-- CR4.OSXSAVE (10_state.md R34). -/
def crOsxsave (s : State) : Bool := s.cr4.getLsbD 18

/-- CR4.OSXMMEXCPT (10_state.md R34). -/
def crOsxmmexcpt (s : State) : Bool := s.cr4.getLsbD 10

/-- XCR0[2:1] = 11b: SSE and AVX state enabled (10_state.md R34). -/
def xcrAvx (s : State) : Bool := decide (s.xcr0.extractLsb' 1 2 = 3)

/-- XCR0[7:5] = 111b: opmask, ZMM_Hi256 and Hi16_ZMM state enabled (10_state.md R34). -/
def xcrAvx512 (s : State) : Bool := decide (s.xcr0.extractLsb' 5 3 = 7)

/-- The #UD conditions of a VEX form tested before anything is read (60_exceptions.md R224). -/
def vexUd (s : State) (p : List LegacyPrefix) : Bool :=
  !s.feat.fma || !crOsxsave s || !xcrAvx s || modeInvalid s || !prefixesAllowed p

/-- The #UD conditions of an EVEX form of `kl` lanes tested before anything is read (60_exceptions.md R225). -/
def evexUd (s : State) (p : List LegacyPrefix) (k : Masking) (kl : Nat) : Bool :=
  !s.feat.avx512f || (decide (kl < 16) && !s.feat.avx512vl) || !crOsxsave s || !xcrAvx s || !xcrAvx512 s ||
    modeInvalid s || !prefixesAllowed p || !k.legal

/-- The order of the checks (60_exceptions.md R231): mode, length over 15 bytes, #UD, #NM, then `go`. -/
def guarded (s : State) (len : Nat) (ud : Bool) (go : Result) : Result :=
  if modeRefused s then .refused .modeOutOfScope
  else if maxLength < len then raise .gp s
  else if ud then raise .ud s
  else if crTs s then raise .nm s
  else go

/-! ## The lanes -/

/-- What the lanes read from MXCSR (10_state.md R28). -/
def mxControl (m : BitVec 32) : FpControl := ⟨mxRc m, mxDaz m, mxFtz m, mxOm m, mxUm m⟩

/-- What the lanes of an embedded-rounding form read: the instruction's rounding mode, overflow and underflow masked, DAZ
and FTZ of MXCSR (42_vfnmsub_evex.md R190 step 4, R194). -/
def erControl (rc : RoundMode) (m : BitVec 32) : FpControl := ⟨rc, mxDaz m, mxFtz m, true, true⟩

/-- The active lanes (42_vfnmsub_evex.md R191): all of them without a write mask, else those whose mask bit is 1. -/
def activeLanes (s : State) (k : Masking) (kl : Nat) : List Bool :=
  (List.range kl).map fun j => decide (k.aaa = 0) || (s.getK k.aaa).getLsbD j

/-- The lanes of one instruction: form, control, old destination, second source, third source. -/
structure Lanes where
  f : Form
  c : FpControl
  dest : Vec
  src2 : Vec
  src3 : List F32
deriving DecidableEq, Repr

/-- Lane `j` computed (40_fnmsub_lane_arithmetic.md R134). -/
def Lanes.out (l : Lanes) (j : Nat) : LaneResult :=
  formLane l.f (lane l.dest j) (lane l.src2 j) (l.src3.getD j 0) l.c

/-- The flags of the active lanes (42_vfnmsub_evex.md R191); an inactive lane has none. -/
def Lanes.flags (l : Lanes) (act : List Bool) : List FlagSet :=
  (List.range act.length).map fun j => if act.getD j false then (l.out j).fl else 0

/-- The new lanes (42_vfnmsub_evex.md R190 step 6, R192): computed, kept (merging) or zero (zeroing). An absent result
stands as 0 and is never delivered (40_fnmsub_lane_arithmetic.md R133; log 31). -/
def Lanes.new (l : Lanes) (act : List Bool) (z : Bool) : List F32 :=
  (List.range act.length).map fun j =>
    if act.getD j false then (l.out j).r.getD 0 else if z then 0 else lane l.dest j

/-! ## The end of an instruction -/

/-- The destination written in all its bits and `rip` past the instruction (41_vfnmsub_vex.md R170 steps 6 and 7). -/
def writeBack (s : State) (d : BitVec 5) (v : Vec) (len : Nat) : State :=
  (s.setZmm d v).setRip (s.rip + BitVec.ofNat 64 len)

/-- `Trap(F)` (60_exceptions.md R223): the flags OR-ed into MXCSR, then #XM, or #UD when CR4.OSXMMEXCPT = 0. -/
def raiseSimd (f : FlagSet) (s : State) : Result := raise (if crOsxmmexcpt s then .xm else .ud) (s.orFlags f)

/-- Steps 5 to 7 of the templates: deliver the lanes or trap (60_exceptions.md R222). -/
def complete (s : State) (d : BitVec 5) (fs : List FlagSet) (v : Vec) (len : Nat) : Result :=
  match simdFpOutcome fs (mxMasks s.mxcsr) with
  | .trap f => raiseSimd f s
  | .deliver f => .next (writeBack (s.orFlags f) d v len)

/-- The end of an embedded-rounding form: nothing is raised and MXCSR is not written (42_vfnmsub_evex.md R194). -/
def completeEr (s : State) (d : BitVec 5) (fs : List FlagSet) (v : Vec) (len : Nat) : Result :=
  .next (writeBack (if saeUpdatesFlags then s.orFlags (unionFlags fs) else s) d v len)

/-! ## The templates -/

/-- `ExecVEX(f, VL, d, s2, op3)` with `VL = 32 * kl` (41_vfnmsub_vex.md R170). -/
def execVex (f : Form) (kl : Nat) (p : List LegacyPrefix) (d s2 : BitVec 4) (o : VexOp3) (s : State) : Result :=
  guarded s (vexLength p o) (vexUd s p)
    (match readVexOp3 s p kl o with
    | .error t => t.result s
    | .ok src3 =>
      let l : Lanes := ⟨f, mxControl s.mxcsr, s.getZmm (vexReg d), s.getZmm (vexReg s2), src3⟩
      let act := List.replicate kl true
      complete s (vexReg d) (l.flags act) (packLanes (l.new act false)) (vexLength p o))

/-- `ExecEVEX` without embedded rounding, `VL = 32 * kl` (42_vfnmsub_evex.md R190). -/
def execEvex (f : Form) (kl : Nat) (p : List LegacyPrefix) (k : Masking) (d s2 : BitVec 5) (o : EvexOp3) (s : State) :
    Result :=
  guarded s (evexLength p o) (evexUd s p k kl)
    (match readEvexOp3 s p (activeLanes s k kl) o with
    | .error t => t.result s
    | .ok src3 =>
      let l : Lanes := ⟨f, mxControl s.mxcsr, s.getZmm d, s.getZmm s2, src3⟩
      let act := activeLanes s k kl
      complete s d (l.flags act) (packLanes (l.new act k.z)) (evexLength p o))

/-- `ExecEVEX` with embedded rounding: register operand 3, VL = 512 (42_vfnmsub_evex.md R190, R194). -/
def execEr (f : Form) (p : List LegacyPrefix) (k : Masking) (d s2 s3 : BitVec 5) (rc : RoundMode) (s : State) : Result :=
  guarded s (evexLength p (.reg s3)) (evexUd s p k 16)
    (let l : Lanes := ⟨f, erControl rc s.mxcsr, s.getZmm d, s.getZmm s2, registerLanes s s3 16⟩
     let act := activeLanes s k 16
     completeEr s d (l.flags act) (packLanes (l.new act k.z)) (evexLength p (.reg s3)))

end Sys2Proof.Machine
end

