-- ==== Sys2Proof/Machine/EvexForms.lean ====
section
/-! DEFINITION. The meanings of the nine EVEX-encoded instructions without embedded rounding, rows 7 to 15
(42_vfnmsub_evex.md R200 to R208). -/

namespace Sys2Proof.Machine

/-- Row 7, VFNMSUB132PS xmm1 (k1)(z), xmm2, xmm3/m128/m32bcst (42_vfnmsub_evex.md R200). -/
def execVfnmsub132EvexXmm (p : List LegacyPrefix) (k : Masking) (d s2 : BitVec 5) (o : EvexOp3) (s : State) : Result :=
  execEvex .f132 4 p k d s2 o s

/-- Row 8, VFNMSUB213PS xmm1 (k1)(z), xmm2, xmm3/m128/m32bcst (42_vfnmsub_evex.md R201). -/
def execVfnmsub213EvexXmm (p : List LegacyPrefix) (k : Masking) (d s2 : BitVec 5) (o : EvexOp3) (s : State) : Result :=
  execEvex .f213 4 p k d s2 o s

/-- Row 9, VFNMSUB231PS xmm1 (k1)(z), xmm2, xmm3/m128/m32bcst (42_vfnmsub_evex.md R202). -/
def execVfnmsub231EvexXmm (p : List LegacyPrefix) (k : Masking) (d s2 : BitVec 5) (o : EvexOp3) (s : State) : Result :=
  execEvex .f231 4 p k d s2 o s

/-- Row 10, VFNMSUB132PS ymm1 (k1)(z), ymm2, ymm3/m256/m32bcst (42_vfnmsub_evex.md R203). -/
def execVfnmsub132EvexYmm (p : List LegacyPrefix) (k : Masking) (d s2 : BitVec 5) (o : EvexOp3) (s : State) : Result :=
  execEvex .f132 8 p k d s2 o s

/-- Row 11, VFNMSUB213PS ymm1 (k1)(z), ymm2, ymm3/m256/m32bcst (42_vfnmsub_evex.md R204). -/
def execVfnmsub213EvexYmm (p : List LegacyPrefix) (k : Masking) (d s2 : BitVec 5) (o : EvexOp3) (s : State) : Result :=
  execEvex .f213 8 p k d s2 o s

/-- Row 12, VFNMSUB231PS ymm1 (k1)(z), ymm2, ymm3/m256/m32bcst (42_vfnmsub_evex.md R205). -/
def execVfnmsub231EvexYmm (p : List LegacyPrefix) (k : Masking) (d s2 : BitVec 5) (o : EvexOp3) (s : State) : Result :=
  execEvex .f231 8 p k d s2 o s

/-- Row 13, VFNMSUB132PS zmm1 (k1)(z), zmm2, zmm3/m512/m32bcst (42_vfnmsub_evex.md R206). -/
def execVfnmsub132EvexZmm (p : List LegacyPrefix) (k : Masking) (d s2 : BitVec 5) (o : EvexOp3) (s : State) : Result :=
  execEvex .f132 16 p k d s2 o s

/-- Row 14, VFNMSUB213PS zmm1 (k1)(z), zmm2, zmm3/m512/m32bcst (42_vfnmsub_evex.md R207). -/
def execVfnmsub213EvexZmm (p : List LegacyPrefix) (k : Masking) (d s2 : BitVec 5) (o : EvexOp3) (s : State) : Result :=
  execEvex .f213 16 p k d s2 o s

/-- Row 15, VFNMSUB231PS zmm1 (k1)(z), zmm2, zmm3/m512/m32bcst (42_vfnmsub_evex.md R208). -/
def execVfnmsub231EvexZmm (p : List LegacyPrefix) (k : Masking) (d s2 : BitVec 5) (o : EvexOp3) (s : State) : Result :=
  execEvex .f231 16 p k d s2 o s

end Sys2Proof.Machine
end

