-- ==== Sys2Proof/Machine/EvexRounding.lean ====
section
/-! DEFINITION. The meanings of the three EVEX-encoded instructions with embedded rounding, rows 13 to 15
(42_vfnmsub_evex.md R206 to R208, R194). -/

namespace Sys2Proof.Machine

/-- Row 13 with embedded rounding, VFNMSUB132PS zmm1 (k1)(z), zmm2, zmm3(er) (42_vfnmsub_evex.md R206). -/
def execVfnmsub132EvexZmmEr (p : List LegacyPrefix) (k : Masking) (d s2 s3 : BitVec 5) (rc : RoundMode) (s : State) : Result :=
  execEr .f132 p k d s2 s3 rc s

/-- Row 14 with embedded rounding, VFNMSUB213PS zmm1 (k1)(z), zmm2, zmm3(er) (42_vfnmsub_evex.md R207). -/
def execVfnmsub213EvexZmmEr (p : List LegacyPrefix) (k : Masking) (d s2 s3 : BitVec 5) (rc : RoundMode) (s : State) : Result :=
  execEr .f213 p k d s2 s3 rc s

/-- Row 15 with embedded rounding, VFNMSUB231PS zmm1 (k1)(z), zmm2, zmm3(er) (42_vfnmsub_evex.md R208). -/
def execVfnmsub231EvexZmmEr (p : List LegacyPrefix) (k : Masking) (d s2 s3 : BitVec 5) (rc : RoundMode) (s : State) : Result :=
  execEr .f231 p k d s2 s3 rc s

end Sys2Proof.Machine
end

