-- ==== Sys2Proof/Machine/VexForms.lean ====
section
/-! DEFINITION. The meanings of the six VEX-encoded instructions, rows 1 to 6 (41_vfnmsub_vex.md R176 to R181). -/

namespace Sys2Proof.Machine

/-- Row 1, VFNMSUB132PS xmm1, xmm2, xmm3/m128 (41_vfnmsub_vex.md R176). -/
def execVfnmsub132VexXmm (p : List LegacyPrefix) (d s2 : BitVec 4) (o : VexOp3) (s : State) : Result :=
  execVex .f132 4 p d s2 o s

/-- Row 2, VFNMSUB213PS xmm1, xmm2, xmm3/m128 (41_vfnmsub_vex.md R177). -/
def execVfnmsub213VexXmm (p : List LegacyPrefix) (d s2 : BitVec 4) (o : VexOp3) (s : State) : Result :=
  execVex .f213 4 p d s2 o s

/-- Row 3, VFNMSUB231PS xmm1, xmm2, xmm3/m128 (41_vfnmsub_vex.md R178). -/
def execVfnmsub231VexXmm (p : List LegacyPrefix) (d s2 : BitVec 4) (o : VexOp3) (s : State) : Result :=
  execVex .f231 4 p d s2 o s

/-- Row 4, VFNMSUB132PS ymm1, ymm2, ymm3/m256 (41_vfnmsub_vex.md R179). -/
def execVfnmsub132VexYmm (p : List LegacyPrefix) (d s2 : BitVec 4) (o : VexOp3) (s : State) : Result :=
  execVex .f132 8 p d s2 o s

/-- Row 5, VFNMSUB213PS ymm1, ymm2, ymm3/m256 (41_vfnmsub_vex.md R180). -/
def execVfnmsub213VexYmm (p : List LegacyPrefix) (d s2 : BitVec 4) (o : VexOp3) (s : State) : Result :=
  execVex .f213 8 p d s2 o s

/-- Row 6, VFNMSUB231PS ymm1, ymm2, ymm3/m256 (41_vfnmsub_vex.md R181). -/
def execVfnmsub231VexYmm (p : List LegacyPrefix) (d s2 : BitVec 4) (o : VexOp3) (s : State) : Result :=
  execVex .f231 8 p d s2 o s

end Sys2Proof.Machine
end

