-- ==== Sys2Proof/Machine/Dispatch.lean ====
section
/-! DEFINITION. The dispatch: one arm per constructor of `Instr`, each one call of its meaning. -/

namespace Sys2Proof.Machine

def exec (i : Instr) (s : State) : Host.Outcome State Fault Refusal :=
  match i with
  | .vfnmsub132VexXmm p d s2 o => Sys2Proof.Machine.execVfnmsub132VexXmm p d s2 o s
  | .vfnmsub213VexXmm p d s2 o => Sys2Proof.Machine.execVfnmsub213VexXmm p d s2 o s
  | .vfnmsub231VexXmm p d s2 o => Sys2Proof.Machine.execVfnmsub231VexXmm p d s2 o s
  | .vfnmsub132VexYmm p d s2 o => Sys2Proof.Machine.execVfnmsub132VexYmm p d s2 o s
  | .vfnmsub213VexYmm p d s2 o => Sys2Proof.Machine.execVfnmsub213VexYmm p d s2 o s
  | .vfnmsub231VexYmm p d s2 o => Sys2Proof.Machine.execVfnmsub231VexYmm p d s2 o s
  | .vfnmsub132EvexXmm p k d s2 o => Sys2Proof.Machine.execVfnmsub132EvexXmm p k d s2 o s
  | .vfnmsub213EvexXmm p k d s2 o => Sys2Proof.Machine.execVfnmsub213EvexXmm p k d s2 o s
  | .vfnmsub231EvexXmm p k d s2 o => Sys2Proof.Machine.execVfnmsub231EvexXmm p k d s2 o s
  | .vfnmsub132EvexYmm p k d s2 o => Sys2Proof.Machine.execVfnmsub132EvexYmm p k d s2 o s
  | .vfnmsub213EvexYmm p k d s2 o => Sys2Proof.Machine.execVfnmsub213EvexYmm p k d s2 o s
  | .vfnmsub231EvexYmm p k d s2 o => Sys2Proof.Machine.execVfnmsub231EvexYmm p k d s2 o s
  | .vfnmsub132EvexZmm p k d s2 o => Sys2Proof.Machine.execVfnmsub132EvexZmm p k d s2 o s
  | .vfnmsub213EvexZmm p k d s2 o => Sys2Proof.Machine.execVfnmsub213EvexZmm p k d s2 o s
  | .vfnmsub231EvexZmm p k d s2 o => Sys2Proof.Machine.execVfnmsub231EvexZmm p k d s2 o s
  | .vfnmsub132EvexZmmEr p k d s2 s3 rc => Sys2Proof.Machine.execVfnmsub132EvexZmmEr p k d s2 s3 rc s
  | .vfnmsub213EvexZmmEr p k d s2 s3 rc => Sys2Proof.Machine.execVfnmsub213EvexZmmEr p k d s2 s3 rc s
  | .vfnmsub231EvexZmmEr p k d s2 s3 rc => Sys2Proof.Machine.execVfnmsub231EvexZmmEr p k d s2 s3 rc s

end Sys2Proof.Machine
end

