-- ==== Sys2Proof/Machine/Fetch.lean ====
section
/-! DEFINITION. Fetching and decoding the instruction at `rip`, and placing an instruction where the next step fetches it. -/

namespace Sys2Proof.Machine

/-- What the fetch of an instruction gives: an instruction to execute, or the outcome of the step. -/
inductive Fetched where
  | run (i : Instr)
  | stop (r : Result)

/-- How many bytes the fetch may read: no bound on an instruction. A legacy prefix is no `unlistedByte`, so memory lists every
byte of a run of them, and at most 10 bytes follow that still want more (`fetchLimit_suffices` of Laws/Fetch.lean; log 12). -/
def fetchLimit (s : State) : Nat := s.mem.length + maxLength

/-- The instruction at `rip` (30_encoding.md R109, 60_exceptions.md R231 steps 1 to 3). Bytes that fit so far and need more end in
the exception of the byte that did not come (step 1); a whole instruction longer than 15 bytes raises #GP(0) before any #UD
condition (step 2, R230), here for a reserved encoding and in `guarded` for an instruction. The last arm is never reached
(`fetchLimit_suffices`). -/
def fetchInstr (s : State) : Fetched :=
  if modeRefused s then .stop (.refused .modeOutOfScope)
  else
    match decode (fetchBytes s (fetchLimit s) (fetchAddress s)).1 with
    | .instr i _ => .run i
    | .undefined rest =>
      .stop (raise (if rest.length + maxLength < (fetchBytes s (fetchLimit s) (fetchAddress s)).1.length then .gp else .ud) s)
    | .notInScope why => .stop (.refused (.notInScope why))
    | .needMore =>
      match (fetchBytes s (fetchLimit s) (fetchAddress s)).2 with
      | some t => .stop (t.result s)
      | none => .stop (raise .gp s)

/-- The launch premises P_mode, P_os and P_ts of 70_reset_and_hazards.md R263 established, by what system software does
before a program of these instructions runs (R262 steps 1, 3, 4, 6). A state that meets them is left as it is. -/
def launched (s : State) : State :=
  { s with
    mode := .mode64
    cr0 := s.cr0 &&& ~~~0x8
    cr4 := s.cr4 ||| 0x40000
    xcr0 := s.xcr0 ||| 0xE7 }

/-- `Translate` answers memory for a fetch of `n` bytes upward from an address. -/
def fetchable (t : Config.Translate) (n : Nat) (a : Addr) : Bool :=
  match n with
  | 0 => true
  | n + 1 => decide (translate t .fetch a = .memory) && fetchable t n (a + 1)

/-- `Translate` with the 15 bytes at an address mapped, if they were not. -/
def mapForFetch (t : Config.Translate) (a : Addr) : Config.Translate :=
  if fetchable t maxLength a then t else { t with regions := ⟨a, maxLength, .memory, .memory⟩ :: t.regions }

/-- The bytes of an instruction placed where the next fetch reads them, and mapped there. -/
def placeAtFetch (s : State) (bs : List Byte) : State :=
  { s with
    xlat := mapForFetch s.xlat (fetchAddress s)
    mem := s.mem.writeBytes (fetchAddress s) bs }

end Sys2Proof.Machine
end

