-- ==== Sys2Proof/Machine/Step.lean ====
section
/-! DEFINITION. One step of the machine (00_scope.md R14), and the placing of one instruction where it fetches. -/

namespace Sys2Proof.Machine

/-- One step: fetch and decode the instruction at `rip`, then execute it. -/
def step (s : State) : Host.Outcome State Fault Refusal :=
  match fetchInstr s with
  | .run i => exec i s
  | .stop r => r

/-- The state with the instruction whose first `nbits` bits are `w` where the next step fetches, the launch premises
established. At reset no instruction in scope can execute (70_reset_and_hazards.md R261) and a program is launched from
outside (10_state.md R39): this stands for that launch (log 9). In a state that meets the premises only memory, and
`Translate` where it would not let the bytes be fetched, change. -/
def State.withFetchWord (s : State) (nbits w : Nat) : State := placeAtFetch (launched s) (tableBytes nbits w)

end Sys2Proof.Machine
end

