-- ==== Sys2Proof/Safety.lean ====
section
/-! DEFINITION. The terms in which claims are made: the launch premises of 70_reset_and_hazards.md R263, the invariant that
every step keeps, what an instruction leaves unchanged, and how a run of a program text ends (R270). -/

namespace Sys2Proof.Safety

open Sys2Proof.Machine

/-! ## The instruction's lanes -/

/-- `KL` of an instruction (41_vfnmsub_vex.md R172, 42_vfnmsub_evex.md R190). -/
def lanesOf : Instr → Nat
  | .vfnmsub132VexXmm _ _ _ _ => 4
  | .vfnmsub213VexXmm _ _ _ _ => 4
  | .vfnmsub231VexXmm _ _ _ _ => 4
  | .vfnmsub132VexYmm _ _ _ _ => 8
  | .vfnmsub213VexYmm _ _ _ _ => 8
  | .vfnmsub231VexYmm _ _ _ _ => 8
  | .vfnmsub132EvexXmm _ _ _ _ _ => 4
  | .vfnmsub213EvexXmm _ _ _ _ _ => 4
  | .vfnmsub231EvexXmm _ _ _ _ _ => 4
  | .vfnmsub132EvexYmm _ _ _ _ _ => 8
  | .vfnmsub213EvexYmm _ _ _ _ _ => 8
  | .vfnmsub231EvexYmm _ _ _ _ _ => 8
  | .vfnmsub132EvexZmm _ _ _ _ _ => 16
  | .vfnmsub213EvexZmm _ _ _ _ _ => 16
  | .vfnmsub231EvexZmm _ _ _ _ _ => 16
  | .vfnmsub132EvexZmmEr _ _ _ _ _ _ => 16
  | .vfnmsub213EvexZmmEr _ _ _ _ _ _ => 16
  | .vfnmsub231EvexZmmEr _ _ _ _ _ _ => 16

/-- Lane `j` is active under a write mask (42_vfnmsub_evex.md R191). -/
def active (s : State) (k : Masking) (j : Nat) : Bool := decide (k.aaa = 0) || (s.getK k.aaa).getLsbD j

/-! ## Fixed fields of the encodings -/

/-- The fixed fields of a VEX form after the byte C4H (30_encoding.md R84): map, W, pp, opcode byte. -/
def vexMatches (b1 b2 op : Byte) : Prop :=
  b1.extractLsb' 0 5 = 2 ∧ b2.extractLsb' 7 1 = 0 ∧ b2.extractLsb' 0 2 = 1 ∧ (op = 0x9E ∨ op = 0xAE ∨ op = 0xBE)

/-- The fixed fields of an EVEX form after the byte 62H, but for the reserved bits (30_encoding.md R87, R111): map, W, pp,
opcode byte. -/
def evexMatches (p0 p1 op : Byte) : Prop :=
  p0.extractLsb' 0 2 = 2 ∧ p1.extractLsb' 7 1 = 0 ∧ p1.extractLsb' 0 2 = 1 ∧ (op = 0x9E ∨ op = 0xAE ∨ op = 0xBE)

/-- The reserved bits P0[3:2] and P1[2] have the values 00b and 1 (30_encoding.md R86, R111). -/
def evexReservedKept (p0 p1 : Byte) : Prop := p0.extractLsb' 2 2 = 0 ∧ p1.extractLsb' 2 1 = 1

/-! ## Launch premises (70_reset_and_hazards.md R263) -/

/-- P_mode. -/
def pMode (s : State) : Prop := s.mode = .mode64

/-- P_ts. -/
def pTs (s : State) : Prop := crTs s = false

/-- P_os for the VEX forms. -/
def pOsVex (s : State) : Prop := crOsxsave s = true ∧ xcrAvx s = true

/-- P_os for the EVEX forms. -/
def pOsEvex (s : State) : Prop := crOsxsave s = true ∧ xcrAvx s = true ∧ xcrAvx512 s = true

/-- P_cpuid for an EVEX form of `kl` lanes: AVX512F, and AVX512VL below 512 bits (60_exceptions.md R225). -/
def pCpuidEvex (s : State) (kl : Nat) : Prop := s.feat.avx512f = true ∧ (kl < 16 → s.feat.avx512vl = true)

/-- P_xmm. -/
def pXmm (s : State) : Prop := crOsxmmexcpt s = true

/-- P_ac. -/
def pAc (s : State) : Prop := alignmentChecking s = false

/-- P_mxcsr. -/
def pMxcsr (s : State) : Prop := s.mxcsr.extractLsb' 16 16 = 0

/-- P_masked: all six SIMD exceptions masked. -/
def pMasked (s : State) : Prop := mxMasks s.mxcsr = 0x3F

/-- The premises under which a VEX form reads its operands: P_mode, P_cpuid, P_os, P_ts. -/
def vexEnabled (s : State) : Prop := pMode s ∧ s.feat.fma = true ∧ pOsVex s ∧ pTs s

/-- The premises under which an EVEX form of `kl` lanes reads its operands: P_mode, P_cpuid, P_os, P_ts. -/
def evexEnabled (s : State) (kl : Nat) : Prop := pMode s ∧ pCpuidEvex s kl ∧ pOsEvex s ∧ pTs s

/-- A byte at a linear address can be accessed: canonical, mapped, in ordinary memory (20_memory.md R58, R61). -/
def accessible (s : State) (kind : Config.AccessKind) (a : Addr) : Prop :=
  canonical s.xlat.la57 a = true ∧ Machine.translate s.xlat kind a = .memory

/-- P_text for a text of `n` bytes from `rip0`: mapped and fetchable. That no byte of it changes during a run is a property of
the machine: no step writes memory (20_memory.md R57, R66). -/
def pText (s : State) (rip0 : Addr) (n : Nat) : Prop := ∀ i < n, accessible s .fetch (rip0 + BitVec.ofNat 64 i)

/-- The memory bytes a VEX form of `kl` lanes reads as operand 3 (20_memory.md R59). -/
def vexOperandBytes (s : State) (p : List LegacyPrefix) (kl : Nat) (o : VexOp3) : List Addr :=
  match o with
  | .reg _ => []
  | .mem m => (List.range (4 * kl)).map fun i => linearAddress s p (vexLength p o) 1 m + BitVec.ofNat 64 i

/-- The memory bytes an EVEX form of `kl` lanes reads as operand 3: those of active lanes, or the four of a broadcast datum if
some lane is active (20_memory.md R59). -/
def evexOperandBytes (s : State) (p : List LegacyPrefix) (k : Masking) (kl : Nat) (o : EvexOp3) : List Addr :=
  match o with
  | .reg _ => []
  | .mem m =>
    ((List.range (4 * kl)).filter fun i => active s k (i / 4)).map fun i =>
      linearAddress s p (evexLength p o) (4 * kl) m + BitVec.ofNat 64 i
  | .bcst m =>
    if (List.range kl).any fun j => active s k j then
      (List.range 4).map fun i => linearAddress s p (evexLength p o) 4 m + BitVec.ofNat 64 i
    else []

/-- The memory bytes an instruction reads as operand 3. -/
def operandBytes (s : State) : Instr → List Addr
  | .vfnmsub132VexXmm p _ _ o => vexOperandBytes s p 4 o
  | .vfnmsub213VexXmm p _ _ o => vexOperandBytes s p 4 o
  | .vfnmsub231VexXmm p _ _ o => vexOperandBytes s p 4 o
  | .vfnmsub132VexYmm p _ _ o => vexOperandBytes s p 8 o
  | .vfnmsub213VexYmm p _ _ o => vexOperandBytes s p 8 o
  | .vfnmsub231VexYmm p _ _ o => vexOperandBytes s p 8 o
  | .vfnmsub132EvexXmm p k _ _ o => evexOperandBytes s p k 4 o
  | .vfnmsub213EvexXmm p k _ _ o => evexOperandBytes s p k 4 o
  | .vfnmsub231EvexXmm p k _ _ o => evexOperandBytes s p k 4 o
  | .vfnmsub132EvexYmm p k _ _ o => evexOperandBytes s p k 8 o
  | .vfnmsub213EvexYmm p k _ _ o => evexOperandBytes s p k 8 o
  | .vfnmsub231EvexYmm p k _ _ o => evexOperandBytes s p k 8 o
  | .vfnmsub132EvexZmm p k _ _ o => evexOperandBytes s p k 16 o
  | .vfnmsub213EvexZmm p k _ _ o => evexOperandBytes s p k 16 o
  | .vfnmsub231EvexZmm p k _ _ o => evexOperandBytes s p k 16 o
  | .vfnmsub132EvexZmmEr _ _ _ _ _ _ => []
  | .vfnmsub213EvexZmmEr _ _ _ _ _ _ => []
  | .vfnmsub231EvexZmmEr _ _ _ _ _ _ => []

/-- P_mem for an instruction: every operand byte it reads is mapped and readable at a canonical address in ordinary
memory. -/
def pMem (s : State) (i : Instr) : Prop := ∀ a ∈ operandBytes s i, accessible s .read a

/-- The instruction has a VEX encoding (rows 1 to 6). -/
def isVex : Instr → Bool
  | .vfnmsub132VexXmm _ _ _ _ => true
  | .vfnmsub213VexXmm _ _ _ _ => true
  | .vfnmsub231VexXmm _ _ _ _ => true
  | .vfnmsub132VexYmm _ _ _ _ => true
  | .vfnmsub213VexYmm _ _ _ _ => true
  | .vfnmsub231VexYmm _ _ _ _ => true
  | .vfnmsub132EvexXmm _ _ _ _ _ => false
  | .vfnmsub213EvexXmm _ _ _ _ _ => false
  | .vfnmsub231EvexXmm _ _ _ _ _ => false
  | .vfnmsub132EvexYmm _ _ _ _ _ => false
  | .vfnmsub213EvexYmm _ _ _ _ _ => false
  | .vfnmsub231EvexYmm _ _ _ _ _ => false
  | .vfnmsub132EvexZmm _ _ _ _ _ => false
  | .vfnmsub213EvexZmm _ _ _ _ _ => false
  | .vfnmsub231EvexZmm _ _ _ _ _ => false
  | .vfnmsub132EvexZmmEr _ _ _ _ _ _ => false
  | .vfnmsub213EvexZmmEr _ _ _ _ _ _ => false
  | .vfnmsub231EvexZmmEr _ _ _ _ _ _ => false

/-- P_mode, P_cpuid, P_os and P_ts for an instruction. -/
def enabled (s : State) (i : Instr) : Prop := if isVex i then vexEnabled s else evexEnabled s (lanesOf i)

/-! ## The invariant -/

/-- The vector file holds nothing outside NVREG registers of MAXVL bits (10_state.md R20). -/
def vectorFileFits (s : State) : Prop :=
  ∀ r : BitVec 5, (s.getZmm r).toNat < 2 ^ s.feat.maxvl ∧ (s.feat.nvreg ≤ r.toNat → s.getZmm r = 0)

/-- The opmask file holds nothing outside KWIDTH bits (10_state.md R25). -/
def opmaskFileFits (s : State) : Prop := ∀ r : BitVec 3, (s.getK r).toNat < 2 ^ s.feat.kwidth

/-- What holds of every state the machine can be in: memory in canonical form, MXCSR[31:16] = 0 (10_state.md R27, premise
P_mxcsr), the register files as wide and as many as the processor has (10_state.md R20, R25). -/
def Inv (s : State) : Prop :=
  s.mem.wf = true ∧ pMxcsr s ∧ vectorFileFits s ∧ opmaskFileFits s

/-! ## What stays -/

/-- Everything but vector register `d`, the flags `mxcsr[5:0]` except ZE, and `rip` is as before (00_scope.md R14,
41_vfnmsub_vex.md R174, 42_vfnmsub_evex.md R197). -/
structure OnlyDestination (d : BitVec 5) (s t : State) : Prop where
  zmm : ∀ r : BitVec 5, r ≠ d → t.getZmm r = s.getZmm r
  mxcsrControl : t.mxcsr.extractLsb' 6 26 = s.mxcsr.extractLsb' 6 26
  mxcsrZe : t.mxcsr.getLsbD 2 = s.mxcsr.getLsbD 2
  mxcsrSticky : ∀ j, s.mxcsr.getLsbD j = true → t.mxcsr.getLsbD j = true
  k : t.k = s.k
  gpr : t.gpr = s.gpr
  rflags : t.rflags = s.rflags
  cr0 : t.cr0 = s.cr0
  cr4 : t.cr4 = s.cr4
  xcr0 : t.xcr0 = s.xcr0
  mode : t.mode = s.mode
  cs : t.cs = s.cs
  csBase : t.csBase = s.csBase
  fsBase : t.fsBase = s.fsBase
  gsBase : t.gsBase = s.gsBase
  other : t.other = s.other
  feat : t.feat = s.feat
  xlat : t.xlat = s.xlat
  memory : ∀ a : Addr, t.mem.read a.toNat = s.mem.read a.toNat

/-! ## What an instruction does -/

/-- The six VEX forms with the same operands, each with its number of lanes. -/
def vexForms (p : List LegacyPrefix) (d s2 : BitVec 4) (o : VexOp3) : List (Nat × Instr) :=
  [(4, .vfnmsub132VexXmm p d s2 o), (4, .vfnmsub213VexXmm p d s2 o), (4, .vfnmsub231VexXmm p d s2 o),
   (8, .vfnmsub132VexYmm p d s2 o), (8, .vfnmsub213VexYmm p d s2 o), (8, .vfnmsub231VexYmm p d s2 o)]

/-- The nine EVEX forms without embedded rounding with the same operands, each with its number of lanes. -/
def evexForms (p : List LegacyPrefix) (k : Masking) (d s2 : BitVec 5) (o : EvexOp3) : List (Nat × Instr) :=
  [(4, .vfnmsub132EvexXmm p k d s2 o), (4, .vfnmsub213EvexXmm p k d s2 o), (4, .vfnmsub231EvexXmm p k d s2 o),
   (8, .vfnmsub132EvexYmm p k d s2 o), (8, .vfnmsub213EvexYmm p k d s2 o), (8, .vfnmsub231EvexYmm p k d s2 o),
   (16, .vfnmsub132EvexZmm p k d s2 o), (16, .vfnmsub213EvexZmm p k d s2 o), (16, .vfnmsub231EvexZmm p k d s2 o)]

/-- The three embedded-rounding forms with the same operands. -/
def erForms (p : List LegacyPrefix) (k : Masking) (d s2 s3 : BitVec 5) (rc : RoundMode) : List Instr :=
  [.vfnmsub132EvexZmmEr p k d s2 s3 rc, .vfnmsub213EvexZmmEr p k d s2 s3 rc, .vfnmsub231EvexZmmEr p k d s2 s3 rc]

/-- The effect of an instruction of `kl` lanes on the registers: `out j` is what lane `j` computes, `act j` says whether it
is computed, `z` whether a lane that is not becomes zero (42_vfnmsub_evex.md R190 to R192, R196; 41_vfnmsub_vex.md R170,
R173). -/
structure PackedEffect (kl : Nat) (act : Nat → Bool) (z : Bool) (out : Nat → LaneResult) (d : BitVec 5) (len : Nat)
    (s t : State) : Prop where
  computed : ∀ j < kl, act j = true → (out j).r = some (lane (t.getZmm d) j)
  kept : ∀ j < kl, act j = false → z = false → lane (t.getZmm d) j = lane (s.getZmm d) j
  zeroed : ∀ j < kl, act j = false → z = true → lane (t.getZmm d) j = 0
  above : ∀ j, kl ≤ j → j < 16 → lane (t.getZmm d) j = 0
  rip : t.rip = s.rip + BitVec.ofNat 64 len
  frame : OnlyDestination d s t

/-- MXCSR after the instruction: every bit as before, OR-ed with the flags of the computed lanes (10_state.md R29). -/
def FlagsAccumulated (kl : Nat) (act : Nat → Bool) (out : Nat → LaneResult) (s t : State) : Prop :=
  ∀ i, t.mxcsr.getLsbD i = true ↔
    (s.mxcsr.getLsbD i = true ∨ ∃ j < kl, act j = true ∧ (out j).fl.getLsbD i = true)

/-- No computed lane signals a flag whose mask bit is 0 (60_exceptions.md R222). -/
def NoUnmasked (kl : Nat) (act : Nat → Bool) (out : Nat → LaneResult) (s : State) : Prop :=
  ∀ j < kl, act j = true → (out j).fl &&& ~~~(mxMasks s.mxcsr) = 0

/-- What a read or a fetch that stops with `r` makes of the step at `s`: #SS(0), #GP(0), #PF with its code and address, the
state as it was, or a refusal (60_exceptions.md R220 vectors 12 to 14, R227, R238). -/
def stopOutcome (r : Stop) (s : State) (out : Result) : Prop :=
  (r = .exc .ss ∧ out = .fault (.stackSegment 0 s)) ∨
  (r = .exc .gp ∧ out = .fault (.generalProtection 0 s)) ∨
  (∃ (code : BitVec 32) (a : Addr), r = .exc (.pf code a) ∧ out = .fault (.pageFault code a s)) ∨
  ∃ why : Refusal, r = .refuse why ∧ out = .refused why

/-- The same exception, with the same error code and address, leaving the state `t`. -/
def withState (f : Fault) (t : State) : Fault :=
  match f with
  | .invalidOpcode _ => .invalidOpcode t
  | .deviceNotAvailable _ => .deviceNotAvailable t
  | .stackSegment code _ => .stackSegment code t
  | .generalProtection code _ => .generalProtection code t
  | .pageFault code a _ => .pageFault code a t
  | .simdFloatingPoint _ => .simdFloatingPoint t

/-! ## Exact values -/

/-- `-(x*y) - z` of operands after DAZ, in units of 2^-298 (40_fnmsub_lane_arithmetic.md R135, R137). -/
def laneExact (x y z : F32) (c : FpControl) : Int :=
  exactValue (dazOperand c.daz x) (dazOperand c.daz y) (dazOperand c.daz z)

/-- All three operands are finite. -/
def allFinite (x y z : F32) : Prop := isFinite x = true ∧ isFinite y = true ∧ isFinite z = true

/-- Rounding in this mode goes away from zero for a value of this sign, or to nearest. -/
inductive RoundingSide where
  | nearest | away | toward
deriving DecidableEq, Repr

/-- How a mode rounds a value of sign `neg` (40_fnmsub_lane_arithmetic.md R142). -/
def roundingSide (rm : RoundMode) (neg : Bool) : RoundingSide :=
  match rm with
  | .rn => .nearest
  | .rz => .toward
  | .ru => if neg then .toward else .away
  | .rd => if neg then .away else .toward

/-- An exact value overflows: rounded to 24 bits with unbounded exponent its magnitude is 2^128 or more
(40_fnmsub_lane_arithmetic.md R144), said by a bound on the exact magnitude in units of 2^-298. -/
def overflows (rm : RoundMode) (e : Int) : Prop :=
  match roundingSide rm (decide (e < 0)) with
  | .nearest => (2 ^ 128 - 2 ^ 103) * 2 ^ 298 ≤ e.natAbs
  | .away => (2 ^ 128 - 2 ^ 104) * 2 ^ 298 < e.natAbs
  | .toward => 2 ^ 128 * 2 ^ 298 ≤ e.natAbs

/-- A non-zero exact value is tiny: rounded to 24 bits with unbounded exponent its magnitude is below 2^-126
(40_fnmsub_lane_arithmetic.md R143), said by a bound on the exact magnitude in units of 2^-298. -/
def tiny (rm : RoundMode) (e : Int) : Prop :=
  e ≠ 0 ∧
    match roundingSide rm (decide (e < 0)) with
    | .nearest => e.natAbs < 2 ^ 172 - 2 ^ 147
    | .away => e.natAbs ≤ 2 ^ 172 - 2 ^ 148
    | .toward => e.natAbs < 2 ^ 172

/-! ## The run of a program text (70_reset_and_hazards.md R270) -/

/-- How a run of at most `n` steps ended. -/
inductive RunEnd where
  /-- `rip` reached the end of the text. -/
  | finished (s : State)
  /-- A step faulted. -/
  | faulted (f : Fault)
  /-- A step was refused. -/
  | refused (r : Refusal)
  /-- `rip` left the text otherwise. -/
  | outside (s : State)
  /-- The steps allowed are used up. -/
  | unfinished (s : State)
deriving DecidableEq, Repr

/-- The run of the text from `rip0` up to `ripEnd` (exclusive), at most `n` steps. -/
def runText (rip0 ripEnd : Addr) (n : Nat) (s : State) : RunEnd :=
  if s.rip = ripEnd then .finished s
  else if s.rip < rip0 || ripEnd < s.rip then .outside s
  else
    match n with
    | 0 => .unfinished s
    | n + 1 =>
      match step s with
      | .next t => runText rip0 ripEnd n t
      | .fault f => .faulted f
      | .refused r => .refused r

end Sys2Proof.Safety
end

