-- ==== Sys2Proof/Certificates/Slice0/Obligations.lean ====
section
/-! DEFINITION. The statements for the provers. Every one is about the model; its docstring names the rule of spec/ it
formalises. -/

open Sys2Proof Sys2Proof.Machine Sys2Proof.Safety

/-! ## Encoding and decoding -/

/-- Decode and encode agree, for every instruction whose memory form ModRM and SIB can say, whatever bytes follow
(30_encoding.md R83, R86, R92, R93, R99 to R101, R104). -/
def Obligations.DecodeEncodeAgree : Prop :=
  ∀ (i : Instr) (rest : List Byte), i.encodable = true → decode (encode i ++ rest) = .instr i rest

/-- What the decoder gives is an encodable instruction, and it took as many bytes as R110 counts. -/
def Obligations.DecodedLengthIsCounted : Prop :=
  ∀ (bs rest : List Byte) (i : Instr), decode bs = .instr i rest →
    i.encodable = true ∧ ∃ used : List Byte, bs = used ++ rest ∧ used.length = i.length

/-- The bytes after an instruction do not matter to its decoding (30_encoding.md R109). -/
def Obligations.DecodingReadsOnlyTheInstruction : Prop :=
  ∀ (bs rest other : List Byte) (i : Instr), decode bs = .instr i rest →
    decode (bs.take i.length ++ other) = .instr i other

/-- The words E1 to E27 of 95_test_vectors.md decode to the instructions that stand beside them there, written from the patterns of
30_encoding.md R84 and R87, and are what the encoder gives; and before a form the bytes 26H, 2EH, 36H, 3EH, 64H, 65H are the
segment overrides ES, CS, SS, DS, FS, GS (R107), 67H the address-size prefix, F0H, 66H, F2H, F3H and 40H to 4FH the prefixes that
are not allowed (R112). -/
def Obligations.SampleWordsDecode : Prop :=
  (∀ e ∈ ([
      ([0xC4, 0xE2, 0x71, 0x9E, 0xC2], .vfnmsub132VexXmm [] 0 1 (.reg 2)),
      ([0xC4, 0xE2, 0x75, 0xAE, 0xC2], .vfnmsub213VexYmm [] 0 1 (.reg 2)),
      ([0xC4, 0x42, 0x09, 0xBE, 0xCF], .vfnmsub231VexXmm [] 9 14 (.reg 15)),
      ([0xC4, 0xE2, 0x5D, 0x9E, 0x18], .vfnmsub132VexYmm [] 3 4 (.mem (.base 0 .none))),
      ([0xC4, 0xE2, 0x71, 0xAE, 0x40, 0x40], .vfnmsub213VexXmm [] 0 1 (.mem (.base 0 (.d8 0x40)))),
      ([0xC4, 0xE2, 0x71, 0x9E, 0x05, 0x10, 0x00, 0x00, 0x00], .vfnmsub132VexXmm [] 0 1 (.mem (.ripRel 0x10))),
      ([0xC4, 0xE2, 0x71, 0x9E, 0x04, 0x25, 0x00, 0x10, 0x00, 0x00],
        .vfnmsub132VexXmm [] 0 1 (.mem (.sibNoBase none 0x1000))),
      ([0xC4, 0xA2, 0x71, 0x9E, 0x04, 0x88], .vfnmsub132VexXmm [] 0 1 (.mem (.sib 0 (some ⟨9, 2⟩) .none))),
      ([0xC4, 0xC2, 0x71, 0x9E, 0x45, 0x00], .vfnmsub132VexXmm [] 0 1 (.mem (.base 13 (.d8 0)))),
      ([0xC4, 0xC2, 0x71, 0x9E, 0x04, 0x24], .vfnmsub132VexXmm [] 0 1 (.mem (.sib 12 none .none))),
      ([0x64, 0xC4, 0xE2, 0x71, 0x9E, 0x00], .vfnmsub132VexXmm [.seg .fs] 0 1 (.mem (.base 0 .none))),
      ([0x67, 0xC4, 0xE2, 0x71, 0x9E, 0x00], .vfnmsub132VexXmm [.addr32] 0 1 (.mem (.base 0 .none))),
      ([0x62, 0xF2, 0x75, 0x08, 0x9E, 0xC2], .vfnmsub132EvexXmm [] ⟨0, false⟩ 0 1 (.reg 2)),
      ([0x62, 0xF2, 0x75, 0x29, 0xAE, 0xC2], .vfnmsub213EvexYmm [] ⟨1, false⟩ 0 1 (.reg 2)),
      ([0x62, 0xF2, 0x75, 0xC9, 0xBE, 0xC2], .vfnmsub231EvexZmm [] ⟨1, true⟩ 0 1 (.reg 2)),
      ([0x62, 0xA2, 0x75, 0x40, 0x9E, 0xC2], .vfnmsub132EvexZmm [] ⟨0, false⟩ 16 17 (.reg 18)),
      ([0x62, 0x02, 0x0D, 0x47, 0x9E, 0xFD], .vfnmsub132EvexZmm [] ⟨7, false⟩ 31 30 (.reg 29)),
      ([0x62, 0xF2, 0x75, 0x48, 0x9E, 0x40, 0x01], .vfnmsub132EvexZmm [] ⟨0, false⟩ 0 1 (.mem (.base 0 (.d8 1)))),
      ([0x62, 0xF2, 0x75, 0x58, 0x9E, 0x40, 0x01], .vfnmsub132EvexZmm [] ⟨0, false⟩ 0 1 (.bcst (.base 0 (.d8 1)))),
      ([0x62, 0xF2, 0x75, 0x28, 0xAE, 0x40, 0x01], .vfnmsub213EvexYmm [] ⟨0, false⟩ 0 1 (.mem (.base 0 (.d8 1)))),
      ([0x62, 0xF2, 0x75, 0x3A, 0xAE, 0x40, 0x08], .vfnmsub213EvexYmm [] ⟨2, false⟩ 0 1 (.bcst (.base 0 (.d8 8)))),
      ([0x62, 0xF2, 0x5D, 0x1A, 0xAE, 0x18], .vfnmsub213EvexXmm [] ⟨2, false⟩ 3 4 (.bcst (.base 0 .none))),
      ([0x62, 0xF2, 0x75, 0x18, 0x9E, 0xC2], .vfnmsub132EvexZmmEr [] ⟨0, false⟩ 0 1 2 .rn),
      ([0x62, 0xF2, 0x75, 0x38, 0xAE, 0xC2], .vfnmsub213EvexZmmEr [] ⟨0, false⟩ 0 1 2 .rd),
      ([0x62, 0xF2, 0x75, 0x58, 0xBE, 0xC2], .vfnmsub231EvexZmmEr [] ⟨0, false⟩ 0 1 2 .ru),
      ([0x62, 0xF2, 0x75, 0x78, 0xAE, 0xC2], .vfnmsub213EvexZmmEr [] ⟨0, false⟩ 0 1 2 .rz),
      ([0x62, 0xF2, 0x75, 0xF9, 0x9E, 0xC2], .vfnmsub132EvexZmmEr [] ⟨1, true⟩ 0 1 2 .rz)] : List (List Byte × Instr)),
    decode e.1 = .instr e.2 [] ∧ encode e.2 = e.1) ∧
  (∀ e ∈ ([(0x26, .seg .es), (0x2E, .seg .cs), (0x36, .seg .ss), (0x3E, .seg .ds), (0x64, .seg .fs), (0x65, .seg .gs),
      (0x67, .addr32), (0xF0, .lock), (0x66, .opsize), (0xF2, .repne), (0xF3, .rep)] : List (Byte × LegacyPrefix)),
    e.2.byte = e.1 ∧ decode [e.1, 0xC4, 0xE2, 0x71, 0x9E, 0xC2] = .instr (.vfnmsub132VexXmm [e.2] 0 1 (.reg 2)) []) ∧
  ∀ low : BitVec 4, (LegacyPrefix.rex low).byte = 0x40 ||| low.setWidth 8 ∧
    decode [0x40 ||| low.setWidth 8, 0xC4, 0xE2, 0x71, 0x9E, 0xC2] = .instr (.vfnmsub132VexXmm [.rex low] 0 1 (.reg 2)) []

/-- Bytes are an instruction in scope, or a reserved encoding of one, only if every fixed field matches: legacy prefixes, C4H with
map, W, pp and opcode byte of 30_encoding.md R84, or 62H with those of R87 (R109, R113), the reserved bits too for an
instruction (R111). Another first byte, the two-byte VEX prefix C5H among them (R85), and any other value of a field are
refused by name; W = 1 is refused (R98) whatever the fields after it hold, an order among the reasons that the spec does not
give (log 17). -/
def Obligations.OtherInstructionsAreRefused : Prop :=
  (∀ (bs rest : List Byte) (i : Instr), decode bs = .instr i rest →
    ∃ (p : List LegacyPrefix) (more : List Byte),
      (∃ b1 b2 op, bs = p.map LegacyPrefix.byte ++ 0xC4 :: b1 :: b2 :: op :: more ∧ vexMatches b1 b2 op) ∨
      (∃ p0 p1 p2 op, bs = p.map LegacyPrefix.byte ++ 0x62 :: p0 :: p1 :: p2 :: op :: more ∧ evexMatches p0 p1 op ∧
        evexReservedKept p0 p1)) ∧
  (∀ bs rest : List Byte, decode bs = .undefined rest →
    ∃ (p : List LegacyPrefix) (p0 p1 p2 op : Byte) (more : List Byte),
      bs = p.map LegacyPrefix.byte ++ 0x62 :: p0 :: p1 :: p2 :: op :: more ∧ evexMatches p0 p1 op) ∧
  (∀ (p : List LegacyPrefix) (b : Byte) (rest : List Byte), legacyOf b = none → b ≠ 0xC4 → b ≠ 0x62 →
    decode (p.map LegacyPrefix.byte ++ b :: rest) = .notInScope .notVexOrEvex) ∧
  legacyOf 0xC5 = none ∧
  (∀ (p : List LegacyPrefix) (b1 b2 op : Byte) (rest : List Byte), ¬vexMatches b1 b2 op →
    ∃ why, decode (p.map LegacyPrefix.byte ++ 0xC4 :: b1 :: b2 :: op :: rest) = .notInScope why) ∧
  (∀ (p : List LegacyPrefix) (p0 p1 p2 op : Byte) (rest : List Byte), ¬evexMatches p0 p1 op →
    ∃ why, decode (p.map LegacyPrefix.byte ++ 0x62 :: p0 :: p1 :: p2 :: op :: rest) = .notInScope why) ∧
  ∀ (p : List LegacyPrefix) (b1 b2 : Byte) (rest : List Byte),
    (b1.extractLsb' 0 5 = 2 → b2.extractLsb' 7 1 = 1 →
      decode (p.map LegacyPrefix.byte ++ 0xC4 :: b1 :: b2 :: rest) = .notInScope .wBit) ∧
    (b1.extractLsb' 0 2 = 2 → b2.extractLsb' 7 1 = 1 →
      decode (p.map LegacyPrefix.byte ++ 0x62 :: b1 :: b2 :: rest) = .notInScope .wBit)

/-- An EVEX prefix that matches in its other fixed fields and has P0[3:2] not 00b, or P1[2] = 0, or L'L = 11b outside embedded
rounding, is no instruction and no refusal: the decoder answers `undefined` once operand 3 is all there (a register, or a
memory form with its SIB byte and displacement), and wants more bytes exactly while it is not (30_encoding.md R111). -/
def Obligations.ReservedEvexIsUndefined : Prop :=
  ∀ (p : List LegacyPrefix) (p0 p1 p2 op m : Byte) (rest : List Byte),
    evexMatches p0 p1 op →
    (¬evexReservedKept p0 p1 ∨ (p2.extractLsb' 5 2 = 3 ∧ ¬(p2.extractLsb' 4 1 = 1 ∧ m.extractLsb' 6 2 = 3))) →
    let operand := decodeMem (m.extractLsb' 6 2) (m.extractLsb' 0 3) (~~~(p0.extractLsb' 6 1)) (~~~(p0.extractLsb' 5 1)) rest
    let answer := decode (p.map LegacyPrefix.byte ++ 0x62 :: p0 :: p1 :: p2 :: op :: m :: rest)
    (m.extractLsb' 6 2 = 3 → answer = .undefined rest) ∧
    (∀ (a : MemForm) (rest' : List Byte), m.extractLsb' 6 2 ≠ 3 → operand = some (a, rest') → answer = .undefined rest') ∧
    (m.extractLsb' 6 2 ≠ 3 → operand = none → answer = .needMore)

/-! ## The step -/

/-- A step runs the decoded instruction: in 64-bit mode, when the bytes fetched at `rip` decode to `i`, the step is `exec i`; when
they are undefined it is #UD, or #GP(0) when they are more than 15 bytes; when they are not in scope a refusal; and when they
want more, the byte that did not come decides (30_encoding.md R109, R111, R113, 60_exceptions.md R230, R231). That the last two
hold past the fifteenth byte is log 12, that bytes are refused although a later byte cannot be fetched is log 17: both are the
model's reading. -/
def Obligations.StepRunsTheDecodedInstruction : Prop :=
  ∀ s : State, pMode s →
    let bytes := (fetchBytes s (fetchLimit s) s.rip).1
    (∀ (i : Instr) (rest : List Byte), decode bytes = .instr i rest → step s = exec i s) ∧
    (∀ rest : List Byte, decode bytes = .undefined rest →
      (bytes.length - rest.length ≤ 15 → step s = .fault (.invalidOpcode s)) ∧
      (15 < bytes.length - rest.length → step s = .fault (.generalProtection 0 s))) ∧
    (∀ why : Reject, decode bytes = .notInScope why → step s = .refused (.notInScope why)) ∧
    (decode bytes = .needMore → ∃ q, (fetchBytes s (fetchLimit s) s.rip).2 = some q ∧ stopOutcome q s (step s))

/-- An instruction whose bytes lie fetchable at `rip` is the one the step executes, of any length and even when the byte after it
cannot be fetched (10_state.md R32, 70_reset_and_hazards.md R263 P_text, 92_eei_decisions.md D12). -/
def Obligations.StepExecutesTheBytesAtRip : Prop :=
  ∀ (s : State) (i : Instr), pMode s → i.encodable = true → pText s s.rip i.length →
    (∀ n < i.length, s.mem.read (s.rip + BitVec.ofNat 64 n).toNat = (encode i).getD n 0) →
    step s = exec i s

/-- The fetch stops at the first byte that does not come, if the bytes before it want more, however many they are: #GP(0) at an
address that is not canonical, #PF with the code of R228 and the byte's address where paging refuses the fetch
(60_exceptions.md R227, R228, R231 step 1, 92_eei_decisions.md D12), a refusal where reads have side effects (log 15); before
the #GP(0) of an instruction longer than 15 bytes (R231 step 2; that this holds past the fifteenth byte is log 12; that bytes which wrap past 2^64 are taken in the order of the instruction
is log 38). -/
def Obligations.FetchStopsAtTheFirstFailingByte : Prop :=
  ∀ (s : State) (bs : List Byte), pMode s →
    (∀ n < bs.length, accessByte s .fetch .cs (s.rip + BitVec.ofNat 64 n) = .ok (bs.getD n 0)) →
    decode bs = .needMore →
    let a := s.rip + BitVec.ofNat 64 bs.length
    (canonical s.xlat.la57 a = false → step s = .fault (.generalProtection 0 s)) ∧
    (∀ c : Config.PageFaultCause, canonical s.xlat.la57 a = true → Machine.translate s.xlat .fetch a = .pageFault c →
      step s = .fault (.pageFault (pageFaultCode c .fetch s.cpl) a s)) ∧
    (canonical s.xlat.la57 a = true → Machine.translate s.xlat .fetch a = .sideEffects →
      step s = .refused .sideEffectMemory)

/-! ## The lane arithmetic -/

/-- A NaN operand: the first NaN of x, y, z is returned with bit 22 set and every other bit unchanged, and IE is signalled if
and only if one of the three is signalling (40_fnmsub_lane_arithmetic.md R136). -/
def Obligations.NanOperandsReturnTheFirstNan : Prop :=
  ∀ (x y z : F32) (c : FpControl), (isNaN x || isNaN y || isNaN z) = true →
    ∃ r : F32, (fnmsub32 x y z c).r = some r ∧ r.getLsbD 22 = true ∧
      (∀ j, j ≠ 22 → r.getLsbD j = (if isNaN x then x else if isNaN y then y else z).getLsbD j) ∧
      (fnmsub32 x y z c).fl = (if isSNaN x || isSNaN y || isSNaN z then 0x01 else 0)

/-- With DAZ = 1 the lane computes as if each denormal operand were the zero of its sign and DAZ were 0, and DE is not
signalled; embedded rounding reads DAZ as the other forms do (40_fnmsub_lane_arithmetic.md R137). -/
def Obligations.DazReplacesDenormalOperands : Prop :=
  (∀ (x y z : F32) (c : FpControl), c.daz = true →
    (fnmsub32 x y z c =
      fnmsub32 (if isDenormal x then f32Zero (f32Sign x) else x) (if isDenormal y then f32Zero (f32Sign y) else y)
        (if isDenormal z then f32Zero (f32Sign z) else z) { c with daz := false }) ∧
    (fnmsub32 x y z c).fl.getLsbD 1 = false) ∧
  ∀ (rc : RoundMode) (m : BitVec 32), (erControl rc m).daz = m.getLsbD 6 ∧ (mxControl m).daz = m.getLsbD 6

/-- Without a NaN operand, and denormals read as zeros when DAZ = 1: an infinity times a zero, and a sum of infinities of
opposite sign, give the QNaN real indefinite and IE alone, and nothing else signals IE; with or without a NaN, a lane that
signals IE signals nothing else (40_fnmsub_lane_arithmetic.md R138, R136, R137). -/
def Obligations.InvalidOperationsGiveTheIndefinite : Prop :=
  (∀ (x y z : F32) (c : FpControl), isNaN x = false → isNaN y = false → isNaN z = false →
    let x' := dazOperand c.daz x
    let y' := dazOperand c.daz y
    let invalid : Prop := (isInf x' = true ∧ isZero y' = true) ∨ (isZero x' = true ∧ isInf y' = true) ∨
      (isInf z = true ∧ (isInf x' = true ∨ isInf y' = true) ∧ xor (f32Sign x) (f32Sign y) ≠ f32Sign z)
    (invalid → fnmsub32 x y z c = ⟨some 0xFFC00000, 0x01⟩) ∧
    (¬invalid → (fnmsub32 x y z c).fl.getLsbD 0 = false)) ∧
  ∀ (x y z : F32) (c : FpControl), (fnmsub32 x y z c).fl.getLsbD 0 = true → (fnmsub32 x y z c).fl = 0x01

/-- DE is signalled exactly when DAZ = 0, no operand is a NaN, the lane is not invalid, and some operand is a denormal
(40_fnmsub_lane_arithmetic.md R136, R139; 60_exceptions.md R221). -/
def Obligations.DenormalFlagExactlyWhenDenormalOperand : Prop :=
  ∀ (x y z : F32) (c : FpControl),
    (fnmsub32 x y z c).fl.getLsbD 1 = true ↔
      (c.daz = false ∧ isNaN x = false ∧ isNaN y = false ∧ isNaN z = false ∧
        (fnmsub32 x y z c).fl.getLsbD 0 = false ∧ (isDenormal x = true ∨ isDenormal y = true ∨ isDenormal z = true))

/-- Infinite results: −z for an infinite z, else the infinity of the sign of −(x*y) for an infinite product, and no flag but a
possible DE (40_fnmsub_lane_arithmetic.md R140). -/
def Obligations.InfiniteOperandsGiveInfinities : Prop :=
  ∀ (x y z : F32) (c : FpControl), isNaN x = false → isNaN y = false → isNaN z = false →
    (fnmsub32 x y z c).fl.getLsbD 0 = false →
    (isInf z = true →
      (fnmsub32 x y z c).r = some (if f32Sign z then 0x7F800000 else 0xFF800000) ∧
        (fnmsub32 x y z c).fl &&& 0x3D = 0) ∧
    (isInf z = false → (isInf x = true ∨ isInf y = true) →
      (fnmsub32 x y z c).r = some (if xor (f32Sign x) (f32Sign y) then 0x7F800000 else 0xFF800000) ∧
        (fnmsub32 x y z c).fl &&& 0x3D = 0)

/-- An exactly zero value, of operands after DAZ: the common sign of two like-signed zero terms, else +0, and −0 when rounding
down; no flag but a possible DE (40_fnmsub_lane_arithmetic.md R141, R137). -/
def Obligations.ExactZeroSign : Prop :=
  ∀ (x y z : F32) (c : FpControl), allFinite x y z → laneExact x y z c = 0 →
    let zeros : Prop := (isZero (dazOperand c.daz x) = true ∨ isZero (dazOperand c.daz y) = true) ∧
      isZero (dazOperand c.daz z) = true ∧ xor (f32Sign x) (f32Sign y) = f32Sign z
    (zeros → (fnmsub32 x y z c).r = some (if f32Sign z then 0x00000000 else 0x80000000)) ∧
    (¬zeros → (fnmsub32 x y z c).r = some (if c.rm = .rd then 0x80000000 else 0x00000000)) ∧
    (fnmsub32 x y z c).fl &&& 0x3D = 0

/-- An exactly representable normal value is delivered with no flag, in every rounding mode and under every mask
(40_fnmsub_lane_arithmetic.md R150 P4, R135). -/
def Obligations.ExactNormalValueIsDelivered : Prop :=
  ∀ (x y z r : F32) (c : FpControl), allFinite x y z →
    isDenormal x = false → isDenormal y = false → isDenormal z = false →
    1 ≤ f32Exp r → f32Exp r ≤ 254 → exactValue x y z = f32Val r * 2 ^ 149 →
    fnmsub32 x y z c = ⟨some r, 0⟩

/-- Precision: for finite operands and whatever lane result there is, PE is signalled exactly when the result is not the exact
value (40_fnmsub_lane_arithmetic.md R145). -/
def Obligations.PrecisionFlagExactlyWhenInexact : Prop :=
  ∀ (x y z r : F32) (c : FpControl), allFinite x y z →
    (fnmsub32 x y z c).r = some r →
    ((fnmsub32 x y z c).fl.getLsbD 5 = true ↔ ¬(isFinite r = true ∧ f32Val r * 2 ^ 149 = laneExact x y z c))

/-- Directed rounding is correct: down gives the greatest finite datum not above the exact value, up the least not below,
toward zero the greatest magnitude not above; an infinity stands only where no finite datum does; with FTZ = 1 for every
result that is not tiny (40_fnmsub_lane_arithmetic.md R135, R142 to R144). -/
def Obligations.DirectedRoundingIsCorrect : Prop :=
  ∀ (x y z r : F32) (c : FpControl), (c.ftz = false ∨ ¬tiny c.rm (laneExact x y z c)) → allFinite x y z →
    (fnmsub32 x y z c).r = some r →
    (c.rm = .rd → isFinite r = true → f32Val r * 2 ^ 149 ≤ laneExact x y z c ∧
      ∀ v : F32, isFinite v = true → f32Val v * 2 ^ 149 ≤ laneExact x y z c → f32Val v ≤ f32Val r) ∧
    (c.rm = .rd → isFinite r = false → r = 0xFF800000 ∧
      ∀ v : F32, isFinite v = true → laneExact x y z c < f32Val v * 2 ^ 149) ∧
    (c.rm = .ru → isFinite r = true → laneExact x y z c ≤ f32Val r * 2 ^ 149 ∧
      ∀ v : F32, isFinite v = true → laneExact x y z c ≤ f32Val v * 2 ^ 149 → f32Val r ≤ f32Val v) ∧
    (c.rm = .ru → isFinite r = false → r = 0x7F800000 ∧
      ∀ v : F32, isFinite v = true → f32Val v * 2 ^ 149 < laneExact x y z c) ∧
    (c.rm = .rz → isFinite r = true ∧ 0 ≤ f32Val r * laneExact x y z c ∧
      f32Mag r * 2 ^ 149 ≤ (laneExact x y z c).natAbs ∧
      ∀ v : F32, isFinite v = true → f32Mag v * 2 ^ 149 ≤ (laneExact x y z c).natAbs → f32Mag v ≤ f32Mag r)

/-- Rounding to nearest is correct: no finite datum is closer to the exact value than a finite result, of two equally close
ones the even one is given, and an infinity stands only from the midpoint above the largest finite magnitude on; with FTZ = 1
for every result that is not tiny (40_fnmsub_lane_arithmetic.md R135, R142 to R144). -/
def Obligations.NearestRoundingIsCorrect : Prop :=
  ∀ (x y z r : F32) (c : FpControl), c.rm = .rn → (c.ftz = false ∨ ¬tiny c.rm (laneExact x y z c)) →
    allFinite x y z →
    (fnmsub32 x y z c).r = some r →
    (isFinite r = true → ∀ v : F32, isFinite v = true →
      (f32Val r * 2 ^ 149 - laneExact x y z c).natAbs ≤ (f32Val v * 2 ^ 149 - laneExact x y z c).natAbs ∧
      ((f32Val r * 2 ^ 149 - laneExact x y z c).natAbs = (f32Val v * 2 ^ 149 - laneExact x y z c).natAbs →
        f32Val v ≠ f32Val r → r.getLsbD 0 = false)) ∧
    (isFinite r = false →
      r = (if laneExact x y z c < 0 then 0xFF800000 else 0x7F800000) ∧
        (2 ^ 128 - 2 ^ 103) * 2 ^ 298 ≤ (laneExact x y z c).natAbs)

/-- Overflow: OE is signalled exactly when the value rounded with unbounded exponent is 2^128 or more in magnitude; masked, OE
and PE and the infinity or the largest finite magnitude by mode and sign; unmasked, no result, and PE only if that rounding
was inexact (40_fnmsub_lane_arithmetic.md R144). -/
def Obligations.OverflowExactlyAtTheThreshold : Prop :=
  ∀ (x y z : F32) (c : FpControl), allFinite x y z →
    ((fnmsub32 x y z c).fl.getLsbD 3 = true ↔ overflows c.rm (laneExact x y z c)) ∧
    (overflows c.rm (laneExact x y z c) → c.om = true →
      (fnmsub32 x y z c).fl.getLsbD 5 = true ∧
      (fnmsub32 x y z c).r =
        some (match roundingSide c.rm (decide (laneExact x y z c < 0)), decide (laneExact x y z c < 0) with
          | .toward, false => 0x7F7FFFFF
          | .toward, true => 0xFF7FFFFF
          | _, false => 0x7F800000
          | _, true => 0xFF800000)) ∧
    (overflows c.rm (laneExact x y z c) → c.om = false →
      (fnmsub32 x y z c).r = none ∧
      ((fnmsub32 x y z c).fl.getLsbD 5 = true ↔
        (laneExact x y z c).natAbs * 2 ^ 23 % 2 ^ Nat.log2 (laneExact x y z c).natAbs ≠ 0))

/-- Tiny results: masked without FTZ, UE and PE exactly when the delivered denormal differs from the exact value; masked with
FTZ, a zero of the value's sign with UE and PE; unmasked, UE whether exact or not, no result, and PE only if the rounding with
unbounded exponent was inexact; UE is signalled for tiny results only (40_fnmsub_lane_arithmetic.md R143). -/
def Obligations.TinyResultsUnderflow : Prop :=
  ∀ (x y z : F32) (c : FpControl), allFinite x y z →
    (¬tiny c.rm (laneExact x y z c) → (fnmsub32 x y z c).fl.getLsbD 4 = false) ∧
    (tiny c.rm (laneExact x y z c) → c.um = true → c.ftz = false →
      ∃ r : F32, (fnmsub32 x y z c).r = some r ∧ isFinite r = true ∧
        ((fnmsub32 x y z c).fl.getLsbD 4 = true ↔ f32Val r * 2 ^ 149 ≠ laneExact x y z c) ∧
        (fnmsub32 x y z c).fl.getLsbD 5 = (fnmsub32 x y z c).fl.getLsbD 4) ∧
    (tiny c.rm (laneExact x y z c) → c.um = true → c.ftz = true →
      (fnmsub32 x y z c).r = some (if laneExact x y z c < 0 then 0x80000000 else 0x00000000) ∧
        (fnmsub32 x y z c).fl.getLsbD 4 = true ∧ (fnmsub32 x y z c).fl.getLsbD 5 = true) ∧
    (tiny c.rm (laneExact x y z c) → c.um = false →
      (fnmsub32 x y z c).r = none ∧ (fnmsub32 x y z c).fl.getLsbD 4 = true ∧
        ((fnmsub32 x y z c).fl.getLsbD 5 = true ↔
          (laneExact x y z c).natAbs * 2 ^ 23 % 2 ^ Nat.log2 (laneExact x y z c).natAbs ≠ 0))

/-- The five exceptions a lane can signal are OE, UE, IE, PE, DE: ZE never, and each of the five for some operands
(40_fnmsub_lane_arithmetic.md R146). -/
def Obligations.LanesSignalExactlyFiveFlags : Prop :=
  (∀ (x y z : F32) (c : FpControl), (fnmsub32 x y z c).fl.getLsbD 2 = false) ∧
  ∀ j < 6, j ≠ 2 → ∃ (x y z : F32) (c : FpControl), (fnmsub32 x y z c).fl.getLsbD j = true

/-- A lane without a result is certain to trap: it signals UE with UM = 0 or OE with OM = 0; so with both masked there is always a
result (40_fnmsub_lane_arithmetic.md R133, R150 P6). -/
def Obligations.LanesWithoutResultTrap : Prop :=
  ∀ (x y z : F32) (c : FpControl), (fnmsub32 x y z c).r = none →
    (c.um = false ∧ (fnmsub32 x y z c).fl.getLsbD 4 = true) ∨ (c.om = false ∧ (fnmsub32 x y z c).fl.getLsbD 3 = true)

/-- Swapping the multiplicands changes nothing unless both are NaNs (40_fnmsub_lane_arithmetic.md R150 P3, R134). -/
def Obligations.MultiplicandsCommuteUnlessNans : Prop :=
  ∀ (x y z : F32) (c : FpControl), ¬(isNaN x = true ∧ isNaN y = true) → fnmsub32 y x z c = fnmsub32 x y z c

/-! ## From the lanes' flags to the outcome -/

/-- `SimdFpOutcome`, flag by flag: an unmasked IE or DE of any lane traps with the IE and DE of all lanes; else any unmasked flag
traps with all flags; else all flags are delivered (60_exceptions.md R222). -/
def Obligations.SimdOutcomeHasTwoPhases : Prop :=
  ∀ (fs : List FlagSet) (m : FlagSet),
    ((∃ f ∈ fs, ∃ i < 2, f.getLsbD i = true ∧ m.getLsbD i = false) →
      ∃ g : FlagSet, simdFpOutcome fs m = .trap g ∧
        ∀ i, g.getLsbD i = true ↔ (i < 2 ∧ ∃ f ∈ fs, f.getLsbD i = true)) ∧
    ((¬∃ f ∈ fs, ∃ i < 2, f.getLsbD i = true ∧ m.getLsbD i = false) →
      (∃ f ∈ fs, ∃ i < 6, f.getLsbD i = true ∧ m.getLsbD i = false) →
      ∃ g : FlagSet, simdFpOutcome fs m = .trap g ∧ ∀ i, g.getLsbD i = true ↔ ∃ f ∈ fs, f.getLsbD i = true) ∧
    ((¬∃ f ∈ fs, ∃ i < 6, f.getLsbD i = true ∧ m.getLsbD i = false) →
      ∃ g : FlagSet, simdFpOutcome fs m = .deliver g ∧ ∀ i, g.getLsbD i = true ↔ ∃ f ∈ fs, f.getLsbD i = true)

/-- A trap of a VEX form: the flags OR-ed into MXCSR, #XM, or #UD when CR4.OSXMMEXCPT = 0, and nothing else changed
(60_exceptions.md R222, R223). That the flags are set also when #UD replaces #XM is the spec's choice (R223), log 19. -/
def Obligations.VexTrapRaisesXmOrUd : Prop :=
  ∀ (s : State) (f : Form) (kl : Nat) (i : Instr) (p : List LegacyPrefix) (d s2 : BitVec 4) (o : VexOp3)
    (src3 : List F32) (g : FlagSet),
    vexEnabled s → prefixesAllowed p = true → vexLength p o ≤ 15 → readVexOp3 s p kl o = .ok src3 →
    (f, kl, i) ∈ [(Form.f132, 4, Instr.vfnmsub132VexXmm p d s2 o), (.f213, 4, .vfnmsub213VexXmm p d s2 o),
      (.f231, 4, .vfnmsub231VexXmm p d s2 o), (.f132, 8, .vfnmsub132VexYmm p d s2 o),
      (.f213, 8, .vfnmsub213VexYmm p d s2 o), (.f231, 8, .vfnmsub231VexYmm p d s2 o)] →
    simdFpOutcome ((List.range kl).map fun j =>
      (formLane f (lane (s.getZmm (vexReg d)) j) (lane (s.getZmm (vexReg s2)) j) (src3.getD j 0) (mxControl s.mxcsr)).fl)
      (mxMasks s.mxcsr) = .trap g →
    exec i s =
      if crOsxmmexcpt s then .fault (.simdFloatingPoint (s.orFlags g)) else .fault (.invalidOpcode (s.orFlags g))

/-- A trap of an EVEX form without embedded rounding: only active lanes count; the flags OR-ed into MXCSR, #XM, or #UD when
CR4.OSXMMEXCPT = 0, and nothing else changed (60_exceptions.md R222, R223, 42_vfnmsub_evex.md R191). That the flags are set
also when #UD replaces #XM is the spec's choice (R223), log 19. -/
def Obligations.EvexTrapRaisesXmOrUd : Prop :=
  ∀ (s : State) (f : Form) (kl : Nat) (i : Instr) (p : List LegacyPrefix) (k : Masking) (d s2 : BitVec 5) (o : EvexOp3)
    (src3 : List F32) (g : FlagSet),
    evexEnabled s kl → prefixesAllowed p = true → k.legal = true → evexLength p o ≤ 15 →
    readEvexOp3 s p (activeLanes s k kl) o = .ok src3 →
    (f, kl, i) ∈ [(Form.f132, 4, Instr.vfnmsub132EvexXmm p k d s2 o), (.f213, 4, .vfnmsub213EvexXmm p k d s2 o),
      (.f231, 4, .vfnmsub231EvexXmm p k d s2 o), (.f132, 8, .vfnmsub132EvexYmm p k d s2 o),
      (.f213, 8, .vfnmsub213EvexYmm p k d s2 o), (.f231, 8, .vfnmsub231EvexYmm p k d s2 o),
      (.f132, 16, .vfnmsub132EvexZmm p k d s2 o), (.f213, 16, .vfnmsub213EvexZmm p k d s2 o),
      (.f231, 16, .vfnmsub231EvexZmm p k d s2 o)] →
    simdFpOutcome (((List.range kl).filter fun j => active s k j).map fun j =>
      (formLane f (lane (s.getZmm d) j) (lane (s.getZmm s2) j) (src3.getD j 0) (mxControl s.mxcsr)).fl)
      (mxMasks s.mxcsr) = .trap g →
    exec i s =
      if crOsxmmexcpt s then .fault (.simdFloatingPoint (s.orFlags g)) else .fault (.invalidOpcode (s.orFlags g))

/-! ## What each instruction computes, where it completes, and its frame -/

/-- VFNMSUB132PS, VEX, 128 and 256 bits: `DEST[j] <- Round(-(DEST[j]*SRC3[j]) - SRC2[j])` in every lane (41_vfnmsub_vex.md R170,
R173, R176, R179). -/
def Obligations.Vfnmsub132VexCompletes : Prop :=
  ∀ (s : State) (p : List LegacyPrefix) (d s2 : BitVec 4) (o : VexOp3) (src3 : List F32),
    vexEnabled s → prefixesAllowed p = true → vexLength p o ≤ 15 →
    let out := fun j =>
      fnmsub32 (lane (s.getZmm (vexReg d)) j) (src3.getD j 0) (lane (s.getZmm (vexReg s2)) j) (mxControl s.mxcsr)
    (readVexOp3 s p 4 o = .ok src3 → NoUnmasked 4 (fun _ => true) out s →
      ∃ t, exec (.vfnmsub132VexXmm p d s2 o) s = .next t ∧
        PackedEffect 4 (fun _ => true) false out (vexReg d) (vexLength p o) s t ∧
        FlagsAccumulated 4 (fun _ => true) out s t) ∧
    (readVexOp3 s p 8 o = .ok src3 → NoUnmasked 8 (fun _ => true) out s →
      ∃ t, exec (.vfnmsub132VexYmm p d s2 o) s = .next t ∧
        PackedEffect 8 (fun _ => true) false out (vexReg d) (vexLength p o) s t ∧
        FlagsAccumulated 8 (fun _ => true) out s t)

/-- VFNMSUB213PS, VEX, 128 and 256 bits: `DEST[j] <- Round(-(SRC2[j]*DEST[j]) - SRC3[j])` in every lane (41_vfnmsub_vex.md R170,
R173, R177, R180). -/
def Obligations.Vfnmsub213VexCompletes : Prop :=
  ∀ (s : State) (p : List LegacyPrefix) (d s2 : BitVec 4) (o : VexOp3) (src3 : List F32),
    vexEnabled s → prefixesAllowed p = true → vexLength p o ≤ 15 →
    let out := fun j =>
      fnmsub32 (lane (s.getZmm (vexReg s2)) j) (lane (s.getZmm (vexReg d)) j) (src3.getD j 0) (mxControl s.mxcsr)
    (readVexOp3 s p 4 o = .ok src3 → NoUnmasked 4 (fun _ => true) out s →
      ∃ t, exec (.vfnmsub213VexXmm p d s2 o) s = .next t ∧
        PackedEffect 4 (fun _ => true) false out (vexReg d) (vexLength p o) s t ∧
        FlagsAccumulated 4 (fun _ => true) out s t) ∧
    (readVexOp3 s p 8 o = .ok src3 → NoUnmasked 8 (fun _ => true) out s →
      ∃ t, exec (.vfnmsub213VexYmm p d s2 o) s = .next t ∧
        PackedEffect 8 (fun _ => true) false out (vexReg d) (vexLength p o) s t ∧
        FlagsAccumulated 8 (fun _ => true) out s t)

/-- VFNMSUB231PS, VEX, 128 and 256 bits: `DEST[j] <- Round(-(SRC2[j]*SRC3[j]) - DEST[j])` in every lane (41_vfnmsub_vex.md R170,
R173, R178, R181). -/
def Obligations.Vfnmsub231VexCompletes : Prop :=
  ∀ (s : State) (p : List LegacyPrefix) (d s2 : BitVec 4) (o : VexOp3) (src3 : List F32),
    vexEnabled s → prefixesAllowed p = true → vexLength p o ≤ 15 →
    let out := fun j =>
      fnmsub32 (lane (s.getZmm (vexReg s2)) j) (src3.getD j 0) (lane (s.getZmm (vexReg d)) j) (mxControl s.mxcsr)
    (readVexOp3 s p 4 o = .ok src3 → NoUnmasked 4 (fun _ => true) out s →
      ∃ t, exec (.vfnmsub231VexXmm p d s2 o) s = .next t ∧
        PackedEffect 4 (fun _ => true) false out (vexReg d) (vexLength p o) s t ∧
        FlagsAccumulated 4 (fun _ => true) out s t) ∧
    (readVexOp3 s p 8 o = .ok src3 → NoUnmasked 8 (fun _ => true) out s →
      ∃ t, exec (.vfnmsub231VexYmm p d s2 o) s = .next t ∧
        PackedEffect 8 (fun _ => true) false out (vexReg d) (vexLength p o) s t ∧
        FlagsAccumulated 8 (fun _ => true) out s t)

/-- VFNMSUB132PS, EVEX, 128, 256 and 512 bits, without embedded rounding: `DEST[j] <- Round(-(DEST[j]*SRC3[j]) - SRC2[j])` in
every active lane, merging or zeroing in the others (42_vfnmsub_evex.md R190 to R192, R196, R200, R203, R206). -/
def Obligations.Vfnmsub132EvexCompletes : Prop :=
  ∀ (s : State) (p : List LegacyPrefix) (k : Masking) (d s2 : BitVec 5) (o : EvexOp3) (src3 : List F32) (kl : Nat) (i : Instr),
    (kl, i) ∈ [(4, Instr.vfnmsub132EvexXmm p k d s2 o), (8, .vfnmsub132EvexYmm p k d s2 o),
      (16, .vfnmsub132EvexZmm p k d s2 o)] →
    evexEnabled s kl → prefixesAllowed p = true → k.legal = true → evexLength p o ≤ 15 →
    readEvexOp3 s p (activeLanes s k kl) o = .ok src3 →
    let out := fun j => fnmsub32 (lane (s.getZmm d) j) (src3.getD j 0) (lane (s.getZmm s2) j) (mxControl s.mxcsr)
    NoUnmasked kl (active s k) out s →
    ∃ t, exec i s = .next t ∧ PackedEffect kl (active s k) k.z out d (evexLength p o) s t ∧
      FlagsAccumulated kl (active s k) out s t

/-- VFNMSUB213PS, EVEX, 128, 256 and 512 bits, without embedded rounding: `DEST[j] <- Round(-(SRC2[j]*DEST[j]) - SRC3[j])` in
every active lane, merging or zeroing in the others (42_vfnmsub_evex.md R190 to R192, R196, R201, R204, R207). -/
def Obligations.Vfnmsub213EvexCompletes : Prop :=
  ∀ (s : State) (p : List LegacyPrefix) (k : Masking) (d s2 : BitVec 5) (o : EvexOp3) (src3 : List F32) (kl : Nat) (i : Instr),
    (kl, i) ∈ [(4, Instr.vfnmsub213EvexXmm p k d s2 o), (8, .vfnmsub213EvexYmm p k d s2 o),
      (16, .vfnmsub213EvexZmm p k d s2 o)] →
    evexEnabled s kl → prefixesAllowed p = true → k.legal = true → evexLength p o ≤ 15 →
    readEvexOp3 s p (activeLanes s k kl) o = .ok src3 →
    let out := fun j => fnmsub32 (lane (s.getZmm s2) j) (lane (s.getZmm d) j) (src3.getD j 0) (mxControl s.mxcsr)
    NoUnmasked kl (active s k) out s →
    ∃ t, exec i s = .next t ∧ PackedEffect kl (active s k) k.z out d (evexLength p o) s t ∧
      FlagsAccumulated kl (active s k) out s t

/-- VFNMSUB231PS, EVEX, 128, 256 and 512 bits, without embedded rounding: `DEST[j] <- Round(-(SRC2[j]*SRC3[j]) - DEST[j])` in
every active lane, merging or zeroing in the others (42_vfnmsub_evex.md R190 to R192, R196, R202, R205, R208). -/
def Obligations.Vfnmsub231EvexCompletes : Prop :=
  ∀ (s : State) (p : List LegacyPrefix) (k : Masking) (d s2 : BitVec 5) (o : EvexOp3) (src3 : List F32) (kl : Nat) (i : Instr),
    (kl, i) ∈ [(4, Instr.vfnmsub231EvexXmm p k d s2 o), (8, .vfnmsub231EvexYmm p k d s2 o),
      (16, .vfnmsub231EvexZmm p k d s2 o)] →
    evexEnabled s kl → prefixesAllowed p = true → k.legal = true → evexLength p o ≤ 15 →
    readEvexOp3 s p (activeLanes s k kl) o = .ok src3 →
    let out := fun j => fnmsub32 (lane (s.getZmm s2) j) (src3.getD j 0) (lane (s.getZmm d) j) (mxControl s.mxcsr)
    NoUnmasked kl (active s k) out s →
    ∃ t, exec i s = .next t ∧ PackedEffect kl (active s k) k.z out d (evexLength p o) s t ∧
      FlagsAccumulated kl (active s k) out s t

/-- VFNMSUB132PS with embedded rounding completes under every MXCSR: the instruction's rounding mode, all exceptions
suppressed, MXCSR unchanged (42_vfnmsub_evex.md R190, R194, R206). -/
def Obligations.Vfnmsub132ErCompletes : Prop :=
  ∀ (s : State) (p : List LegacyPrefix) (k : Masking) (d s2 s3 : BitVec 5) (rc : RoundMode),
    evexEnabled s 16 → prefixesAllowed p = true → k.legal = true → evexLength p (.reg s3) ≤ 15 →
    ∃ t, exec (.vfnmsub132EvexZmmEr p k d s2 s3 rc) s = .next t ∧ t.mxcsr = s.mxcsr ∧
      PackedEffect 16 (active s k) k.z
        (fun j => fnmsub32 (lane (s.getZmm d) j) (lane (s.getZmm s3) j) (lane (s.getZmm s2) j)
          ⟨rc, s.mxcsr.getLsbD 6, s.mxcsr.getLsbD 15, true, true⟩)
        d (evexLength p (.reg s3)) s t

/-- VFNMSUB213PS with embedded rounding completes under every MXCSR: the instruction's rounding mode, all exceptions
suppressed, MXCSR unchanged (42_vfnmsub_evex.md R190, R194, R207). -/
def Obligations.Vfnmsub213ErCompletes : Prop :=
  ∀ (s : State) (p : List LegacyPrefix) (k : Masking) (d s2 s3 : BitVec 5) (rc : RoundMode),
    evexEnabled s 16 → prefixesAllowed p = true → k.legal = true → evexLength p (.reg s3) ≤ 15 →
    ∃ t, exec (.vfnmsub213EvexZmmEr p k d s2 s3 rc) s = .next t ∧ t.mxcsr = s.mxcsr ∧
      PackedEffect 16 (active s k) k.z
        (fun j => fnmsub32 (lane (s.getZmm s2) j) (lane (s.getZmm d) j) (lane (s.getZmm s3) j)
          ⟨rc, s.mxcsr.getLsbD 6, s.mxcsr.getLsbD 15, true, true⟩)
        d (evexLength p (.reg s3)) s t

/-- VFNMSUB231PS with embedded rounding completes under every MXCSR: the instruction's rounding mode, all exceptions
suppressed, MXCSR unchanged (42_vfnmsub_evex.md R190, R194, R208). -/
def Obligations.Vfnmsub231ErCompletes : Prop :=
  ∀ (s : State) (p : List LegacyPrefix) (k : Masking) (d s2 s3 : BitVec 5) (rc : RoundMode),
    evexEnabled s 16 → prefixesAllowed p = true → k.legal = true → evexLength p (.reg s3) ≤ 15 →
    ∃ t, exec (.vfnmsub231EvexZmmEr p k d s2 s3 rc) s = .next t ∧ t.mxcsr = s.mxcsr ∧
      PackedEffect 16 (active s k) k.z
        (fun j => fnmsub32 (lane (s.getZmm s2) j) (lane (s.getZmm s3) j) (lane (s.getZmm d) j)
          ⟨rc, s.mxcsr.getLsbD 6, s.mxcsr.getLsbD 15, true, true⟩)
        d (evexLength p (.reg s3)) s t

/-- A named mask whose low KL bits are all 0: every EVEX form completes whatever its operands and its memory operand hold or
fail to hold; the low lanes are kept or zeroed, the bits above VL zeroed, MXCSR unchanged (42_vfnmsub_evex.md R209). -/
def Obligations.EmptyMaskReadsAndSignalsNothing : Prop :=
  ∀ (s : State) (p : List LegacyPrefix) (k : Masking) (d s2 : BitVec 5) (o : EvexOp3) (kl : Nat) (i : Instr),
    (kl, i) ∈ evexForms p k d s2 o → evexEnabled s kl → prefixesAllowed p = true → evexLength p o ≤ 15 →
    k.aaa ≠ 0 → (∀ j < kl, (s.getK k.aaa).getLsbD j = false) →
    ∃ t, exec i s = .next t ∧ t.mxcsr = s.mxcsr ∧ t.rip = s.rip + BitVec.ofNat 64 (evexLength p o) ∧
      (∀ j < kl, lane (t.getZmm d) j = if k.z then 0 else lane (s.getZmm d) j) ∧
      (∀ j, kl ≤ j → j < 16 → lane (t.getZmm d) j = 0) ∧ OnlyDestination d s t

/-- A VEX form and the EVEX form of the same length without mask, with the same registers and the same third operand, give the
same register, MXCSR and exceptions; only the length differs (41_vfnmsub_vex.md R182). -/
def Obligations.VexAndEvexFormsAgree : Prop :=
  ∀ (s : State) (p : List LegacyPrefix) (d s2 : BitVec 4) (o : VexOp3) (o' : EvexOp3) (kl : Nat) (i i' : Instr),
    (kl, i, i') ∈ [
      (4, Instr.vfnmsub132VexXmm p d s2 o, Instr.vfnmsub132EvexXmm p ⟨0, false⟩ (vexReg d) (vexReg s2) o'),
      (4, .vfnmsub213VexXmm p d s2 o, .vfnmsub213EvexXmm p ⟨0, false⟩ (vexReg d) (vexReg s2) o'),
      (4, .vfnmsub231VexXmm p d s2 o, .vfnmsub231EvexXmm p ⟨0, false⟩ (vexReg d) (vexReg s2) o'),
      (8, .vfnmsub132VexYmm p d s2 o, .vfnmsub132EvexYmm p ⟨0, false⟩ (vexReg d) (vexReg s2) o'),
      (8, .vfnmsub213VexYmm p d s2 o, .vfnmsub213EvexYmm p ⟨0, false⟩ (vexReg d) (vexReg s2) o'),
      (8, .vfnmsub231VexYmm p d s2 o, .vfnmsub231EvexYmm p ⟨0, false⟩ (vexReg d) (vexReg s2) o')] →
    vexEnabled s → evexEnabled s kl → prefixesAllowed p = true → vexLength p o ≤ 15 → evexLength p o' ≤ 15 →
    readVexOp3 s p kl o = readEvexOp3 s p (List.replicate kl true) o' →
    (∃ t, exec i s = .next t ∧ exec i' s = .next (t.setRip (s.rip + BitVec.ofNat 64 (evexLength p o')))) ∨
    (∃ f, exec i s = .fault f ∧ exec i' s = .fault f) ∨ (∃ r, exec i s = .refused r ∧ exec i' s = .refused r)

/-! ## The checks before the operands, and the operands -/

/-- In 64-bit mode each #UD condition of a VEX form that is tested before execution raises #UD with the state as it was, before
CR0.TS or the operand is looked at (60_exceptions.md R224, R231). -/
def Obligations.VexUdConditionsRaiseUd : Prop :=
  ∀ (s : State) (p : List LegacyPrefix) (d s2 : BitVec 4) (o : VexOp3), ∀ q ∈ vexForms p d s2 o,
    pMode s → vexLength p o ≤ 15 →
    (s.feat.fma = false ∨ s.cr4.getLsbD 18 = false ∨ s.xcr0.extractLsb' 1 2 ≠ 3 ∨ prefixesAllowed p = false) →
    exec q.2 s = .fault (.invalidOpcode s)

/-- In 64-bit mode each #UD condition of an EVEX form that is tested before execution and that a term of `Instr` can have raises
#UD with the state as it was, before CR0.TS or the operand is looked at; AVX512VL is asked for below 512 bits only, and never
by an embedded-rounding form (60_exceptions.md R225, R231). -/
def Obligations.EvexUdConditionsRaiseUd : Prop :=
  ∀ (s : State) (p : List LegacyPrefix) (k : Masking) (d s2 s3 : BitVec 5) (o : EvexOp3) (rc : RoundMode), pMode s →
    (∀ q ∈ evexForms p k d s2 o, evexLength p o ≤ 15 →
      (s.feat.avx512f = false ∨ (q.1 < 16 ∧ s.feat.avx512vl = false) ∨ s.cr4.getLsbD 18 = false ∨
        s.xcr0.extractLsb' 1 2 ≠ 3 ∨ s.xcr0.extractLsb' 5 3 ≠ 7 ∨ prefixesAllowed p = false ∨ (k.z = true ∧ k.aaa = 0)) →
      exec q.2 s = .fault (.invalidOpcode s)) ∧
    (∀ i ∈ erForms p k d s2 s3 rc, evexLength p (.reg s3) ≤ 15 →
      (s.feat.avx512f = false ∨ s.cr4.getLsbD 18 = false ∨
        s.xcr0.extractLsb' 1 2 ≠ 3 ∨ s.xcr0.extractLsb' 5 3 ≠ 7 ∨ prefixesAllowed p = false ∨ (k.z = true ∧ k.aaa = 0)) →
      exec i s = .fault (.invalidOpcode s))

/-- CR0.TS = 1 raises #NM before any operand is read, when no #UD condition tested before execution holds
(60_exceptions.md R226). -/
def Obligations.TaskSwitchedRaisesNm : Prop :=
  ∀ (s : State) (p : List LegacyPrefix) (k : Masking) (e e2 : BitVec 4) (d s2 s3 : BitVec 5) (o : VexOp3) (o' : EvexOp3)
    (rc : RoundMode), pMode s → s.cr0.getLsbD 3 = true → prefixesAllowed p = true → k.legal = true →
    (∀ q ∈ vexForms p e e2 o, s.feat.fma = true → pOsVex s → vexLength p o ≤ 15 →
      exec q.2 s = .fault (.deviceNotAvailable s)) ∧
    (∀ q ∈ evexForms p k d s2 o', pCpuidEvex s q.1 → pOsEvex s → evexLength p o' ≤ 15 →
      exec q.2 s = .fault (.deviceNotAvailable s)) ∧
    (∀ i ∈ erForms p k d s2 s3 rc, pCpuidEvex s 16 → pOsEvex s → evexLength p (.reg s3) ≤ 15 →
      exec i s = .fault (.deviceNotAvailable s))

/-- In 64-bit mode an instruction longer than 15 bytes raises #GP(0), in preference to any #UD condition
(60_exceptions.md R230). -/
def Obligations.LongInstructionRaisesGp : Prop :=
  ∀ (s : State) (i : Instr), pMode s → 15 < i.length → exec i s = .fault (.generalProtection 0 s)

/-- An operand that cannot be read ends an enabled instruction with what the read says, #SS(0), #GP(0), #PF with its code and
address, or a refusal, the state as it was, whatever the lanes would signal (20_memory.md R60, 60_exceptions.md R220, R227,
R231 step 5, R238). -/
def Obligations.OperandFaultLeavesTheState : Prop :=
  ∀ (s : State) (p : List LegacyPrefix) (k : Masking) (e e2 : BitVec 4) (d s2 : BitVec 5) (o : VexOp3) (o' : EvexOp3) (r : Stop),
    prefixesAllowed p = true →
    (∀ q ∈ vexForms p e e2 o, vexEnabled s → vexLength p o ≤ 15 → readVexOp3 s p q.1 o = .error r →
      stopOutcome r s (exec q.2 s)) ∧
    (∀ q ∈ evexForms p k d s2 o', evexEnabled s q.1 → k.legal = true → evexLength p o' ≤ 15 →
      readEvexOp3 s p (activeLanes s k q.1) o' = .error r → stopOutcome r s (exec q.2 s))

/-- Operand 3 of a VEX form. A register: lane `j` is lane `j` of the vector register of that number (30_encoding.md R92, 41_vfnmsub_vex.md R170
step 3). A full vector in memory whose bytes can be read, at any address while alignment checking is off: lane `j` is the
four bytes at `4j`, little-endian (20_memory.md R53 to R55). -/
def Obligations.VexOperand3IsRead : Prop :=
  (∀ (s : State) (p : List LegacyPrefix) (n : BitVec 4) (kl : Nat),
    ∃ src3 : List F32, readVexOp3 s p kl (.reg n) = .ok src3 ∧ src3.length = kl ∧
      ∀ j < kl, src3.getD j 0 = lane (s.getZmm (BitVec.ofNat 5 n.toNat)) j) ∧
  ∀ (s : State) (p : List LegacyPrefix) (m : MemForm) (kl : Nat), (kl = 4 ∨ kl = 8) →
    let a := linearAddress s p (vexLength p (.mem m)) 1 m
    (alignmentChecking s = false ∨ a.toNat % (4 * kl) = 0) →
    (∀ i < 4 * kl, accessible s .read (a + BitVec.ofNat 64 i)) →
    ∃ src3 : List F32, readVexOp3 s p kl (.mem m) = .ok src3 ∧ src3.length = kl ∧
      ∀ j < kl, ∀ i < 4, (src3.getD j 0).extractLsb' (8 * i) 8 = s.mem.read (a + BitVec.ofNat 64 (4 * j + i)).toNat

/-- Operand 3 of an EVEX form. A register: lane `j` is lane `j` of the vector register of that number (30_encoding.md R93,
42_vfnmsub_evex.md R190 step 3). A full vector in memory: only the bytes of active lanes are read, the others may lie where
nothing can be read (20_memory.md R59, 42_vfnmsub_evex.md R195); disp8 is scaled by the vector's size (30_encoding.md
R105). -/
def Obligations.EvexOperand3IsRead : Prop :=
  (∀ (s : State) (p : List LegacyPrefix) (k : Masking) (n : BitVec 5) (kl : Nat),
    ∃ src3 : List F32, readEvexOp3 s p (activeLanes s k kl) (.reg n) = .ok src3 ∧ src3.length = kl ∧
      ∀ j < kl, src3.getD j 0 = lane (s.getZmm n) j) ∧
  ∀ (s : State) (p : List LegacyPrefix) (k : Masking) (m : MemForm) (kl : Nat), (kl = 4 ∨ kl = 8 ∨ kl = 16) →
    let a := linearAddress s p (evexLength p (.mem m)) (4 * kl) m
    (alignmentChecking s = false ∨ a.toNat % (4 * kl) = 0) →
    (∀ j < kl, active s k j = true → ∀ i < 4, accessible s .read (a + BitVec.ofNat 64 (4 * j + i))) →
    ∃ src3 : List F32, readEvexOp3 s p (activeLanes s k kl) (.mem m) = .ok src3 ∧ src3.length = kl ∧
      ∀ j < kl, active s k j = true → ∀ i < 4,
        (src3.getD j 0).extractLsb' (8 * i) 8 = s.mem.read (a + BitVec.ofNat 64 (4 * j + i)).toNat

/-- A broadcast operand is the one datum at its address in every lane, disp8 scaled by 4; it is not read at all when no lane is
active (20_memory.md R59, 30_encoding.md R105, 42_vfnmsub_evex.md R193). -/
def Obligations.BroadcastIsOneDatumInEveryLane : Prop :=
  ∀ (s : State) (p : List LegacyPrefix) (k : Masking) (m : MemForm) (kl : Nat), (kl = 4 ∨ kl = 8 ∨ kl = 16) →
    let a := linearAddress s p (evexLength p (.bcst m)) 4 m
    ((∃ j < kl, active s k j = true) → (alignmentChecking s = false ∨ a.toNat % 4 = 0) →
      (∀ i < 4, accessible s .read (a + BitVec.ofNat 64 i)) →
      ∃ v : F32, (∀ i < 4, v.extractLsb' (8 * i) 8 = s.mem.read (a + BitVec.ofNat 64 i).toNat) ∧
        readEvexOp3 s p (activeLanes s k kl) (.bcst m) = .ok (List.replicate kl v)) ∧
    ((∀ j < kl, active s k j = false) → ∃ src3, readEvexOp3 s p (activeLanes s k kl) (.bcst m) = .ok src3)

/-- The read of a memory operand ends in `r` exactly when `r` is what the byte says that does not come at the lowest address, of the
bytes it reads: of all bytes in a VEX form, of the active lanes' bytes in an EVEX form, of the four of a broadcast datum, which is
read only if some lane is active; with alignment checking off or the operand aligned (20_memory.md R58, R59, 42_vfnmsub_evex.md
R195, 60_exceptions.md R231 step 5, 92_eei_decisions.md D19). The lowest address counts also in an operand that wraps past 2^64,
where R58 read alone says the lowest offset (the model's reading, log 38), also when it page-faults below a byte that is not
canonical (the model's reading, log 13), and between a fault and memory with side effects (the model's choice, log 37). -/
def Obligations.LowestFaultingByteDecides : Prop :=
  ∀ (s : State) (p : List LegacyPrefix) (k : Masking) (m : MemForm) (kl : Nat) (r : Stop),
    let av := linearAddress s p (vexLength p (.mem m)) 1 m
    let ae := linearAddress s p (evexLength p (.mem m)) (4 * kl) m
    let ab := linearAddress s p (evexLength p (.bcst m)) 4 m
    let addr := fun (a : Addr) (i : Nat) => a + BitVec.ofNat 64 i
    let byte := fun (a : Addr) (i : Nat) => accessByte s .read (operandSegment p m) (addr a i)
    ((alignmentChecking s = false ∨ av.toNat % (4 * kl) = 0) →
      (readVexOp3 s p kl (.mem m) = .error r ↔
        ∃ i < 4 * kl, byte av i = .error r ∧ ∀ j < 4 * kl, addr av j < addr av i → ∃ b, byte av j = .ok b)) ∧
    ((alignmentChecking s = false ∨ ae.toNat % (4 * kl) = 0) →
      (readEvexOp3 s p (activeLanes s k kl) (.mem m) = .error r ↔
        ∃ i < 4 * kl, active s k (i / 4) = true ∧ byte ae i = .error r ∧
          ∀ j < 4 * kl, active s k (j / 4) = true → addr ae j < addr ae i → ∃ b, byte ae j = .ok b)) ∧
    ((alignmentChecking s = false ∨ ab.toNat % 4 = 0) →
      (readEvexOp3 s p (activeLanes s k kl) (.bcst m) = .error r ↔
        (∃ j < kl, active s k j = true) ∧
          ∃ i < 4, byte ab i = .error r ∧ ∀ j < 4, addr ab j < addr ab i → ∃ b, byte ab j = .ok b))

/-- The refusals: every mode but 64-bit mode, whatever the bytes (00_scope.md R8, R9, 30_encoding.md R115; log 7 for the real-address and
virtual-8086 modes); an operand byte in memory whose reads have side effects (20_memory.md R61), and by the model's reading an
instruction byte too (log 15); and, the model's choice (log 14), an operand not aligned to its size while alignment checking
is on, the premise P_ac being absent (20_memory.md R56): a vector of a VEX form, a vector of an EVEX form with some lane
active, a broadcast datum with some lane active. -/
def Obligations.OutsideTheSpecIsRefusedByName : Prop :=
  (∀ s : State, ¬pMode s → step s = .refused .modeOutOfScope ∧ ∀ i : Instr, exec i s = .refused .modeOutOfScope) ∧
  (∀ (s : State) (kind : Config.AccessKind) (r : Segment) (a : Addr), canonical s.xlat.la57 a = true →
    Machine.translate s.xlat kind a = .sideEffects → accessByte s kind r a = .error (.refuse .sideEffectMemory)) ∧
  ∀ (s : State) (p : List LegacyPrefix) (k : Masking) (m : MemForm) (kl : Nat), alignmentChecking s = true →
    (0 < kl → (linearAddress s p (vexLength p (.mem m)) 1 m).toNat % (4 * kl) ≠ 0 →
      readVexOp3 s p kl (.mem m) = .error (.refuse .alignmentCheckOpen)) ∧
    ((∃ j < kl, active s k j = true) →
      ((linearAddress s p (evexLength p (.mem m)) (4 * kl) m).toNat % (4 * kl) ≠ 0 →
        readEvexOp3 s p (activeLanes s k kl) (.mem m) = .error (.refuse .alignmentCheckOpen)) ∧
      ((linearAddress s p (evexLength p (.bcst m)) 4 m).toNat % 4 ≠ 0 →
        readEvexOp3 s p (activeLanes s k kl) (.bcst m) = .error (.refuse .alignmentCheckOpen)))

/-- The effective address of each memory form: base, plus index times 1, 2, 4 or 8, plus the sign-extended displacement, disp8 times
the factor `n`, or the address of the next instruction plus disp32, modulo 2^64 (30_encoding.md R99 to R105); with the prefix
67H it is the low 32 bits of that sum, zero-extended (R106). -/
def Obligations.EffectiveAddressIsTheSum : Prop :=
  ∀ (s : State) (p p' : List LegacyPrefix) (len n : Nat) (m : MemForm), LegacyPrefix.addr32 ∈ p → LegacyPrefix.addr32 ∉ p' →
    let disp : Disp → Addr := fun d =>
      match d with
      | .none => 0
      | .d8 v => v.signExtend 64 * BitVec.ofNat 64 n
      | .d32 v => v.signExtend 64
    let scaled : Index → Addr := fun x => s.getGpr x.reg * BitVec.ofNat 64 (2 ^ x.scale.toNat)
    effectiveAddress s p' len n m =
      (match m with
      | .ripRel v => s.rip + BitVec.ofNat 64 len + v.signExtend 64
      | .base b d => s.getGpr b + disp d
      | .sib b none d => s.getGpr b + disp d
      | .sib b (some x) d => s.getGpr b + scaled x + disp d
      | .sibNoBase none v => v.signExtend 64
      | .sibNoBase (some x) v => scaled x + v.signExtend 64) ∧
    effectiveAddress s p len n m = ((effectiveAddress s p' len n m).setWidth 32).setWidth 64

/-- The segment of a memory operand: the last override; without one SS for a base RSP or RBP and DS otherwise; only FS and GS
have a base; beyond the base the segment chooses only #SS(0) or #GP(0) on an address that is not canonical
(30_encoding.md R107). -/
def Obligations.SegmentOfAMemoryOperand : Prop :=
  (∀ (p p' : List LegacyPrefix) (r : Segment) (m : MemForm), (∀ q ∈ p', ∀ r', q ≠ .seg r') →
    operandSegment (p ++ .seg r :: p') m = r) ∧
  (∀ (p : List LegacyPrefix) (m : MemForm), (∀ q ∈ p, ∀ r', q ≠ .seg r') →
    operandSegment p m = if baseRegister m = some 4 ∨ baseRegister m = some 5 then .ss else .ds) ∧
  (∀ (s : State) (p : List LegacyPrefix) (len n : Nat) (m : MemForm),
    linearAddress s p len n m = effectiveAddress s p len n m +
      (match operandSegment p m with
        | .fs => s.fsBase
        | .gs => s.gsBase
        | _ => 0)) ∧
  ∀ (s : State) (a : Addr),
    (∀ r : Segment, canonical s.xlat.la57 a = false →
      accessByte s .read r a = .error (.exc (if r = .ss then .ss else .gp))) ∧
    ∀ r r' : Segment, canonical s.xlat.la57 a = true → accessByte s .read r a = accessByte s .read r' a

/-- What an exception records (60_exceptions.md R220, R237, R238): vector, error code, the faulting address for CR2, and the state.
The page-fault error code bit by bit (R228): P from the cause, W/R always 0, U/S exactly at CPL 3, RSVD from the cause, I/D exactly
for a fetch, PK and SGX from the cause, every other bit 0. A byte, read or fetched, that paging refuses gives #PF with that code
and the byte's address (20_memory.md R58, 60_exceptions.md R227, R228), and a byte fetched at an address that is not canonical
#GP. -/
def Obligations.ExceptionsRecordTheirCause : Prop :=
  (∀ (s : State) (code : BitVec 32) (a : Addr),
    ∀ e ∈ ([(.invalidOpcode s, 6, none, none), (.deviceNotAvailable s, 7, none, none),
        (.stackSegment 0 s, 12, some 0, none), (.generalProtection 0 s, 13, some 0, none),
        (.pageFault code a s, 14, some code, some a), (.simdFloatingPoint s, 19, none, none)] :
        List (Fault × Nat × Option (BitVec 32) × Option Addr)),
      e.1.vector = e.2.1 ∧ e.1.errorCode = e.2.2.1 ∧ e.1.faultAddress = e.2.2.2 ∧ e.1.state = s) ∧
  (∀ (c : Config.PageFaultCause) (kind : Config.AccessKind) (cpl : BitVec 2) (i : Nat),
    (pageFaultCode c kind cpl).getLsbD i =
      match i with
      | 0 => c.protection
      | 2 => decide (cpl = 3)
      | 3 => c.reservedBit
      | 4 => decide (kind = .fetch)
      | 5 => c.protectionKey
      | 15 => c.sgx
      | _ => false) ∧
  ∀ (s : State) (r : Segment) (a : Addr),
    (∀ (kind : Config.AccessKind) (c : Config.PageFaultCause), canonical s.xlat.la57 a = true →
      Machine.translate s.xlat kind a = .pageFault c →
      accessByte s kind r a = .error (.exc (.pf (pageFaultCode c kind s.cpl) a))) ∧
    (canonical s.xlat.la57 a = false → accessByte s .fetch r a = .error (.exc .gp))

/-! ## The whole machine -/

/-- Every step keeps the invariant: memory canonical, MXCSR[31:16] = 0, nothing outside the register files the processor has
(10_state.md R20, R25, R27). -/
def Obligations.StepKeepsTheInvariant : Prop :=
  ∀ s t : State, Safety.Inv s → step s = .next t → Safety.Inv t

/-- The state after reset meets the invariant. Memory with nothing listed and the feature flags are the model's choices,
logs 1 and 5. -/
def Obligations.ResetMeetsTheInvariant : Prop := Safety.Inv State.reset

/-- A next state differs from the state before only in one vector register, the flags of MXCSR and `rip`, which moves by an
instruction's length (00_scope.md R14, 49_other_families.md R214). -/
def Obligations.StepChangesOnlyDestinationFlagsRip : Prop :=
  ∀ s t : State, step s = .next t →
    ∃ (d : BitVec 5) (len : Nat), OnlyDestination d s t ∧ 5 ≤ len ∧ len ≤ 15 ∧ t.rip = s.rip + BitVec.ofNat 64 len

/-- Exceptions are precise: the state a fault leaves is the state before the step, except that #XM, and #UD in its place, OR flags
into MXCSR, never ZE; `rip` still points at the instruction (60_exceptions.md R235). -/
def Obligations.FaultsArePrecise : Prop :=
  ∀ (s : State) (f : Fault), step s = .fault f →
    f.state.rip = s.rip ∧
      (f.state = s ∨
        ∃ g : FlagSet, g.getLsbD 2 = false ∧ f.state = s.orFlags g ∧
          (f = .simdFloatingPoint (s.orFlags g) ∨ f = .invalidOpcode (s.orFlags g)))

/-- With all six exceptions masked no step raises #XM; and under the launch premises P_mode, P_cpuid, P_os, P_ts, P_ac, P_mem and
P_masked every well-formed instruction gives a next state (70_reset_and_hazards.md R263). -/
def Obligations.MaskedStateCompletesWithoutXm : Prop :=
  (∀ s s' : State, pMasked s → step s ≠ .fault (.simdFloatingPoint s')) ∧
  ∀ (s : State) (i : Instr), i.wellFormed = true → enabled s i → pAc s → pMem s i → pMasked s → ∃ t, exec i s = .next t

/-- The sticky flags do not influence a computation: with more of them set before, a step gives the same state, or the same exception
and the state it leaves, with them set after, or the same refusal (70_reset_and_hazards.md R265, 60_exceptions.md R222). -/
def Obligations.StickyFlagsDoNotInfluence : Prop :=
  ∀ (s : State) (f : FlagSet),
    (∀ t : State, step s = .next t → step (s.orFlags f) = .next (t.orFlags f)) ∧
    (∀ g : Fault, step s = .fault g → step (s.orFlags f) = .fault (withState g (g.state.orFlags f))) ∧
    ∀ r : Refusal, step s = .refused r → step (s.orFlags f) = .refused r

/-- Opmask bits at and above KL are not read: under any opmask file that agrees below KL an instruction gives the same state, or the
same exception and the state it leaves, with that file, or the same refusal (10_state.md R26, 42_vfnmsub_evex.md R191). -/
def Obligations.HighOpmaskBitsAreIgnored : Prop :=
  ∀ (i : Instr) (s : State) (k' : Vector (BitVec 64) 8),
    (∀ (r : BitVec 3), ∀ j < lanesOf i, (({ s with k := k' } : State).getK r).getLsbD j = (s.getK r).getLsbD j) →
    (∀ t : State, exec i s = .next t → exec i { s with k := k' } = .next { t with k := k' }) ∧
    (∀ g : Fault, exec i s = .fault g → exec i { s with k := k' } = .fault (withState g { g.state with k := k' })) ∧
    ∀ r : Refusal, exec i s = .refused r → exec i { s with k := k' } = .refused r

/-- The values the spec gives for reset, and INIT, which differs in leaving the vector registers, MXCSR and XCR0 (10_state.md R38,
70_reset_and_hazards.md R260). RDX, number 2, holds a processor signature of which the spec gives no value (log 2). That interrupts
disabled is bit 9 of `rflags` = 0 is PRESUMED, log 29. -/
def Obligations.ResetHasTheStatedValues : Prop :=
  (∀ r : BitVec 5, State.reset.getZmm r = 0) ∧ (∀ r : BitVec 3, State.reset.getK r = 0) ∧
  (∀ r : BitVec 4, r ≠ 2 → State.reset.getGpr r = 0) ∧
  State.reset.mxcsr = 0x1F80 ∧ State.reset.cr0 = 0x60000010 ∧ State.reset.cr4 = 0 ∧ State.reset.xcr0 = 1 ∧
  State.reset.mode = .real ∧ State.reset.cpl = 0 ∧ State.reset.rflags.getLsbD 9 = false ∧
  State.reset.rip = 0xFFF0 ∧ State.reset.csBase = 0xFFFF0000 ∧ fetchAddress State.reset = 0xFFFFFFF0 ∧
  ∀ s : State, s.initReset.zmm = s.zmm ∧ s.initReset.mxcsr = s.mxcsr ∧ s.initReset.xcr0 = s.xcr0 ∧
    (∀ r : BitVec 3, s.initReset.getK r = 0) ∧ (∀ r : BitVec 4, r ≠ 2 → s.initReset.getGpr r = 0) ∧
    s.initReset.cr0 = 0x60000010 ∧ s.initReset.cr4 = 0 ∧ s.initReset.mode = .real ∧ s.initReset.cpl = 0 ∧
    s.initReset.rflags.getLsbD 9 = false ∧ s.initReset.rip = 0xFFF0 ∧ s.initReset.csBase = 0xFFFF0000

/-- In the reset state no instruction in scope can execute: the mode is refused, whatever memory holds (70_reset_and_hazards.md
R261, 00_scope.md R8; log 7); and were the mode 64-bit mode, CR4.OSXSAVE = 0 would make every instruction of at most 15 bytes
raise #UD (10_state.md R38). CR4.OSXMMEXCPT is 0 and all six SIMD exceptions are masked. -/
def Obligations.NothingExecutesAtReset : Prop :=
  (∀ i : Instr, exec i State.reset = .refused .modeOutOfScope) ∧
  (∀ m : Memory, step (State.reset.setMem m) = .refused .modeOutOfScope) ∧
  (∀ i : Instr, i.length ≤ 15 →
    exec i { State.reset with mode := .mode64 } = .fault (.invalidOpcode { State.reset with mode := .mode64 })) ∧
  crOsxmmexcpt State.reset = false ∧ mxMasks State.reset.mxcsr = 0x3F
end

