-- ==== Sys2Proof/Laws/Decode.lean ====
section
/-! SUPPORT. Small lemmas of the decoder and the encoder: prefixes, displacements, and the parts an instruction is read
back from. -/

namespace Sys2Proof

theorem legacyOf_byte (q : LegacyPrefix) : legacyOf q.byte = some q := by
  cases q with
  | seg r => cases r <;> rfl
  | rex low =>
    have h : ∀ l : BitVec 4, legacyOf (LegacyPrefix.rex l).byte = some (.rex l) := by decide +kernel
    exact h low
  | _ => rfl

/-- The prefixes of an encoding are read back, up to the first byte that is none. -/
theorem splitLegacy_map (p : List LegacyPrefix) (b : Byte) (rest : List Byte) (hb : legacyOf b = none) :
    splitLegacy (p.map LegacyPrefix.byte ++ b :: rest) = (p, b :: rest) := by
  induction p with
  | nil => simp [splitLegacy, hb]
  | cons q p ih => simp [splitLegacy, legacyOf_byte, ih]

theorem legacyOf_c4 : legacyOf 0xC4 = none := by decide +kernel

theorem legacyOf_62 : legacyOf 0x62 = none := by decide +kernel

theorem take32_bytes32 (v : BitVec 32) (rest : List Byte) : take32 (bytes32 v ++ rest) = some (v, rest) := by
  have h : v.extractLsb' 24 8 ++ v.extractLsb' 16 8 ++ v.extractLsb' 8 8 ++ v.extractLsb' 0 8 = v := by
    apply BitVec.eq_of_getLsbD_eq
    intro i hi
    simp only [BitVec.getLsbD_append, BitVec.getLsbD_extractLsb']
    by_cases h1 : i < 8
    · simp [h1]
    · by_cases h2 : i - 8 < 8
      · simp [h1, h2, show 8 + (i - 8) = i by omega]
      · by_cases h3 : i - 8 - 8 < 8
        · simp [h1, h2, h3, show 16 + (i - 8 - 8) = i by omega]
        · simp [h1, h2, h3, show 24 + (i - 8 - 8 - 8) = i by omega, show i - 8 - 8 - 8 < 8 by omega]
  simp only [bytes32, List.cons_append, List.nil_append, take32]
  rw [h]

/-- The displacement of an encoding is read back. -/
theorem takeDisp_bytes (d : Disp) (rest : List Byte) : takeDisp d.mod (d.bytes ++ rest) = some (d, rest) := by
  cases d with
  | none => rfl
  | d8 v => rfl
  | d32 v =>
    have : takeDisp 2 (bytes32 v ++ rest) = some (.d32 v, rest) := by
      simp [takeDisp, take32_bytes32]
    exact this

theorem formOf_opcode (f : Form) : formOf f.opcode = some f := by cases f <;> rfl

theorem roundMode_ofBits_bits (rc : RoundMode) : RoundMode.ofBits rc.bits = rc := by cases rc <;> rfl

theorem disp_bytes_length (d : Disp) : d.bytes.length = d.length := by cases d <;> rfl

/-- The bytes after ModRM are as many as the length of the memory form says. -/
theorem memForm_tail_length (m : MemForm) : m.fields.tail.length = m.length := by
  cases m with
  | ripRel v => rfl
  | base b d => exact disp_bytes_length d
  | sib b i d => simp [MemForm.fields, MemForm.length, disp_bytes_length, Nat.add_comm]
  | sibNoBase i v => rfl

theorem vexOp3_tail_length (o : VexOp3) : o.fields.tail.length = o.length := by
  cases o with
  | reg n => rfl
  | mem m => exact memForm_tail_length m

theorem evexOp3_tail_length (o : EvexOp3) : o.fields.1.tail.length = o.length := by
  cases o with
  | reg n => rfl
  | mem m => exact memForm_tail_length m
  | bcst m => exact memForm_tail_length m

theorem encodeVex_length (f : Form) (l : BitVec 1) (p : List LegacyPrefix) (d s2 : BitVec 4) (o : VexOp3) :
    (encodeVex f l p d s2 o).length = vexLength p o := by
  simp [encodeVex, vexLength, vexOp3_tail_length]
  omega

theorem encodeEvex_length (f : Form) (ll : BitVec 2) (b : BitVec 1) (p : List LegacyPrefix) (k : Masking)
    (d s2 : BitVec 5) (q : RmFields) : (encodeEvex f ll b p k d s2 q).length = p.length + 6 + q.tail.length := by
  simp [encodeEvex]
  omega

/-! ## Bytes that want more -/

/-- A list splits into its legacy prefixes and the rest. -/
theorem splitLegacy_length (bs : List Byte) : (splitLegacy bs).1.length + (splitLegacy bs).2.length = bs.length := by
  induction bs with
  | nil => rfl
  | cons b bs ih =>
    unfold splitLegacy
    split
    · simp
    · simp only [List.length_cons]; omega

/-- The bytes of the run are legacy prefixes. -/
theorem splitLegacy_run (bs : List Byte) (i : Nat) (hi : i < (splitLegacy bs).1.length) :
    ∃ q, legacyOf (bs.getD i 0) = some q := by
  induction bs generalizing i with
  | nil => simp [splitLegacy] at hi
  | cons b bs ih =>
    unfold splitLegacy at hi
    split at hi
    · simp at hi
    · next q hq =>
      cases i with
      | zero => exact ⟨q, by simpa using hq⟩
      | succ i => simpa using ih i (by simpa using hi)

theorem take32_none (bs : List Byte) (h : take32 bs = none) : bs.length ≤ 3 := by
  unfold take32 at h
  split at h
  · cases h
  · next hn =>
    match bs with
    | [] => simp
    | [_] => simp
    | [_, _] => simp
    | [_, _, _] => simp
    | a :: b :: c :: d :: r => exact absurd rfl (hn a b c d r)

theorem takeDisp_none (mod : BitVec 2) (bs : List Byte) (h : takeDisp mod bs = none) : bs.length ≤ 3 := by
  unfold takeDisp at h
  split at h
  · split at h
    · cases h
    · simp
  · split at h
    · split at h
      · cases h
      · next hn => exact take32_none _ hn
    · cases h

/-- A memory operand that wants more has at most four bytes. -/
theorem decodeMem_none (mod : BitVec 2) (rm : BitVec 3) (x b : BitVec 1) (bs : List Byte)
    (h : decodeMem mod rm x b bs = none) : bs.length ≤ 4 := by
  unfold decodeMem at h
  split at h
  · split at h
    · simp
    · split at h
      · split at h
        · cases h
        · next hn => have := take32_none _ hn; simp; omega
      · split at h
        · cases h
        · next hn => have := takeDisp_none _ _ hn; simp; omega
  · split at h
    · split at h
      · cases h
      · next hn => have := take32_none _ hn; omega
    · split at h
      · cases h
      · next hn => have := takeDisp_none _ _ hn; omega

theorem decodeVexOperands_needMore (p : List LegacyPrefix) (b1 b2 : Byte) (f : Form) (m : Byte) (bs : List Byte)
    (h : decodeVexOperands p b1 b2 f m bs = .needMore) : bs.length ≤ 4 := by
  simp only [decodeVexOperands] at h
  split at h
  · cases h
  · split at h
    · cases h
    · next hn => exact decodeMem_none _ _ _ _ _ hn

theorem decodeEvexOperands_needMore (p : List LegacyPrefix) (p0 p1 p2 : Byte) (f : Form) (m : Byte) (bs : List Byte)
    (h : decodeEvexOperands p p0 p1 p2 f m bs = .needMore) : bs.length ≤ 4 := by
  simp only [decodeEvexOperands] at h
  split at h
  · split at h
    · split at h <;> cases h
    · split at h
      · cases h
      · split at h <;> cases h
  · split at h
    · split at h
      · cases h
      · split at h <;> cases h
    · next hn => exact decodeMem_none _ _ _ _ _ hn

/-- After the legacy prefixes at most ten bytes want more. -/
theorem decodeBody_needMore (p : List LegacyPrefix) (bs : List Byte) (h : decodeBody p bs = .needMore) : bs.length ≤ 10 := by
  match bs with
  | [] => simp
  | [_] => simp
  | [_, _] => simp
  | [_, _, _] => simp
  | [_, _, _, _] => simp
  | [_, _, _, _, _] => simp
  | b0 :: b1 :: b2 :: b3 :: b4 :: b5 :: r =>
    simp only [decodeBody, decodeVex, decodeEvex] at h
    split at h
    · split at h
      · cases h
      · split at h
        · cases h
        · split at h
          · cases h
          · split at h
            · cases h
            · have := decodeVexOperands_needMore _ _ _ _ _ _ h
              simp at this ⊢
              omega
    · split at h
      · split at h
        · cases h
        · split at h
          · cases h
          · split at h
            · cases h
            · split at h
              · cases h
              · have := decodeEvexOperands_needMore _ _ _ _ _ _ _ h
                simp at this ⊢
                omega
      · cases h

end Sys2Proof
end

