-- ==== Sys2Proof/Laws/State.lean ====
section
/-! SUPPORT. What every update of the state does to every field, true by `rfl`, and the reads of registers after the
updates. -/

namespace Sys2Proof.Machine

/-! ## setZmm -/

@[simp] theorem State.setZmm_zmm (s : State) (r : BitVec 5) (v : Vec) : (s.setZmm r v).zmm = s.zmm.set r.toNat v := rfl
@[simp] theorem State.setZmm_k (s : State) (r : BitVec 5) (v : Vec) : (s.setZmm r v).k = s.k := rfl
@[simp] theorem State.setZmm_mxcsr (s : State) (r : BitVec 5) (v : Vec) : (s.setZmm r v).mxcsr = s.mxcsr := rfl
@[simp] theorem State.setZmm_gpr (s : State) (r : BitVec 5) (v : Vec) : (s.setZmm r v).gpr = s.gpr := rfl
@[simp] theorem State.setZmm_rip (s : State) (r : BitVec 5) (v : Vec) : (s.setZmm r v).rip = s.rip := rfl
@[simp] theorem State.setZmm_rflags (s : State) (r : BitVec 5) (v : Vec) : (s.setZmm r v).rflags = s.rflags := rfl
@[simp] theorem State.setZmm_cr0 (s : State) (r : BitVec 5) (v : Vec) : (s.setZmm r v).cr0 = s.cr0 := rfl
@[simp] theorem State.setZmm_cr4 (s : State) (r : BitVec 5) (v : Vec) : (s.setZmm r v).cr4 = s.cr4 := rfl
@[simp] theorem State.setZmm_xcr0 (s : State) (r : BitVec 5) (v : Vec) : (s.setZmm r v).xcr0 = s.xcr0 := rfl
@[simp] theorem State.setZmm_mode (s : State) (r : BitVec 5) (v : Vec) : (s.setZmm r v).mode = s.mode := rfl
@[simp] theorem State.setZmm_cs (s : State) (r : BitVec 5) (v : Vec) : (s.setZmm r v).cs = s.cs := rfl
@[simp] theorem State.setZmm_csBase (s : State) (r : BitVec 5) (v : Vec) : (s.setZmm r v).csBase = s.csBase := rfl
@[simp] theorem State.setZmm_fsBase (s : State) (r : BitVec 5) (v : Vec) : (s.setZmm r v).fsBase = s.fsBase := rfl
@[simp] theorem State.setZmm_gsBase (s : State) (r : BitVec 5) (v : Vec) : (s.setZmm r v).gsBase = s.gsBase := rfl
@[simp] theorem State.setZmm_other (s : State) (r : BitVec 5) (v : Vec) : (s.setZmm r v).other = s.other := rfl
@[simp] theorem State.setZmm_feat (s : State) (r : BitVec 5) (v : Vec) : (s.setZmm r v).feat = s.feat := rfl
@[simp] theorem State.setZmm_xlat (s : State) (r : BitVec 5) (v : Vec) : (s.setZmm r v).xlat = s.xlat := rfl
@[simp] theorem State.setZmm_mem (s : State) (r : BitVec 5) (v : Vec) : (s.setZmm r v).mem = s.mem := rfl

/-! ## setRip -/

@[simp] theorem State.setRip_zmm (s : State) (a : Addr) : (s.setRip a).zmm = s.zmm := rfl
@[simp] theorem State.setRip_k (s : State) (a : Addr) : (s.setRip a).k = s.k := rfl
@[simp] theorem State.setRip_mxcsr (s : State) (a : Addr) : (s.setRip a).mxcsr = s.mxcsr := rfl
@[simp] theorem State.setRip_gpr (s : State) (a : Addr) : (s.setRip a).gpr = s.gpr := rfl
@[simp] theorem State.setRip_rip (s : State) (a : Addr) : (s.setRip a).rip = a := rfl
@[simp] theorem State.setRip_rflags (s : State) (a : Addr) : (s.setRip a).rflags = s.rflags := rfl
@[simp] theorem State.setRip_cr0 (s : State) (a : Addr) : (s.setRip a).cr0 = s.cr0 := rfl
@[simp] theorem State.setRip_cr4 (s : State) (a : Addr) : (s.setRip a).cr4 = s.cr4 := rfl
@[simp] theorem State.setRip_xcr0 (s : State) (a : Addr) : (s.setRip a).xcr0 = s.xcr0 := rfl
@[simp] theorem State.setRip_mode (s : State) (a : Addr) : (s.setRip a).mode = s.mode := rfl
@[simp] theorem State.setRip_cs (s : State) (a : Addr) : (s.setRip a).cs = s.cs := rfl
@[simp] theorem State.setRip_csBase (s : State) (a : Addr) : (s.setRip a).csBase = s.csBase := rfl
@[simp] theorem State.setRip_fsBase (s : State) (a : Addr) : (s.setRip a).fsBase = s.fsBase := rfl
@[simp] theorem State.setRip_gsBase (s : State) (a : Addr) : (s.setRip a).gsBase = s.gsBase := rfl
@[simp] theorem State.setRip_other (s : State) (a : Addr) : (s.setRip a).other = s.other := rfl
@[simp] theorem State.setRip_feat (s : State) (a : Addr) : (s.setRip a).feat = s.feat := rfl
@[simp] theorem State.setRip_xlat (s : State) (a : Addr) : (s.setRip a).xlat = s.xlat := rfl
@[simp] theorem State.setRip_mem (s : State) (a : Addr) : (s.setRip a).mem = s.mem := rfl

/-! ## orFlags -/

@[simp] theorem State.orFlags_zmm (s : State) (f : FlagSet) : (s.orFlags f).zmm = s.zmm := rfl
@[simp] theorem State.orFlags_k (s : State) (f : FlagSet) : (s.orFlags f).k = s.k := rfl
@[simp] theorem State.orFlags_mxcsr (s : State) (f : FlagSet) : (s.orFlags f).mxcsr = s.mxcsr ||| f.setWidth 32 := rfl
@[simp] theorem State.orFlags_gpr (s : State) (f : FlagSet) : (s.orFlags f).gpr = s.gpr := rfl
@[simp] theorem State.orFlags_rip (s : State) (f : FlagSet) : (s.orFlags f).rip = s.rip := rfl
@[simp] theorem State.orFlags_rflags (s : State) (f : FlagSet) : (s.orFlags f).rflags = s.rflags := rfl
@[simp] theorem State.orFlags_cr0 (s : State) (f : FlagSet) : (s.orFlags f).cr0 = s.cr0 := rfl
@[simp] theorem State.orFlags_cr4 (s : State) (f : FlagSet) : (s.orFlags f).cr4 = s.cr4 := rfl
@[simp] theorem State.orFlags_xcr0 (s : State) (f : FlagSet) : (s.orFlags f).xcr0 = s.xcr0 := rfl
@[simp] theorem State.orFlags_mode (s : State) (f : FlagSet) : (s.orFlags f).mode = s.mode := rfl
@[simp] theorem State.orFlags_cs (s : State) (f : FlagSet) : (s.orFlags f).cs = s.cs := rfl
@[simp] theorem State.orFlags_csBase (s : State) (f : FlagSet) : (s.orFlags f).csBase = s.csBase := rfl
@[simp] theorem State.orFlags_fsBase (s : State) (f : FlagSet) : (s.orFlags f).fsBase = s.fsBase := rfl
@[simp] theorem State.orFlags_gsBase (s : State) (f : FlagSet) : (s.orFlags f).gsBase = s.gsBase := rfl
@[simp] theorem State.orFlags_other (s : State) (f : FlagSet) : (s.orFlags f).other = s.other := rfl
@[simp] theorem State.orFlags_feat (s : State) (f : FlagSet) : (s.orFlags f).feat = s.feat := rfl
@[simp] theorem State.orFlags_xlat (s : State) (f : FlagSet) : (s.orFlags f).xlat = s.xlat := rfl
@[simp] theorem State.orFlags_mem (s : State) (f : FlagSet) : (s.orFlags f).mem = s.mem := rfl

/-! ## setMem -/

@[simp] theorem State.setMem_zmm (s : State) (m : Memory) : (s.setMem m).zmm = s.zmm := rfl
@[simp] theorem State.setMem_k (s : State) (m : Memory) : (s.setMem m).k = s.k := rfl
@[simp] theorem State.setMem_mxcsr (s : State) (m : Memory) : (s.setMem m).mxcsr = s.mxcsr := rfl
@[simp] theorem State.setMem_gpr (s : State) (m : Memory) : (s.setMem m).gpr = s.gpr := rfl
@[simp] theorem State.setMem_rip (s : State) (m : Memory) : (s.setMem m).rip = s.rip := rfl
@[simp] theorem State.setMem_rflags (s : State) (m : Memory) : (s.setMem m).rflags = s.rflags := rfl
@[simp] theorem State.setMem_cr0 (s : State) (m : Memory) : (s.setMem m).cr0 = s.cr0 := rfl
@[simp] theorem State.setMem_cr4 (s : State) (m : Memory) : (s.setMem m).cr4 = s.cr4 := rfl
@[simp] theorem State.setMem_xcr0 (s : State) (m : Memory) : (s.setMem m).xcr0 = s.xcr0 := rfl
@[simp] theorem State.setMem_mode (s : State) (m : Memory) : (s.setMem m).mode = s.mode := rfl
@[simp] theorem State.setMem_cs (s : State) (m : Memory) : (s.setMem m).cs = s.cs := rfl
@[simp] theorem State.setMem_csBase (s : State) (m : Memory) : (s.setMem m).csBase = s.csBase := rfl
@[simp] theorem State.setMem_fsBase (s : State) (m : Memory) : (s.setMem m).fsBase = s.fsBase := rfl
@[simp] theorem State.setMem_gsBase (s : State) (m : Memory) : (s.setMem m).gsBase = s.gsBase := rfl
@[simp] theorem State.setMem_other (s : State) (m : Memory) : (s.setMem m).other = s.other := rfl
@[simp] theorem State.setMem_feat (s : State) (m : Memory) : (s.setMem m).feat = s.feat := rfl
@[simp] theorem State.setMem_xlat (s : State) (m : Memory) : (s.setMem m).xlat = s.xlat := rfl
@[simp] theorem State.setMem_mem (s : State) (m : Memory) : (s.setMem m).mem = m := rfl

/-! ## Register reads after updates -/

@[simp] theorem State.setRip_getZmm (s : State) (a : Addr) (r : BitVec 5) : (s.setRip a).getZmm r = s.getZmm r := rfl
@[simp] theorem State.setRip_getK (s : State) (a : Addr) (r : BitVec 3) : (s.setRip a).getK r = s.getK r := rfl
@[simp] theorem State.setRip_getGpr (s : State) (a : Addr) (r : BitVec 4) : (s.setRip a).getGpr r = s.getGpr r := rfl
@[simp] theorem State.orFlags_getZmm (s : State) (f : FlagSet) (r : BitVec 5) : (s.orFlags f).getZmm r = s.getZmm r := rfl
@[simp] theorem State.orFlags_getK (s : State) (f : FlagSet) (r : BitVec 3) : (s.orFlags f).getK r = s.getK r := rfl
@[simp] theorem State.orFlags_getGpr (s : State) (f : FlagSet) (r : BitVec 4) : (s.orFlags f).getGpr r = s.getGpr r := rfl
@[simp] theorem State.setMem_getZmm (s : State) (m : Memory) (r : BitVec 5) : (s.setMem m).getZmm r = s.getZmm r := rfl
@[simp] theorem State.setMem_getK (s : State) (m : Memory) (r : BitVec 3) : (s.setMem m).getK r = s.getK r := rfl
@[simp] theorem State.setMem_getGpr (s : State) (m : Memory) (r : BitVec 4) : (s.setMem m).getGpr r = s.getGpr r := rfl
@[simp] theorem State.setZmm_getK (s : State) (r : BitVec 5) (v : Vec) (q : BitVec 3) : (s.setZmm r v).getK q = s.getK q := rfl
@[simp] theorem State.setZmm_getGpr (s : State) (r : BitVec 5) (v : Vec) (q : BitVec 4) : (s.setZmm r v).getGpr q = s.getGpr q := rfl

@[simp] theorem State.getZmm_setZmm_same (s : State) (r : BitVec 5) (v : Vec) : (s.setZmm r v).getZmm r = v := by
  simp [State.getZmm, State.setZmm]

theorem State.getZmm_setZmm_other (s : State) (r q : BitVec 5) (v : Vec) (h : q ≠ r) :
    (s.setZmm r v).getZmm q = s.getZmm q := by
  have hn : r.toNat ≠ q.toNat := fun e => h (BitVec.eq_of_toNat_eq e.symm)
  simp [State.getZmm, State.setZmm, hn]

/-- A read of one vector register after a write of one. -/
theorem State.getZmm_setZmm (s : State) (r q : BitVec 5) (v : Vec) :
    (s.setZmm r v).getZmm q = if q = r then v else s.getZmm q := by
  by_cases h : q = r
  · subst h; simp
  · simp [h, State.getZmm_setZmm_other]

/-! ## The updates among themselves -/

theorem State.orFlags_zero (s : State) : s.orFlags 0 = s := by
  simp [State.orFlags]

theorem State.orFlags_orFlags (s : State) (f g : FlagSet) : (s.orFlags f).orFlags g = s.orFlags (f ||| g) := by
  simp [State.orFlags, BitVec.setWidth_or, BitVec.or_assoc]

/-- The bits of MXCSR after flags are OR-ed in: only the six flag bits can change, and only from 0 to 1. -/
theorem State.orFlags_mxcsr_bit (s : State) (f : FlagSet) (j : Nat) :
    (s.orFlags f).mxcsr.getLsbD j = (s.mxcsr.getLsbD j || f.getLsbD j) := by
  by_cases h : j < 32
  · simp [h]
  · have hf : f.getLsbD j = false := BitVec.getLsbD_of_ge f j (by omega)
    simp [hf, h]

/-- One lemma for the end of an instruction: every field of `writeBack`. -/
theorem writeBack_spec (s : State) (d : BitVec 5) (v : Vec) (len : Nat) :
    (writeBack s d v len).getZmm d = v ∧ (∀ r, r ≠ d → (writeBack s d v len).getZmm r = s.getZmm r) ∧
      (writeBack s d v len).rip = s.rip + BitVec.ofNat 64 len ∧
      writeBack s d v len = { s with zmm := (s.setZmm d v).zmm, rip := s.rip + BitVec.ofNat 64 len } := by
  refine ⟨by simp [writeBack], fun r h => ?_, rfl, rfl⟩
  simp [writeBack, State.getZmm_setZmm_other _ _ _ _ h]

end Sys2Proof.Machine
end

