-- ==== Sys2Proof/Laws/Memory.lean ====
section
/-! SUPPORT. Memory: reads after writes, and that every operation keeps the canonical form. -/

namespace Sys2Proof.Machine

/-! ## Reads after writes -/

theorem Memory.read_cons_same (a : Nat) (b : Byte) (m : Memory) (h : m.read a = unlistedByte) :
    (Memory.cons a b m).read a = b := by
  unfold Memory.cons
  split
  · next hb => rw [h, hb]
  · simp [Memory.read]

theorem Memory.read_cons_other (a x : Nat) (b : Byte) (m : Memory) (h : x ≠ a) : (Memory.cons a b m).read x = m.read x := by
  unfold Memory.cons
  split
  · rfl
  · simp [Memory.read, Ne.symm h]

/-- An address below every listed one reads as unlisted. -/
theorem Memory.read_below (m : Memory) (a : Nat) (h : ∀ c ∈ m, a < c.1) : m.read a = unlistedByte := by
  induction m with
  | nil => rfl
  | cons c rest ih =>
    have hc : c.1 ≠ a := by have := h c (by simp); omega
    simp only [Memory.read, hc, if_false]
    exact ih fun e he => h e (by simp [he])

theorem Memory.rising_head (c : Host.Cell) (rest : Memory) (h : Memory.rising (c :: rest) = true) :
    (∀ e ∈ rest, c.1 < e.1) ∧ Memory.rising rest = true := by
  simpa [Memory.rising] using h

/-- A byte written is the byte read, in a memory whose addresses rise. -/
theorem Memory.read_write_same (m : Memory) (a : Nat) (b : Byte) (h : Memory.rising m = true) :
    (m.write a b).read a = b := by
  induction m with
  | nil => exact Memory.read_cons_same a b [] rfl
  | cons c rest ih =>
    obtain ⟨hc, hr⟩ := Memory.rising_head c rest h
    unfold Memory.write
    split
    · next hlt =>
      refine Memory.read_cons_same a b _ (Memory.read_below _ _ ?_)
      intro e he
      rcases List.mem_cons.1 he with rfl | he
      · exact hlt
      · have := hc e he; omega
    · next hge =>
      split
      · next heq =>
        refine Memory.read_cons_same a b _ (Memory.read_below _ _ ?_)
        intro e he
        have := hc e he; omega
      · next hne =>
        have : c.1 ≠ a := fun e => hne e.symm
        simp [Memory.read, this, ih hr]

/-- A byte written leaves every other address alone. -/
theorem Memory.read_write_other (m : Memory) (a x : Nat) (b : Byte) (h : x ≠ a) : (m.write a b).read x = m.read x := by
  induction m with
  | nil => exact Memory.read_cons_other a x b [] h
  | cons c rest ih =>
    unfold Memory.write
    split
    · exact Memory.read_cons_other a x b _ h
    · split
      · next heq =>
        rw [Memory.read_cons_other a x b _ h]
        have : c.1 ≠ x := by omega
        simp [Memory.read, this]
      · simp [Memory.read, ih]

/-! ## The canonical form -/

/-- The canonical form, cell by cell. -/
theorem Memory.wf_iff (m : Memory) :
    m.wf = true ↔ Memory.rising m = true ∧ ∀ c ∈ m, c.1 < 2 ^ 64 ∧ c.2 ≠ unlistedByte := by
  simp [Memory.wf]

theorem Memory.mem_write (m : Memory) (a : Nat) (b : Byte) (e : Host.Cell) (h : e ∈ m.write a b) :
    e ∈ m ∨ (e = (a, b) ∧ b ≠ unlistedByte) := by
  have hcons : ∀ l : Memory, e ∈ Memory.cons a b l → e ∈ l ∨ (e = (a, b) ∧ b ≠ unlistedByte) := by
    intro l hl
    unfold Memory.cons at hl
    split at hl
    · exact .inl hl
    · next hb => rcases List.mem_cons.1 hl with rfl | hl
                 · exact .inr ⟨rfl, hb⟩
                 · exact .inl hl
  induction m with
  | nil => exact hcons [] h
  | cons c rest ih =>
    unfold Memory.write at h
    split at h
    · exact hcons _ h
    · split at h
      · exact (hcons _ h).imp (fun h => List.mem_cons_of_mem _ h) id
      · rcases List.mem_cons.1 h with rfl | h
        · exact .inl (by simp)
        · exact (ih h).imp (fun h => List.mem_cons_of_mem _ h) id

theorem Memory.rising_cons (a : Nat) (b : Byte) (m : Memory) (ha : ∀ e ∈ m, a < e.1) (h : Memory.rising m = true) :
    Memory.rising (Memory.cons a b m) = true := by
  unfold Memory.cons
  split
  · exact h
  · simp only [Memory.rising, Bool.and_eq_true, List.all_eq_true, decide_eq_true_eq]
    exact ⟨ha, h⟩

theorem Memory.rising_write (m : Memory) (a : Nat) (b : Byte) (h : Memory.rising m = true) :
    Memory.rising (m.write a b) = true := by
  induction m with
  | nil => exact Memory.rising_cons a b [] (by simp) rfl
  | cons c rest ih =>
    obtain ⟨hc, hr⟩ := Memory.rising_head c rest h
    unfold Memory.write
    split
    · next hlt =>
      refine Memory.rising_cons a b _ ?_ h
      intro e he
      rcases List.mem_cons.1 he with rfl | he
      · exact hlt
      · have := hc e he; omega
    · split
      · next heq => exact Memory.rising_cons a b _ (fun e he => by have := hc e he; omega) hr
      · next hlt hne =>
        simp only [Memory.rising, Bool.and_eq_true, List.all_eq_true, decide_eq_true_eq]
        refine ⟨fun e he => ?_, ih hr⟩
        rcases Memory.mem_write rest a b e he with he | ⟨rfl, -⟩
        · exact hc e he
        · show c.1 < a; omega

/-- Writing a byte at an address of the address space keeps the canonical form. -/
theorem Memory.wf_write (m : Memory) (a : Nat) (b : Byte) (ha : a < 2 ^ 64) (h : m.wf = true) :
    (m.write a b).wf = true := by
  rw [Memory.wf_iff] at h ⊢
  refine ⟨Memory.rising_write m a b h.1, fun e he => ?_⟩
  rcases Memory.mem_write m a b e he with he | ⟨rfl, hb⟩
  · exact h.2 e he
  · exact ⟨ha, hb⟩

/-- Writing bytes keeps the canonical form. -/
theorem Memory.wf_writeBytes (m : Memory) (a : Addr) (bs : List Byte) (h : m.wf = true) :
    (m.writeBytes a bs).wf = true := by
  induction bs generalizing m a with
  | nil => exact h
  | cons b rest ih => exact ih _ _ (Memory.wf_write m a.toNat b a.isLt h)

theorem State.memWrite_wf (s : State) (a : Addr) (bs : List Byte) (h : s.mem.wf = true) :
    (s.memWrite a bs).mem.wf = true := Memory.wf_writeBytes _ _ _ h

theorem placeAtFetch_wf (s : State) (bs : List Byte) (h : s.mem.wf = true) : (placeAtFetch s bs).mem.wf = true :=
  Memory.wf_writeBytes _ _ _ h

theorem State.reset_mem_wf : State.reset.mem.wf = true := rfl

end Sys2Proof.Machine
end

