-- ==== Sys2Proof/Laws/Ops.lean ====
section
/-! SUPPORT. One lemma for each shared operation of Machine/Ops.lean and Machine/Flags.lean, saying all it can do. -/

namespace Sys2Proof.Machine

/-! ## Lanes of a register -/

theorem getLsbD_lane (v : Vec) (j i : Nat) : (lane v j).getLsbD i = (decide (i < 32) && v.getLsbD (32 * j + i)) := by
  simp [lane, BitVec.getLsbD_extractLsb']

/-- A bit of a packed register: lane `n / 32`, bit `n % 32`. -/
theorem getLsbD_packLanes (ls : List F32) (n : Nat) (hn : n < 512) :
    (packLanes ls).getLsbD n = (ls.getD (n / 32) 0).getLsbD (n % 32) := by
  induction ls generalizing n with
  | nil => simp [packLanes]
  | cons l ls ih =>
    simp only [packLanes, BitVec.getLsbD_or, BitVec.getLsbD_setWidth, BitVec.getLsbD_shiftLeft, hn, decide_true,
      Bool.true_and]
    by_cases h : n < 32
    · simp [h, Nat.div_eq_of_lt h, Nat.mod_eq_of_lt h]
    · have h1 : n / 32 = (n - 32) / 32 + 1 := by omega
      have h2 : n % 32 = (n - 32) % 32 := by omega
      have h3 : l.getLsbD n = false := BitVec.getLsbD_of_ge l n (by omega)
      rw [ih (n - 32) (by omega), h3, h1, h2]
      simp [h]

/-- Lane `j` of a packed register is element `j` of the list, and 0 past its end. -/
theorem lane_packLanes (ls : List F32) (j : Nat) (hj : j < 16) : lane (packLanes ls) j = ls.getD j 0 := by
  apply BitVec.eq_of_getLsbD_eq
  intro i hi
  rw [getLsbD_lane, getLsbD_packLanes _ _ (by omega)]
  have h1 : (32 * j + i) / 32 = j := by omega
  have h2 : (32 * j + i) % 32 = i := by omega
  simp [hi, h1, h2]

/-- A register packed from `n` lanes is below `2 ^ (32 * n)`: everything above the vector length is zero. -/
theorem packLanes_lt (ls : List F32) : (packLanes ls).toNat < 2 ^ (32 * ls.length) := by
  apply Nat.lt_pow_two_of_testBit
  intro n hn
  by_cases h : n < 512
  · rw [BitVec.testBit_toNat, getLsbD_packLanes _ _ h]
    have : ls.length ≤ n / 32 := by omega
    simp [List.getD_eq_getElem?_getD, List.getElem?_eq_none this]
  · rw [BitVec.testBit_toNat]
    exact BitVec.getLsbD_of_ge _ _ (by omega)

/-! ## Exceptions and stops -/

/-- Taking an exception: a fault of that vector, whose state is the state given. -/
theorem raise_spec (e : Exc) (s : State) : ∃ f : Fault, raise e s = .fault f ∧ f.state = s := by
  cases e <;> exact ⟨_, rfl, rfl⟩

theorem raise_ne_next (e : Exc) (s t : State) : raise e s ≠ .next t := by
  cases e <;> simp [raise]

theorem raise_ne_refused (e : Exc) (s : State) (r : Refusal) : raise e s ≠ .refused r := by
  cases e <;> simp [raise]

theorem raise_fault (e : Exc) (s : State) (f : Fault) (h : raise e s = .fault f) : f.state = s := by
  cases e <;> simp [raise] at h <;> subst h <;> rfl

theorem Stop.result_ne_next (q : Stop) (s t : State) : q.result s ≠ .next t := by
  cases q
  · exact raise_ne_next _ _ _
  · simp [Stop.result]

/-- A stop that faults leaves the state as it was. -/
theorem Stop.result_fault (q : Stop) (s : State) (f : Fault) (h : q.result s = .fault f) : f.state = s := by
  cases q
  · exact raise_fault _ _ _ h
  · simp [Stop.result] at h

/-! ## One byte, and `MemRead` -/

/-- A byte comes exactly when its address is canonical and `Translate` answers memory; it is then memory's byte. -/
theorem accessByte_ok_iff (s : State) (kind : Config.AccessKind) (seg : Segment) (a : Addr) (b : Byte) :
    accessByte s kind seg a = .ok b ↔
      canonical s.xlat.la57 a = true ∧ translate s.xlat kind a = .memory ∧ b = s.mem.read a.toNat := by
  unfold accessByte
  split
  · next hc =>
    cases ht : translate s.xlat kind a with
    | memory => simp [hc, eq_comm]
    | pageFault c => simp
    | sideEffects => simp
  · next hc => simp [hc]

/-- No byte comes: a page fault, memory with side effects, or an address that is not canonical. -/
theorem accessByte_error_cases (s : State) (kind : Config.AccessKind) (seg : Segment) (a : Addr) (q : Stop)
    (h : accessByte s kind seg a = .error q) :
    (∃ c, translate s.xlat kind a = .pageFault c ∧ q = .exc (.pf (pageFaultCode c kind s.cpl) a)) ∨
      (translate s.xlat kind a = .sideEffects ∧ q = .refuse .sideEffectMemory) ∨
      (canonical s.xlat.la57 a = false ∧ q = .exc (nonCanonical kind seg)) := by
  unfold accessByte at h
  split at h
  · next hc => split at h <;> simp_all
  · next hc => simp_all

/-- `MemRead` answers `n` bytes exactly when each of them comes. -/
theorem memRead_ok_iff (s : State) (seg : Segment) (n : Nat) (a : Addr) (bs : List Byte) :
    memRead s seg n a = .ok bs ↔
      bs.length = n ∧ ∀ i < n, accessByte s .read seg (a + BitVec.ofNat 64 i) = .ok (bs.getD i 0) := by
  induction n generalizing a bs with
  | zero => cases bs <;> simp [memRead]
  | succ n ih =>
    have hstep : ∀ i, a + BitVec.ofNat 64 (i + 1) = a + 1 + BitVec.ofNat 64 i := by
      intro i
      rw [Nat.add_comm, BitVec.ofNat_add, ← BitVec.add_assoc]
      rfl
    unfold memRead
    cases bs with
    | nil =>
      refine ⟨fun h => ?_, fun h => by simp at h⟩
      split at h
      · cases h
      · split at h <;> cases h
    | cons b bs =>
      constructor
      · intro h
        split at h
        · cases h
        · next b' hb =>
          split at h
          · cases h
          · next bs' hbs =>
            injection h with h
            injection h with h1 h2
            subst h1 h2
            obtain ⟨hl, hall⟩ := (ih (a + 1) bs').1 hbs
            refine ⟨by simp [hl], fun i hi => ?_⟩
            cases i with
            | zero => simpa using hb
            | succ i =>
              rw [hstep]
              simpa using hall i (by omega)
      · rintro ⟨hl, hall⟩
        have h0 : accessByte s .read seg a = .ok b := by simpa using hall 0 (by omega)
        have hrest : memRead s seg n (a + 1) = .ok bs := by
          refine (ih (a + 1) bs).2 ⟨by simpa using hl, fun i hi => ?_⟩
          have := hall (i + 1) (by omega)
          rw [hstep] at this
          simpa using this
        rw [h0]
        simp only [hrest]

/-- `MemRead` stops at the lowest byte that does not come (20_memory.md R58). -/
theorem memRead_error (s : State) (seg : Segment) (n : Nat) (a : Addr) (q : Stop) (h : memRead s seg n a = .error q) :
    ∃ i < n, accessByte s .read seg (a + BitVec.ofNat 64 i) = .error q ∧
      ∀ j < i, ∃ b, accessByte s .read seg (a + BitVec.ofNat 64 j) = .ok b := by
  induction n generalizing a with
  | zero => simp [memRead] at h
  | succ n ih =>
    have hstep : ∀ i, a + BitVec.ofNat 64 (i + 1) = a + 1 + BitVec.ofNat 64 i := by
      intro i
      rw [Nat.add_comm, BitVec.ofNat_add, ← BitVec.add_assoc]
      rfl
    unfold memRead at h
    split at h
    · next q' hq =>
      injection h with h
      subst h
      exact ⟨0, by omega, by simpa using hq, by simp⟩
    · next b hb =>
      split at h
      · next q' hq =>
        injection h with h
        subst h
        obtain ⟨i, hi, he, hall⟩ := ih (a + 1) hq
        refine ⟨i + 1, by omega, by rw [hstep]; exact he, fun j hj => ?_⟩
        cases j with
        | zero => exact ⟨b, by simpa using hb⟩
        | succ j => rw [hstep]; exact hall j (by omega)
      · cases h

/-- `MemRead` ends in `q` exactly when the lowest byte that does not come says so (20_memory.md R58). -/
theorem memRead_error_iff (s : State) (seg : Segment) (n : Nat) (a : Addr) (q : Stop) :
    memRead s seg n a = .error q ↔
      ∃ i < n, accessByte s .read seg (a + BitVec.ofNat 64 i) = .error q ∧
        ∀ j < i, ∃ b, accessByte s .read seg (a + BitVec.ofNat 64 j) = .ok b := by
  refine ⟨memRead_error s seg n a q, fun ⟨i, hi, he, hlow⟩ => ?_⟩
  cases hr : memRead s seg n a with
  | ok bs =>
    have := ((memRead_ok_iff s seg n a bs).1 hr).2 i hi
    rw [he] at this
    cases this
  | error q' =>
    obtain ⟨i', -, he', hlow'⟩ := memRead_error s seg n a q' hr
    rcases Nat.lt_trichotomy i i' with h | h | h
    · obtain ⟨b, hb⟩ := hlow' i h
      rw [he] at hb
      cases hb
    · subst h
      rw [he] at he'
      injection he' with h
      rw [h]
    · obtain ⟨b, hb⟩ := hlow i' h
      rw [he'] at hb
      cases hb

/-- Nothing stops at these addresses exactly when every byte comes. -/
theorem lowestStop_none (s : State) (seg : Segment) (as : List Addr) :
    lowestStop s seg as = none ↔ ∀ a ∈ as, ∃ b, accessByte s .read seg a = .ok b := by
  induction as with
  | nil => simp [lowestStop]
  | cons a as ih =>
    unfold lowestStop
    cases ha : accessByte s .read seg a with
    | ok b => simp [ih, ha]
    | error t =>
      simp only [List.forall_mem_cons, ha, reduceCtorEq, exists_false, false_and, iff_false]
      split
      · simp
      · split <;> simp

/-- What `lowestStop` answers: a byte among them that does not come, and every one at a lower address comes. -/
theorem lowestStop_some (s : State) (seg : Segment) (as : List Addr) (a : Addr) (t : Stop)
    (h : lowestStop s seg as = some (a, t)) :
    a ∈ as ∧ accessByte s .read seg a = .error t ∧ ∀ b ∈ as, b < a → ∃ v, accessByte s .read seg b = .ok v := by
  induction as generalizing a t with
  | nil => simp [lowestStop] at h
  | cons c as ih =>
    unfold lowestStop at h
    cases hc : accessByte s .read seg c with
    | ok v =>
      rw [hc] at h
      obtain ⟨hm, he, hlow⟩ := ih a t h
      refine ⟨List.mem_cons_of_mem _ hm, he, fun b hb hlt => ?_⟩
      rcases List.mem_cons.mp hb with rfl | hb
      · exact ⟨v, hc⟩
      · exact hlow b hb hlt
    | error u =>
      rw [hc] at h
      cases hr : lowestStop s seg as with
      | none =>
        rw [hr] at h
        obtain ⟨rfl, rfl⟩ : c = a ∧ u = t := by simpa using h
        refine ⟨List.mem_cons_self, hc, fun b hb hlt => ?_⟩
        rcases List.mem_cons.mp hb with rfl | hb
        · exact absurd hlt (BitVec.lt_irrefl _)
        · exact (lowestStop_none s seg as).1 hr b hb
      | some x =>
        obtain ⟨d, w⟩ := x
        rw [hr] at h
        obtain ⟨hm, he, hlow⟩ := ih d w hr
        by_cases hdc : d < c
        · obtain ⟨rfl, rfl⟩ : d = a ∧ w = t := by simpa [hdc] using h
          refine ⟨List.mem_cons_of_mem _ hm, he, fun b hb hlt => ?_⟩
          rcases List.mem_cons.mp hb with rfl | hb
          · exact absurd (BitVec.lt_trans hlt hdc) (BitVec.lt_irrefl _)
          · exact hlow b hb hlt
        · obtain ⟨rfl, rfl⟩ : c = a ∧ u = t := by simpa [hdc] using h
          refine ⟨List.mem_cons_self, hc, fun b hb hlt => ?_⟩
          rcases List.mem_cons.mp hb with rfl | hb
          · exact absurd hlt (BitVec.lt_irrefl _)
          · exact hlow b hb (by rw [BitVec.lt_def] at hlt hdc ⊢; omega)

/-- The addresses `bytesRead` lists: those of the lanes that are read. -/
theorem mem_bytesRead (act : List Bool) (a b : Addr) :
    b ∈ bytesRead act a ↔
      ∃ i < 4 * act.length, (act.getD (i / 4) false || !faultSuppression) = true ∧ a + BitVec.ofNat 64 i = b := by
  simp only [bytesRead, List.mem_map, List.mem_filter, List.mem_range, and_assoc]

/-! ## Flags -/

/-- A flag of a union is a flag of some member. -/
theorem getLsbD_unionFlags (fs : List FlagSet) (i : Nat) :
    (unionFlags fs).getLsbD i = true ↔ ∃ f ∈ fs, f.getLsbD i = true := by
  induction fs with
  | nil => simp [unionFlags]
  | cons f fs ih => simp [unionFlags, ih]

/-- The two phases of `SimdFpOutcome` (60_exceptions.md R222), as cases. -/
theorem simdFpOutcome_cases (fs : List FlagSet) (m : FlagSet) :
    (someUnmasked (unionFlags fs &&& preFlags) m = true ∧ simdFpOutcome fs m = .trap (unionFlags fs &&& preFlags)) ∨
      (someUnmasked (unionFlags fs &&& preFlags) m = false ∧ someUnmasked (unionFlags fs) m = true ∧
        simdFpOutcome fs m = .trap (unionFlags fs)) ∨
      (someUnmasked (unionFlags fs) m = false ∧ simdFpOutcome fs m = .deliver (unionFlags fs)) := by
  unfold simdFpOutcome
  by_cases h1 : someUnmasked (unionFlags fs &&& preFlags) m = true
  · exact .inl ⟨h1, by simp [h1]⟩
  · by_cases h2 : someUnmasked (unionFlags fs) m = true
    · exact .inr (.inl ⟨by simpa using h1, h2, by simp [h1, h2]⟩)
    · exact .inr (.inr ⟨by simpa using h2, by simp [h1, h2]⟩)

/-- A delivery has the union of all flags, none of them unmasked. -/
theorem simdFpOutcome_deliver (fs : List FlagSet) (m f : FlagSet) (h : simdFpOutcome fs m = .deliver f) :
    f = unionFlags fs ∧ f &&& ~~~m = 0 := by
  unfold simdFpOutcome at h
  split at h
  · cases h
  · split at h
    · cases h
    · next h2 =>
      injection h with h
      subst h
      exact ⟨rfl, by simpa [someUnmasked] using h2⟩

/-! ## The checks before an operand is read -/

/-- `guarded` answers as `go` does, once nothing before it stops the instruction. -/
theorem guarded_pass (s : State) (len : Nat) (ud : Bool) (go : Result) (h1 : modeRefused s = false)
    (h2 : len ≤ maxLength) (h3 : ud = false) (h4 : crTs s = false) : guarded s len ud go = go := by
  simp [guarded, h1, h3, h4, Nat.not_lt.2 h2]

/-- All that `guarded` can do. -/
theorem guarded_cases (s : State) (len : Nat) (ud : Bool) (go : Result) :
    guarded s len ud go = .refused .modeOutOfScope ∨ guarded s len ud go = raise .gp s ∨
      guarded s len ud go = raise .ud s ∨ guarded s len ud go = raise .nm s ∨
      (guarded s len ud go = go ∧ modeRefused s = false ∧ len ≤ maxLength ∧ ud = false ∧ crTs s = false) := by
  unfold guarded
  split
  · exact .inl rfl
  · split
    · exact .inr (.inl rfl)
    · split
      · exact .inr (.inr (.inl rfl))
      · split
        · exact .inr (.inr (.inr (.inl rfl)))
        · next h1 h2 h3 h4 => exact .inr (.inr (.inr (.inr ⟨rfl, by simpa using h1, by omega, by simpa using h3, by simpa using h4⟩)))

/-- An instruction that gives a next state passed every check. -/
theorem guarded_next (s : State) (len : Nat) (ud : Bool) (go : Result) (t : State) (h : guarded s len ud go = .next t) :
    go = .next t ∧ modeRefused s = false ∧ len ≤ maxLength ∧ ud = false ∧ crTs s = false := by
  rcases guarded_cases s len ud go with e | e | e | e | ⟨e, hs⟩
  · rw [e] at h; cases h
  · rw [e] at h; exact absurd h (raise_ne_next _ _ _)
  · rw [e] at h; exact absurd h (raise_ne_next _ _ _)
  · rw [e] at h; exact absurd h (raise_ne_next _ _ _)
  · exact ⟨e ▸ h, hs⟩

/-- A fault is one of the checks', with the state as it was, or comes from what follows them. -/
theorem guarded_fault (s : State) (len : Nat) (ud : Bool) (go : Result) (f : Fault) (h : guarded s len ud go = .fault f) :
    f.state = s ∨ go = .fault f := by
  rcases guarded_cases s len ud go with e | e | e | e | ⟨e, -⟩
  · rw [e] at h; cases h
  · rw [e] at h; exact .inl (raise_fault _ _ _ h)
  · rw [e] at h; exact .inl (raise_fault _ _ _ h)
  · rw [e] at h; exact .inl (raise_fault _ _ _ h)
  · exact .inr (e ▸ h)

/-! ## The end of an instruction -/

/-- `complete` gives a next state exactly by delivering. -/
theorem complete_next (s : State) (d : BitVec 5) (fs : List FlagSet) (v : Vec) (len : Nat) (t : State)
    (h : complete s d fs v len = .next t) :
    unionFlags fs &&& ~~~(mxMasks s.mxcsr) = 0 ∧ t = writeBack (s.orFlags (unionFlags fs)) d v len := by
  unfold complete at h
  split at h
  · exact absurd h (raise_ne_next _ _ _)
  · next f hf =>
    obtain ⟨rfl, hm⟩ := simdFpOutcome_deliver _ _ _ hf
    injection h with h
    exact ⟨hm, h.symm⟩

/-- With no unmasked flag, `complete` gives a next state. -/
theorem complete_deliver (s : State) (d : BitVec 5) (fs : List FlagSet) (v : Vec) (len : Nat)
    (h : unionFlags fs &&& ~~~(mxMasks s.mxcsr) = 0) :
    complete s d fs v len = .next (writeBack (s.orFlags (unionFlags fs)) d v len) := by
  have h2 : someUnmasked (unionFlags fs) (mxMasks s.mxcsr) = false := by simp [someUnmasked, h]
  have h1 : someUnmasked (unionFlags fs &&& preFlags) (mxMasks s.mxcsr) = false := by
    simp only [someUnmasked, decide_eq_false_iff_not, not_not]
    rw [BitVec.and_assoc, BitVec.and_comm preFlags, ← BitVec.and_assoc, h]
    simp
  simp [complete, simdFpOutcome, h1, h2]

/-- `complete` faults only by #XM or #UD in its place, with flags OR-ed into MXCSR and nothing else changed. -/
theorem complete_fault (s : State) (d : BitVec 5) (fs : List FlagSet) (v : Vec) (len : Nat) (f : Fault)
    (h : complete s d fs v len = .fault f) :
    ∃ g : FlagSet, (g = unionFlags fs ∨ g = unionFlags fs &&& preFlags) ∧ f.state = s.orFlags g ∧
      (f = .simdFloatingPoint (s.orFlags g) ∨ f = .invalidOpcode (s.orFlags g)) := by
  unfold complete at h
  have hr : ∀ g, raiseSimd g s = .fault f →
      f.state = s.orFlags g ∧ (f = .simdFloatingPoint (s.orFlags g) ∨ f = .invalidOpcode (s.orFlags g)) := by
    intro g hg
    unfold raiseSimd at hg
    split at hg <;> simp only [raise] at hg <;> injection hg with hg <;> subst hg <;> simp [Fault.state]
  rcases simdFpOutcome_cases fs (mxMasks s.mxcsr) with ⟨-, e⟩ | ⟨-, -, e⟩ | ⟨-, e⟩
  · rw [e] at h; exact ⟨_, .inr rfl, hr _ h⟩
  · rw [e] at h; exact ⟨_, .inl rfl, hr _ h⟩
  · rw [e] at h; cases h

end Sys2Proof.Machine
end

