-- ==== Sys2Proof/Laws/Fetch.lean ====
section
/-! SUPPORT. What the fetch of an instruction's bytes can answer, and that the bytes it may read are enough. -/

namespace Sys2Proof.Machine

theorem add_ofNat_succ (a : Addr) (i : Nat) : a + BitVec.ofNat 64 (i + 1) = a + 1 + BitVec.ofNat 64 i := by
  rw [Nat.add_comm, BitVec.ofNat_add, ← BitVec.add_assoc]
  rfl

/-- All that `fetchBytes` can do: every byte it gives came, and it gives `n` bytes, or stops at the first that did not come
(92_eei_decisions.md D12). -/
theorem fetchBytes_spec (s : State) (n : Nat) (a : Addr) :
    (∀ i < (fetchBytes s n a).1.length,
      accessByte s .fetch .cs (a + BitVec.ofNat 64 i) = .ok ((fetchBytes s n a).1.getD i 0)) ∧
    (((fetchBytes s n a).1.length = n ∧ (fetchBytes s n a).2 = none) ∨
      ∃ t, (fetchBytes s n a).2 = some t ∧ (fetchBytes s n a).1.length < n ∧
        accessByte s .fetch .cs (a + BitVec.ofNat 64 (fetchBytes s n a).1.length) = .error t) := by
  induction n generalizing a with
  | zero => simp [fetchBytes]
  | succ n ih =>
    cases h : accessByte s .fetch .cs a with
    | error t => simp [fetchBytes, h]
    | ok b =>
      obtain ⟨h1, h2⟩ := ih (a + 1)
      have e : fetchBytes s (n + 1) a = (b :: (fetchBytes s n (a + 1)).1, (fetchBytes s n (a + 1)).2) := by
        simp [fetchBytes, h]
      rw [e]
      refine ⟨fun i hi => ?_, ?_⟩
      · cases i with
        | zero => simpa using h
        | succ i =>
          rw [add_ofNat_succ]
          simpa using h1 i (by simpa using hi)
      · rcases h2 with ⟨h2, h3⟩ | ⟨t, h2, h3, h4⟩
        · exact .inl ⟨by rw [List.length_cons, h2], h3⟩
        · exact .inr ⟨t, h2, by rw [List.length_cons]; omega, by rw [List.length_cons, add_ofNat_succ]; exact h4⟩

/-! ## The bytes are enough -/

/-- A byte other than `unlistedByte` is listed. -/
theorem Memory.read_listed (m : Memory) (a : Nat) (h : m.read a ≠ unlistedByte) : a ∈ m.map Prod.fst := by
  induction m with
  | nil => exact absurd rfl h
  | cons c m ih =>
    by_cases hc : c.1 = a
    · simp [hc]
    · exact List.mem_cons_of_mem _ (ih (by simpa [Memory.read, hc] using h))

/-- Memory lists at least as many bytes as a run of fewer than 2^64 of them that are not `unlistedByte`. -/
theorem Memory.length_of_run (m : Memory) (a : Addr) (n : Nat) (hn : n ≤ 2 ^ 64)
    (h : ∀ i < n, m.read (a + BitVec.ofNat 64 i).toNat ≠ unlistedByte) : n ≤ m.length := by
  let ks := (List.range n).map fun i => (a + BitVec.ofNat 64 i).toNat
  have hnd : ks.Nodup := by
    refine List.Nodup.map_on ?_ List.nodup_range
    intro i hi j hj e
    have hi := List.mem_range.1 hi
    have hj := List.mem_range.1 hj
    have e := BitVec.eq_of_toNat_eq e
    have e := congrArg BitVec.toNat (add_left_cancel e)
    simp only [BitVec.toNat_ofNat] at e
    omega
  have hsub : ks ⊆ m.map Prod.fst := by
    intro x hx
    obtain ⟨i, hi, rfl⟩ := List.mem_map.1 hx
    exact Memory.read_listed _ _ (h i (List.mem_range.1 hi))
  have := (List.subperm_of_subset hnd hsub).length_le
  simpa [ks] using this

theorem legacyOf_unlisted : legacyOf unlistedByte = none := by decide +kernel

/-- No run of bytes that can be fetched goes round the address space: some address is not canonical. -/
theorem fetch_run_lt (s : State) (a : Addr) (n : Nat)
    (h : ∀ i < n, ∃ b, accessByte s .fetch .cs (a + BitVec.ofNat 64 i) = .ok b) : n < 2 ^ 64 := by
  apply Nat.lt_of_not_le
  intro hn
  obtain ⟨b, hb⟩ := h ((2 ^ 63 : Addr) - a).toNat (by have := ((2 ^ 63 : Addr) - a).isLt; omega)
  have hc := ((accessByte_ok_iff _ _ _ _ _).1 hb).1
  rw [BitVec.ofNat_toNat, BitVec.setWidth_eq, BitVec.add_comm, BitVec.sub_add_cancel] at hc
  have hno : ∀ la57 : Bool, canonical la57 (2 ^ 63 : Addr) = false := by decide +kernel
  rw [hno] at hc
  cases hc

/-- The fetch reads enough: bytes that still want more end at one that does not come (60_exceptions.md R231 step 1; log 12). -/
theorem fetchLimit_suffices (s : State) (a : Addr) (h : decode (fetchBytes s (fetchLimit s) a).1 = .needMore) :
    ∃ t, (fetchBytes s (fetchLimit s) a).2 = some t := by
  obtain ⟨hb, hl⟩ := fetchBytes_spec s (fetchLimit s) a
  rcases hl with ⟨hl, -⟩ | ⟨t, ht, -⟩
  · have hl : (fetchBytes s (fetchLimit s) a).1.length = s.mem.length + 15 := hl
    have hlt := fetch_run_lt s a _ fun i hi => ⟨_, hb i hi⟩
    exfalso
    generalize (fetchBytes s (fetchLimit s) a).1 = bs at h hb hl hlt
    have htail := decodeBody_needMore _ _ h
    have hlen := splitLegacy_length bs
    have := Memory.length_of_run s.mem a (splitLegacy bs).1.length (by omega) fun i hi e => by
      obtain ⟨-, -, hm⟩ := (accessByte_ok_iff _ _ _ _ _).1 (hb i (by omega))
      obtain ⟨q, hq⟩ := splitLegacy_run bs i hi
      rw [hm, e, legacyOf_unlisted] at hq
      cases hq
    omega
  · exact ⟨t, ht⟩

end Sys2Proof.Machine
end

