-- ==== Sys2Proof/Laws/Lane.lean ====
section
/-! SUPPORT. The lane arithmetic's small lemmas: the fields of a made datum, and all that `roundInt` can do. -/

namespace Sys2Proof.Machine

/-! ## Fields of a datum made from its parts -/

/-- A bit of a made datum: fraction, then exponent, then sign. -/
theorem getLsbD_f32Make (s : Bool) (e f i : Nat) :
    (f32Make s e f).getLsbD i =
      if i < 23 then (BitVec.ofNat 23 f).getLsbD i
      else if i - 23 < 8 then (BitVec.ofNat 8 e).getLsbD (i - 23) else (BitVec.ofBool s).getLsbD (i - 23 - 8) := by
  show (BitVec.ofBool s ++ BitVec.ofNat 8 e ++ BitVec.ofNat 23 f : BitVec (1 + 8 + 23)).getLsbD i = _
  rw [BitVec.getLsbD_append, BitVec.getLsbD_append]

theorem f32Sign_make (s : Bool) (e f : Nat) : f32Sign (f32Make s e f) = s := by
  rw [f32Sign, getLsbD_f32Make]
  simp

theorem f32Exp_make (s : Bool) (e f : Nat) : f32Exp (f32Make s e f) = e % 256 := by
  have : (f32Make s e f).extractLsb' 23 8 = BitVec.ofNat 8 e := by
    apply BitVec.eq_of_getLsbD_eq
    intro i hi
    rw [BitVec.getLsbD_extractLsb', getLsbD_f32Make]
    simp [hi]
  simp [f32Exp, this, BitVec.toNat_ofNat]

theorem f32Frac_make (s : Bool) (e f : Nat) : f32Frac (f32Make s e f) = f % 2 ^ 23 := by
  have : (f32Make s e f).extractLsb' 0 23 = BitVec.ofNat 23 f := by
    apply BitVec.eq_of_getLsbD_eq
    intro i hi
    rw [BitVec.getLsbD_extractLsb', getLsbD_f32Make]
    simp [hi]
  simp [f32Frac, this, BitVec.toNat_ofNat]

theorem f32Exp_lt (v : F32) : f32Exp v < 256 := (v.extractLsb' 23 8).isLt

theorem f32Frac_lt (v : F32) : f32Frac v < 2 ^ 23 := (v.extractLsb' 0 23).isLt

/-! ## Rounding to an integer -/

/-- All that `roundInt` can do: an exact quotient stays; otherwise the answer is the quotient rounded down or up, and is
marked inexact. -/
theorem roundInt_cases (num den : Nat) (s : Bool) (rm : RoundMode) :
    (num % den = 0 ∧ roundInt num den s rm = (num / den, false)) ∨
      (num % den ≠ 0 ∧ (roundInt num den s rm = (num / den, true) ∨ roundInt num den s rm = (num / den + 1, true))) := by
  unfold roundInt
  by_cases h : num % den = 0
  · exact .inl ⟨h, by simp [h]⟩
  · refine .inr ⟨h, ?_⟩
    simp only [h, if_false]
    cases rm <;> simp only <;> split <;> simp

/-- The rounding that goes toward zero keeps the quotient (40_fnmsub_lane_arithmetic.md R142). -/
theorem roundInt_rz (num den : Nat) (s : Bool) : (roundInt num den s .rz).1 = num / den := by
  unfold roundInt; split <;> rfl

/-- Rounding is inexact exactly when the division leaves a remainder. -/
theorem roundInt_inexact (num den : Nat) (s : Bool) (rm : RoundMode) :
    (roundInt num den s rm).2 = true ↔ num % den ≠ 0 := by
  rcases roundInt_cases num den s rm with ⟨h, e⟩ | ⟨h, e | e⟩ <;> simp [e, h]

end Sys2Proof.Machine
end

