-- ==== Sys2Proof/Laws/Outcome.lean ====
section
/-! SUPPORT. Small lemmas of the terms in which outcomes are compared: `withState` and `stopOutcome`. -/

namespace Sys2Proof.Safety

open Sys2Proof.Machine

@[simp] theorem state_withState (f : Fault) (t : State) : (withState f t).state = t := by cases f <;> rfl

@[simp] theorem withState_state (f : Fault) : withState f f.state = f := by cases f <;> rfl

@[simp] theorem withState_withState (f : Fault) (t u : State) : withState (withState f t) u = withState f u := by
  cases f <;> rfl

@[simp] theorem vector_withState (f : Fault) (t : State) : (withState f t).vector = f.vector := by cases f <;> rfl

@[simp] theorem errorCode_withState (f : Fault) (t : State) : (withState f t).errorCode = f.errorCode := by cases f <;> rfl

@[simp] theorem faultAddress_withState (f : Fault) (t : State) : (withState f t).faultAddress = f.faultAddress := by
  cases f <;> rfl

/-- Every exception is raised as a fault that leaves the state, and at another state as the same fault. -/
theorem raise_withState (e : Exc) (s t : State) :
    ∃ g : Fault, raise e s = .fault g ∧ g.state = s ∧ raise e t = .fault (withState g t) := by
  cases e <;> exact ⟨_, rfl, rfl, rfl⟩

/-- What stops the access of a byte is one of the cases of `stopOutcome`. -/
theorem stopOutcome_of_accessByte (s : State) (kind : Config.AccessKind) (seg : Segment) (a : Addr) (q : Stop)
    (h : accessByte s kind seg a = .error q) : stopOutcome q s (q.result s) := by
  rcases accessByte_error_cases s kind seg a q h with ⟨c, -, rfl⟩ | ⟨-, rfl⟩ | ⟨-, rfl⟩
  · exact .inr (.inr (.inl ⟨_, _, rfl, rfl⟩))
  · exact .inr (.inr (.inr ⟨_, rfl, rfl⟩))
  · cases kind with
    | fetch => exact .inr (.inl ⟨rfl, rfl⟩)
    | read =>
      by_cases hs : seg = .ss
      · subst hs
        exact .inl ⟨rfl, rfl⟩
      · exact .inr (.inl ⟨by simp [nonCanonical, hs], by simp [nonCanonical, hs, Stop.result, raise]⟩)

end Sys2Proof.Safety
end

