-- ==== Sys2Proof/Laws/PerInstr.lean ====
section
/-! SUPPORT. Statements about every instruction, one lemma per constructor: an encoding has as many bytes as
30_encoding.md R110 counts. -/

namespace Sys2Proof.Laws.EncodingLength

/-- The encoder writes as many bytes as the instruction's length says (30_encoding.md R110). -/
def Statement (i : Instr) : Prop := (encode i).length = i.length

theorem vfnmsub132VexXmm (p : List LegacyPrefix) (d s2 : BitVec 4) (o : VexOp3) :
    Statement (.vfnmsub132VexXmm p d s2 o) := encodeVex_length _ _ _ _ _ _

theorem vfnmsub213VexXmm (p : List LegacyPrefix) (d s2 : BitVec 4) (o : VexOp3) :
    Statement (.vfnmsub213VexXmm p d s2 o) := encodeVex_length _ _ _ _ _ _

theorem vfnmsub231VexXmm (p : List LegacyPrefix) (d s2 : BitVec 4) (o : VexOp3) :
    Statement (.vfnmsub231VexXmm p d s2 o) := encodeVex_length _ _ _ _ _ _

theorem vfnmsub132VexYmm (p : List LegacyPrefix) (d s2 : BitVec 4) (o : VexOp3) :
    Statement (.vfnmsub132VexYmm p d s2 o) := encodeVex_length _ _ _ _ _ _

theorem vfnmsub213VexYmm (p : List LegacyPrefix) (d s2 : BitVec 4) (o : VexOp3) :
    Statement (.vfnmsub213VexYmm p d s2 o) := encodeVex_length _ _ _ _ _ _

theorem vfnmsub231VexYmm (p : List LegacyPrefix) (d s2 : BitVec 4) (o : VexOp3) :
    Statement (.vfnmsub231VexYmm p d s2 o) := encodeVex_length _ _ _ _ _ _

theorem vfnmsub132EvexXmm (p : List LegacyPrefix) (k : Masking) (d s2 : BitVec 5) (o : EvexOp3) :
    Statement (.vfnmsub132EvexXmm p k d s2 o) := by
  simp only [Statement, encode, encodeEvex_length, Instr.length, evexLength, evexOp3_tail_length]

theorem vfnmsub213EvexXmm (p : List LegacyPrefix) (k : Masking) (d s2 : BitVec 5) (o : EvexOp3) :
    Statement (.vfnmsub213EvexXmm p k d s2 o) := by
  simp only [Statement, encode, encodeEvex_length, Instr.length, evexLength, evexOp3_tail_length]

theorem vfnmsub231EvexXmm (p : List LegacyPrefix) (k : Masking) (d s2 : BitVec 5) (o : EvexOp3) :
    Statement (.vfnmsub231EvexXmm p k d s2 o) := by
  simp only [Statement, encode, encodeEvex_length, Instr.length, evexLength, evexOp3_tail_length]

theorem vfnmsub132EvexYmm (p : List LegacyPrefix) (k : Masking) (d s2 : BitVec 5) (o : EvexOp3) :
    Statement (.vfnmsub132EvexYmm p k d s2 o) := by
  simp only [Statement, encode, encodeEvex_length, Instr.length, evexLength, evexOp3_tail_length]

theorem vfnmsub213EvexYmm (p : List LegacyPrefix) (k : Masking) (d s2 : BitVec 5) (o : EvexOp3) :
    Statement (.vfnmsub213EvexYmm p k d s2 o) := by
  simp only [Statement, encode, encodeEvex_length, Instr.length, evexLength, evexOp3_tail_length]

theorem vfnmsub231EvexYmm (p : List LegacyPrefix) (k : Masking) (d s2 : BitVec 5) (o : EvexOp3) :
    Statement (.vfnmsub231EvexYmm p k d s2 o) := by
  simp only [Statement, encode, encodeEvex_length, Instr.length, evexLength, evexOp3_tail_length]

theorem vfnmsub132EvexZmm (p : List LegacyPrefix) (k : Masking) (d s2 : BitVec 5) (o : EvexOp3) :
    Statement (.vfnmsub132EvexZmm p k d s2 o) := by
  simp only [Statement, encode, encodeEvex_length, Instr.length, evexLength, evexOp3_tail_length]

theorem vfnmsub213EvexZmm (p : List LegacyPrefix) (k : Masking) (d s2 : BitVec 5) (o : EvexOp3) :
    Statement (.vfnmsub213EvexZmm p k d s2 o) := by
  simp only [Statement, encode, encodeEvex_length, Instr.length, evexLength, evexOp3_tail_length]

theorem vfnmsub231EvexZmm (p : List LegacyPrefix) (k : Masking) (d s2 : BitVec 5) (o : EvexOp3) :
    Statement (.vfnmsub231EvexZmm p k d s2 o) := by
  simp only [Statement, encode, encodeEvex_length, Instr.length, evexLength, evexOp3_tail_length]

theorem vfnmsub132EvexZmmEr (p : List LegacyPrefix) (k : Masking) (d s2 s3 : BitVec 5) (rc : RoundMode) :
    Statement (.vfnmsub132EvexZmmEr p k d s2 s3 rc) := encodeEvex_length _ _ _ _ _ _ _ _

theorem vfnmsub213EvexZmmEr (p : List LegacyPrefix) (k : Masking) (d s2 s3 : BitVec 5) (rc : RoundMode) :
    Statement (.vfnmsub213EvexZmmEr p k d s2 s3 rc) := encodeEvex_length _ _ _ _ _ _ _ _

theorem vfnmsub231EvexZmmEr (p : List LegacyPrefix) (k : Masking) (d s2 s3 : BitVec 5) (rc : RoundMode) :
    Statement (.vfnmsub231EvexZmmEr p k d s2 s3 rc) := encodeEvex_length _ _ _ _ _ _ _ _

end Sys2Proof.Laws.EncodingLength
end

