-- ==== Sys2Proof/Laws/Templates.lean ====
section
/-! SUPPORT. What each template of Machine/Packed.lean can answer: when it gives a next state, which one, and what its
faults leave. -/

namespace Sys2Proof.Machine

/-- The lanes a VEX form computes with. -/
def vexLanes (f : Form) (d s2 : BitVec 4) (src3 : List F32) (s : State) : Lanes :=
  ⟨f, mxControl s.mxcsr, s.getZmm (vexReg d), s.getZmm (vexReg s2), src3⟩

/-- The lanes an EVEX form computes with. -/
def evexLanes (f : Form) (d s2 : BitVec 5) (src3 : List F32) (s : State) : Lanes :=
  ⟨f, mxControl s.mxcsr, s.getZmm d, s.getZmm s2, src3⟩

/-- The lanes an embedded-rounding form computes with. -/
def erLanes (f : Form) (d s2 s3 : BitVec 5) (rc : RoundMode) (s : State) : Lanes :=
  ⟨f, erControl rc s.mxcsr, s.getZmm d, s.getZmm s2, registerLanes s s3 16⟩

/-- A VEX form that passes the checks, reads its operand and signals no unmasked flag: its next state. -/
theorem execVex_completes (f : Form) (kl : Nat) (p : List LegacyPrefix) (d s2 : BitVec 4) (o : VexOp3) (s : State)
    (src3 : List F32) (h1 : modeRefused s = false) (h2 : vexLength p o ≤ maxLength) (h3 : vexUd s p = false)
    (h4 : crTs s = false) (h5 : readVexOp3 s p kl o = .ok src3)
    (h6 : unionFlags ((vexLanes f d s2 src3 s).flags (List.replicate kl true)) &&& ~~~(mxMasks s.mxcsr) = 0) :
    execVex f kl p d s2 o s =
      .next (writeBack (s.orFlags (unionFlags ((vexLanes f d s2 src3 s).flags (List.replicate kl true)))) (vexReg d)
        (packLanes ((vexLanes f d s2 src3 s).new (List.replicate kl true) false)) (vexLength p o)) := by
  unfold execVex
  rw [guarded_pass _ _ _ _ h1 h2 h3 h4, h5]
  exact complete_deliver _ _ _ _ _ h6

/-- A VEX form gives a next state only so. -/
theorem execVex_next (f : Form) (kl : Nat) (p : List LegacyPrefix) (d s2 : BitVec 4) (o : VexOp3) (s t : State)
    (h : execVex f kl p d s2 o s = .next t) :
    modeRefused s = false ∧ vexLength p o ≤ maxLength ∧ vexUd s p = false ∧ crTs s = false ∧
      ∃ src3, readVexOp3 s p kl o = .ok src3 ∧
        unionFlags ((vexLanes f d s2 src3 s).flags (List.replicate kl true)) &&& ~~~(mxMasks s.mxcsr) = 0 ∧
        t = writeBack (s.orFlags (unionFlags ((vexLanes f d s2 src3 s).flags (List.replicate kl true)))) (vexReg d)
          (packLanes ((vexLanes f d s2 src3 s).new (List.replicate kl true) false)) (vexLength p o) := by
  unfold execVex at h
  obtain ⟨h, h1, h2, h3, h4⟩ := guarded_next _ _ _ _ _ h
  refine ⟨h1, h2, h3, h4, ?_⟩
  split at h
  · exact absurd h (Stop.result_ne_next _ _ _)
  · next src3 hr =>
    obtain ⟨hm, ht⟩ := complete_next _ _ _ _ _ _ h
    exact ⟨src3, hr, hm, ht⟩

/-- A VEX form's fault leaves the state as it was, or with flags OR-ed into MXCSR. -/
theorem execVex_fault (f : Form) (kl : Nat) (p : List LegacyPrefix) (d s2 : BitVec 4) (o : VexOp3) (s : State) (q : Fault)
    (h : execVex f kl p d s2 o s = .fault q) :
    q.state = s ∨ ∃ src3 g, readVexOp3 s p kl o = .ok src3 ∧
      (g = unionFlags ((vexLanes f d s2 src3 s).flags (List.replicate kl true)) ∨
        g = unionFlags ((vexLanes f d s2 src3 s).flags (List.replicate kl true)) &&& preFlags) ∧
      q.state = s.orFlags g ∧ (q = .simdFloatingPoint (s.orFlags g) ∨ q = .invalidOpcode (s.orFlags g)) := by
  unfold execVex at h
  rcases guarded_fault _ _ _ _ _ h with h | h
  · exact .inl h
  · split at h
    · exact .inl (Stop.result_fault _ _ _ h)
    · next src3 hr =>
      obtain ⟨g, hg, hs, hf⟩ := complete_fault _ _ _ _ _ _ h
      exact .inr ⟨src3, g, hr, hg, hs, hf⟩

/-- An EVEX form that passes the checks, reads its operand and signals no unmasked flag: its next state. -/
theorem execEvex_completes (f : Form) (kl : Nat) (p : List LegacyPrefix) (k : Masking) (d s2 : BitVec 5) (o : EvexOp3)
    (s : State) (src3 : List F32) (h1 : modeRefused s = false) (h2 : evexLength p o ≤ maxLength)
    (h3 : evexUd s p k kl = false) (h4 : crTs s = false) (h5 : readEvexOp3 s p (activeLanes s k kl) o = .ok src3)
    (h6 : unionFlags ((evexLanes f d s2 src3 s).flags (activeLanes s k kl)) &&& ~~~(mxMasks s.mxcsr) = 0) :
    execEvex f kl p k d s2 o s =
      .next (writeBack (s.orFlags (unionFlags ((evexLanes f d s2 src3 s).flags (activeLanes s k kl)))) d
        (packLanes ((evexLanes f d s2 src3 s).new (activeLanes s k kl) k.z)) (evexLength p o)) := by
  unfold execEvex
  rw [guarded_pass _ _ _ _ h1 h2 h3 h4, h5]
  exact complete_deliver _ _ _ _ _ h6

/-- An EVEX form gives a next state only so. -/
theorem execEvex_next (f : Form) (kl : Nat) (p : List LegacyPrefix) (k : Masking) (d s2 : BitVec 5) (o : EvexOp3)
    (s t : State) (h : execEvex f kl p k d s2 o s = .next t) :
    modeRefused s = false ∧ evexLength p o ≤ maxLength ∧ evexUd s p k kl = false ∧ crTs s = false ∧
      ∃ src3, readEvexOp3 s p (activeLanes s k kl) o = .ok src3 ∧
        unionFlags ((evexLanes f d s2 src3 s).flags (activeLanes s k kl)) &&& ~~~(mxMasks s.mxcsr) = 0 ∧
        t = writeBack (s.orFlags (unionFlags ((evexLanes f d s2 src3 s).flags (activeLanes s k kl)))) d
          (packLanes ((evexLanes f d s2 src3 s).new (activeLanes s k kl) k.z)) (evexLength p o) := by
  unfold execEvex at h
  obtain ⟨h, h1, h2, h3, h4⟩ := guarded_next _ _ _ _ _ h
  refine ⟨h1, h2, h3, h4, ?_⟩
  split at h
  · exact absurd h (Stop.result_ne_next _ _ _)
  · next src3 hr =>
    obtain ⟨hm, ht⟩ := complete_next _ _ _ _ _ _ h
    exact ⟨src3, hr, hm, ht⟩

/-- An EVEX form's fault leaves the state as it was, or with flags OR-ed into MXCSR. -/
theorem execEvex_fault (f : Form) (kl : Nat) (p : List LegacyPrefix) (k : Masking) (d s2 : BitVec 5) (o : EvexOp3)
    (s : State) (q : Fault) (h : execEvex f kl p k d s2 o s = .fault q) :
    q.state = s ∨ ∃ src3 g, readEvexOp3 s p (activeLanes s k kl) o = .ok src3 ∧
      (g = unionFlags ((evexLanes f d s2 src3 s).flags (activeLanes s k kl)) ∨
        g = unionFlags ((evexLanes f d s2 src3 s).flags (activeLanes s k kl)) &&& preFlags) ∧
      q.state = s.orFlags g ∧ (q = .simdFloatingPoint (s.orFlags g) ∨ q = .invalidOpcode (s.orFlags g)) := by
  unfold execEvex at h
  rcases guarded_fault _ _ _ _ _ h with h | h
  · exact .inl h
  · split at h
    · exact .inl (Stop.result_fault _ _ _ h)
    · next src3 hr =>
      obtain ⟨g, hg, hs, hf⟩ := complete_fault _ _ _ _ _ _ h
      exact .inr ⟨src3, g, hr, hg, hs, hf⟩

/-- An embedded-rounding form that passes the checks: its next state. -/
theorem execEr_completes (f : Form) (p : List LegacyPrefix) (k : Masking) (d s2 s3 : BitVec 5) (rc : RoundMode) (s : State)
    (h1 : modeRefused s = false) (h2 : evexLength p (.reg s3) ≤ maxLength) (h3 : evexUd s p k 16 = false)
    (h4 : crTs s = false) :
    execEr f p k d s2 s3 rc s =
      .next (writeBack s d (packLanes ((erLanes f d s2 s3 rc s).new (activeLanes s k 16) k.z))
        (evexLength p (.reg s3))) := by
  unfold execEr
  rw [guarded_pass _ _ _ _ h1 h2 h3 h4]
  rfl

/-- An embedded-rounding form gives a next state only so. -/
theorem execEr_next (f : Form) (p : List LegacyPrefix) (k : Masking) (d s2 s3 : BitVec 5) (rc : RoundMode) (s t : State)
    (h : execEr f p k d s2 s3 rc s = .next t) :
    modeRefused s = false ∧ evexLength p (.reg s3) ≤ maxLength ∧ evexUd s p k 16 = false ∧ crTs s = false ∧
      t = writeBack s d (packLanes ((erLanes f d s2 s3 rc s).new (activeLanes s k 16) k.z))
        (evexLength p (.reg s3)) := by
  obtain ⟨-, h1, h2, h3, h4⟩ := guarded_next _ _ _ _ _ h
  rw [execEr_completes f p k d s2 s3 rc s h1 h2 h3 h4] at h
  injection h with h
  exact ⟨h1, h2, h3, h4, h.symm⟩

/-- An embedded-rounding form's fault leaves the state as it was. -/
theorem execEr_fault (f : Form) (p : List LegacyPrefix) (k : Masking) (d s2 s3 : BitVec 5) (rc : RoundMode) (s : State)
    (q : Fault) (h : execEr f p k d s2 s3 rc s = .fault q) : q.state = s := by
  unfold execEr at h
  rcases guarded_fault _ _ _ _ _ h with h | h
  · exact h
  · cases h

/-- The flag sets of the lanes: an active lane's own, none of an inactive one (42_vfnmsub_evex.md R191). -/
theorem Lanes.mem_flags (l : Lanes) (act : List Bool) (g : FlagSet) :
    g ∈ l.flags act ↔ ∃ j < act.length, g = if act.getD j false then (l.out j).fl else 0 := by
  rw [Lanes.flags, List.mem_map]
  refine ⟨fun ⟨j, hj, h⟩ => ⟨j, List.mem_range.1 hj, h.symm⟩, fun ⟨j, hj, h⟩ => ⟨j, List.mem_range.2 hj, h.symm⟩⟩

/-- Lane `j` of the new destination (42_vfnmsub_evex.md R190 step 6). -/
theorem lane_packLanes_new (l : Lanes) (act : List Bool) (z : Bool) (j : Nat) (hl : act.length ≤ 16) (hj : j < act.length) :
    lane (packLanes (l.new act z)) j =
      if act.getD j false then (l.out j).r.getD 0 else if z then 0 else lane l.dest j := by
  rw [lane_packLanes _ _ (by omega)]
  simp [Lanes.new, List.getD_eq_getElem?_getD, hj]

/-- Lanes above the vector length are zero (41_vfnmsub_vex.md R173, 42_vfnmsub_evex.md R196). -/
theorem lane_packLanes_above (l : Lanes) (act : List Bool) (z : Bool) (j : Nat) (hj : act.length ≤ j) (h16 : j < 16) :
    lane (packLanes (l.new act z)) j = 0 := by
  rw [lane_packLanes _ _ h16]
  simp [Lanes.new, List.getD_eq_getElem?_getD, hj]

@[simp] theorem activeLanes_length (s : State) (k : Masking) (kl : Nat) : (activeLanes s k kl).length = kl := by
  simp [activeLanes]

/-- Which lanes are active (42_vfnmsub_evex.md R191). -/
theorem activeLanes_getD (s : State) (k : Masking) (kl j : Nat) (hj : j < kl) :
    (activeLanes s k kl).getD j false = (decide (k.aaa = 0) || (s.getK k.aaa).getLsbD j) := by
  simp [activeLanes, List.getD_eq_getElem?_getD, hj]

end Sys2Proof.Machine
end

