-- ==== Sys2Proof/Tests/Slice0.lean ====
section
/-! SUPPORT. Tests on fixed values. Expected results come from spec/95_test_vectors.md and the worked examples of
41_vfnmsub_vex.md and 42_vfnmsub_evex.md, or are worked out by hand from a rule where a comment says so. -/

namespace Sys2Proof.Tests

-- One thread: a theorem's kernel evaluation at a time.
set_option Elab.async false

open Sys2Proof.Machine

/-! ## Helpers -/

/-- A launch state (70_reset_and_hazards.md R263): 64-bit mode, everything enabled, #XM handled, `rip` = 1000H. -/
def launch : State :=
  { State.reset with mode := .mode64, rip := 0x1000, cr4 := 0x40400, xcr0 := 0xE7 }

/-- Set vector register `r` from its lanes. -/
def zmm (r : BitVec 5) (ls : List F32) (s : State) : State := s.setZmm r (packLanes ls)

/-- Set opmask register `r`. -/
def kreg (r : BitVec 3) (v : BitVec 64) (s : State) : State := { s with k := s.k.set r.toNat v }

/-- Set RAX. -/
def rax (v : BitVec 64) (s : State) : State := { s with gpr := s.gpr.set 0 v }

/-- Set MXCSR. -/
def mx (v : BitVec 32) (s : State) : State := { s with mxcsr := v }

/-- Put 32-bit data at an address, little-endian. -/
def data (a : Addr) (ls : List F32) (s : State) : State := s.memWrite a (ls.flatMap bytes32)

/-- Put instruction bytes at `rip` and take one step. -/
def run (bs : List Byte) (s : State) : Result := step (s.memWrite s.rip bs)

/-- Lanes 0 to `n - 1` of a register, MXCSR and `rip` after a next state. -/
def seen (d : BitVec 5) (n : Nat) (r : Result) : Option (List F32 × BitVec 32 × Addr) :=
  match r with
  | .next t => some ((List.range n).map (lane (t.getZmm d)), t.mxcsr, t.rip)
  | .fault _ => none
  | .refused _ => none

/-- Vector, MXCSR, `rip`, fault address, and lanes of a register after a fault. -/
def faulted (d : BitVec 5) (n : Nat) (r : Result) : Option (Nat × BitVec 32 × Addr × Option Addr × List F32) :=
  match r with
  | .next _ => none
  | .fault f =>
    some (f.vector, f.state.mxcsr, f.state.rip, f.faultAddress, (List.range n).map (lane (f.state.getZmm d)))
  | .refused _ => none

/-- The vector of a fault. -/
def vectorOf (r : Result) : Option Nat :=
  match r with
  | .next _ => none
  | .fault f => some f.vector
  | .refused _ => none

/-- The refusal. -/
def refusalOf (r : Result) : Option Refusal :=
  match r with
  | .next _ => none
  | .fault _ => none
  | .refused q => some q

/-- The decoded instruction and its length, when the bytes are exactly one instruction. -/
def decoded (bs : List Byte) : Option (Instr × Nat) :=
  match decode bs with
  | .instr i [] => some (i, i.length)
  | _ => none

/-- The instruction at the front of more bytes. -/
def decodedFront (bs : List Byte) : Option Instr :=
  match decode bs with
  | .instr i _ => some i
  | _ => none

/-! ## Decoding: one word per constructor, written from the patterns of 30_encoding.md R84, R87 -/

theorem test_decode_vfnmsub132VexXmm :
    decoded [0b11000100, 0b11100010, 0b01110001, 0b10011110, 0b11000010] =
      some (.vfnmsub132VexXmm [] 0 1 (.reg 2), 5) := by decide +kernel
theorem test_decode_vfnmsub213VexXmm :
    decoded [0b11000100, 0b11100010, 0b01110001, 0b10101110, 0b11000010] =
      some (.vfnmsub213VexXmm [] 0 1 (.reg 2), 5) := by decide +kernel
/-- Vector E3: registers 9, 14, 15. -/
theorem test_decode_vfnmsub231VexXmm :
    decoded [0b11000100, 0b01000010, 0b00001001, 0b10111110, 0b11001111] =
      some (.vfnmsub231VexXmm [] 9 14 (.reg 15), 5) := by decide +kernel
/-- Vector E4. -/
theorem test_decode_vfnmsub132VexYmm :
    decoded [0b11000100, 0b11100010, 0b01011101, 0b10011110, 0b00011000] =
      some (.vfnmsub132VexYmm [] 3 4 (.mem (.base 0 .none)), 5) := by decide +kernel
theorem test_decode_vfnmsub213VexYmm :
    decoded [0b11000100, 0b11100010, 0b01110101, 0b10101110, 0b11000010] =
      some (.vfnmsub213VexYmm [] 0 1 (.reg 2), 5) := by decide +kernel
theorem test_decode_vfnmsub231VexYmm :
    decoded [0b11000100, 0b11100010, 0b01110101, 0b10111110, 0b11000010] =
      some (.vfnmsub231VexYmm [] 0 1 (.reg 2), 5) := by decide +kernel
/-- Vector E13. -/
theorem test_decode_vfnmsub132EvexXmm :
    decoded [0b01100010, 0b11110010, 0b01110101, 0b00001000, 0b10011110, 0b11000010] =
      some (.vfnmsub132EvexXmm [] ⟨0, false⟩ 0 1 (.reg 2), 6) := by decide +kernel
/-- Vector E22. -/
theorem test_decode_vfnmsub213EvexXmm :
    decoded [0b01100010, 0b11110010, 0b01011101, 0b00011010, 0b10101110, 0b00011000] =
      some (.vfnmsub213EvexXmm [] ⟨2, false⟩ 3 4 (.bcst (.base 0 .none)), 6) := by decide +kernel
theorem test_decode_vfnmsub231EvexXmm :
    decoded [0b01100010, 0b11110010, 0b01110101, 0b10001001, 0b10111110, 0b11000010] =
      some (.vfnmsub231EvexXmm [] ⟨1, true⟩ 0 1 (.reg 2), 6) := by decide +kernel
theorem test_decode_vfnmsub132EvexYmm :
    decoded [0b01100010, 0b11110010, 0b01110101, 0b00101001, 0b10011110, 0b11000010] =
      some (.vfnmsub132EvexYmm [] ⟨1, false⟩ 0 1 (.reg 2), 6) := by decide +kernel
/-- Vector E20: disp8 = 01H. -/
theorem test_decode_vfnmsub213EvexYmm :
    decoded [0b01100010, 0b11110010, 0b01110101, 0b00101000, 0b10101110, 0b01000000, 0b00000001] =
      some (.vfnmsub213EvexYmm [] ⟨0, false⟩ 0 1 (.mem (.base 0 (.d8 1))), 7) := by decide +kernel
theorem test_decode_vfnmsub231EvexYmm :
    decoded [0b01100010, 0b11110010, 0b01110101, 0b10111010, 0b10111110, 0b00000000] =
      some (.vfnmsub231EvexYmm [] ⟨2, true⟩ 0 1 (.bcst (.base 0 .none)), 6) := by decide +kernel
/-- Vector E17: registers 31, 30, 29. -/
theorem test_decode_vfnmsub132EvexZmm :
    decoded [0b01100010, 0b00000010, 0b00001101, 0b01000111, 0b10011110, 0b11111101] =
      some (.vfnmsub132EvexZmm [] ⟨7, false⟩ 31 30 (.reg 29), 6) := by decide +kernel
theorem test_decode_vfnmsub213EvexZmm :
    decoded [0b01100010, 0b11110010, 0b01110101, 0b01001000, 0b10101110, 0b11000010] =
      some (.vfnmsub213EvexZmm [] ⟨0, false⟩ 0 1 (.reg 2), 6) := by decide +kernel
/-- Vector E15. -/
theorem test_decode_vfnmsub231EvexZmm :
    decoded [0b01100010, 0b11110010, 0b01110101, 0b11001001, 0b10111110, 0b11000010] =
      some (.vfnmsub231EvexZmm [] ⟨1, true⟩ 0 1 (.reg 2), 6) := by decide +kernel
/-- Vector E27: RC = 11b is no reserved length. -/
theorem test_decode_vfnmsub132EvexZmmEr :
    decoded [0b01100010, 0b11110010, 0b01110101, 0b11111001, 0b10011110, 0b11000010] =
      some (.vfnmsub132EvexZmmEr [] ⟨1, true⟩ 0 1 2 .rz, 6) := by decide +kernel
/-- Vector E24. -/
theorem test_decode_vfnmsub213EvexZmmEr :
    decoded [0b01100010, 0b11110010, 0b01110101, 0b00111000, 0b10101110, 0b11000010] =
      some (.vfnmsub213EvexZmmEr [] ⟨0, false⟩ 0 1 2 .rd, 6) := by decide +kernel
/-- Vector E25. -/
theorem test_decode_vfnmsub231EvexZmmEr :
    decoded [0b01100010, 0b11110010, 0b01110101, 0b01011000, 0b10111110, 0b11000010] =
      some (.vfnmsub231EvexZmmEr [] ⟨0, false⟩ 0 1 2 .ru, 6) := by decide +kernel

/-- Vectors E5 to E12: displacements, RIP-relative, SIB without base, scaled index, R13 and R12 as base, FS, 67H. -/
theorem test_decode_addressing :
    decoded [0xC4, 0xE2, 0x71, 0xAE, 0x40, 0x40] =
      some (.vfnmsub213VexXmm [] 0 1 (.mem (.base 0 (.d8 0x40))), 6) ∧
    decoded [0xC4, 0xE2, 0x71, 0x9E, 0x05, 0x10, 0x00, 0x00, 0x00] =
      some (.vfnmsub132VexXmm [] 0 1 (.mem (.ripRel 0x10)), 9) ∧
    decoded [0xC4, 0xE2, 0x71, 0x9E, 0x04, 0x25, 0x00, 0x10, 0x00, 0x00] =
      some (.vfnmsub132VexXmm [] 0 1 (.mem (.sibNoBase none 0x1000)), 10) ∧
    decoded [0xC4, 0xA2, 0x71, 0x9E, 0x04, 0x88] =
      some (.vfnmsub132VexXmm [] 0 1 (.mem (.sib 0 (some ⟨9, 2⟩) .none)), 6) ∧
    decoded [0xC4, 0xC2, 0x71, 0x9E, 0x45, 0x00] =
      some (.vfnmsub132VexXmm [] 0 1 (.mem (.base 13 (.d8 0))), 6) ∧
    decoded [0xC4, 0xC2, 0x71, 0x9E, 0x04, 0x24] =
      some (.vfnmsub132VexXmm [] 0 1 (.mem (.sib 12 none .none)), 6) ∧
    decoded [0x64, 0xC4, 0xE2, 0x71, 0x9E, 0x00] =
      some (.vfnmsub132VexXmm [.seg .fs] 0 1 (.mem (.base 0 .none)), 6) ∧
    decoded [0x67, 0xC4, 0xE2, 0x71, 0x9E, 0x00] =
      some (.vfnmsub132VexXmm [.addr32] 0 1 (.mem (.base 0 .none)), 6) := by decide +kernel

/-- Vectors E28 to E30: W = 1 twice and the two-byte VEX prefix are not in scope. -/
theorem test_decode_refuses :
    decode [0xC4, 0xE2, 0xF1, 0x9E, 0xC2] = .notInScope .wBit ∧
    decode [0x62, 0xF2, 0xF5, 0x48, 0x9E, 0xC2] = .notInScope .wBit ∧
    decode [0xC5, 0xF1, 0x9E, 0xC2] = .notInScope .notVexOrEvex := by decide +kernel

/-- Vector X2 (L'L = 11b), and the reserved bits P0[3:2] and P1[2] of 30_encoding.md R111. -/
theorem test_decode_reserved :
    decode [0x62, 0xF2, 0x75, 0x68, 0x9E, 0xC2] = .undefined [] ∧
    decode [0x62, 0xF6, 0x75, 0x48, 0x9E, 0xC2] = .undefined [] ∧
    decode [0x62, 0xF2, 0x71, 0x48, 0x9E, 0xC2] = .undefined [] := by decide +kernel

/-- The table's numbering: the first byte is the low byte of the word. -/
theorem test_tableWord :
    decodeTableWord 40 0xC29E71E2C4 = some (.vfnmsub132VexXmm [] 0 1 (.reg 2)) ∧
    decodeTableWord 48 0xC29E0875F262 = some (.vfnmsub132EvexXmm [] ⟨0, false⟩ 0 1 (.reg 2)) ∧
    decodeTableWord 48 0xC2AE7875F262 = some (.vfnmsub213EvexZmmEr [] ⟨0, false⟩ 0 1 2 .rz) := by decide +kernel

/-! ## WellFormed refuses -/

theorem test_wf_accepts : (Instr.vfnmsub132EvexXmm [.seg .fs] ⟨1, true⟩ 31 30 (.bcst (.sib 4 none .none))).wellFormed =
    true := by decide +kernel
theorem test_wf_base_needs_sib :
    (Instr.vfnmsub132VexXmm [] 0 1 (.mem (.base 12 .none))).wellFormed = false := by decide +kernel
theorem test_wf_base_is_ripRel :
    (Instr.vfnmsub132VexXmm [] 0 1 (.mem (.base 13 .none))).wellFormed = false := by decide +kernel
theorem test_wf_sib_base_absent :
    (Instr.vfnmsub132VexXmm [] 0 1 (.mem (.sib 5 none .none))).wellFormed = false := by decide +kernel
theorem test_wf_index_rsp :
    (Instr.vfnmsub132VexXmm [] 0 1 (.mem (.sibNoBase (some ⟨4, 0⟩) 0))).wellFormed = false := by decide +kernel
theorem test_wf_lock :
    (Instr.vfnmsub132VexXmm [.lock] 0 1 (.reg 2)).wellFormed = false := by decide +kernel
theorem test_wf_zeroing_without_mask :
    (Instr.vfnmsub132EvexXmm [] ⟨0, true⟩ 0 1 (.reg 2)).wellFormed = false := by decide +kernel
theorem test_wf_too_long :
    (Instr.vfnmsub132EvexZmm (List.replicate 10 (.seg .ds)) ⟨0, false⟩ 0 1 (.reg 2)).wellFormed = false := by
  decide +kernel

/-! ## Lane vectors of 95_test_vectors.md section 2 -/

/-- One lane under an MXCSR value. -/
def laneTest (x y z : F32) (m : BitVec 32) : Option F32 × FlagSet :=
  ((fnmsub32 x y z (mxControl m)).r, (fnmsub32 x y z (mxControl m)).fl)

/-- What one lane makes of an instruction. -/
def laneOutcome (x y z : F32) (m : BitVec 32) : SimdOutcome :=
  simdFpOutcome [(fnmsub32 x y z (mxControl m)).fl] (mxMasks m)

/-- L1 to L3d: a plain value, one rounding, the four modes on a tie. -/
theorem test_lane_rounding :
    laneTest 0x3F800000 0x40000000 0x40400000 0x1F80 = (some 0xC0A00000, 0) ∧
    laneTest 0x3F800001 0x3F800001 0xBF800002 0x1F80 = (some 0xA8800000, 0) ∧
    laneTest 0x3F800000 0x3F800000 0x33800000 0x1F80 = (some 0xBF800000, flagPE) ∧
    laneTest 0x3F800000 0x3F800000 0x33800000 0x3F80 = (some 0xBF800001, flagPE) ∧
    laneTest 0x3F800000 0x3F800000 0x33800000 0x5F80 = (some 0xBF800000, flagPE) ∧
    laneTest 0x3F800000 0x3F800000 0x33800000 0x7F80 = (some 0xBF800000, flagPE) := by decide +kernel

/-- L4a to L4f, L13: overflow. -/
theorem test_lane_overflow :
    laneTest 0x7F7FFFFF 0x40000000 0 0x1F80 = (some 0xFF800000, flagOE ||| flagPE) ∧
    laneTest 0x7F7FFFFF 0x40000000 0 0x3F80 = (some 0xFF800000, flagOE ||| flagPE) ∧
    laneTest 0x7F7FFFFF 0x40000000 0 0x5F80 = (some 0xFF7FFFFF, flagOE ||| flagPE) ∧
    laneTest 0x7F7FFFFF 0x40000000 0 0x7F80 = (some 0xFF7FFFFF, flagOE ||| flagPE) ∧
    laneTest 0xFF7FFFFF 0x40000000 0 0x5F80 = (some 0x7F800000, flagOE ||| flagPE) ∧
    laneTest 0xFF7FFFFF 0x40000000 0 0x3F80 = (some 0x7F7FFFFF, flagOE ||| flagPE) ∧
    laneTest 0x7F7FFFFF 0x3F800000 0xFF7FFFFF 0x1F80 = (some 0, 0) := by decide +kernel

/-- L5a to L6d: tiny results. -/
theorem test_lane_tiny :
    laneTest 0x00800000 0x3F000000 0 0x1F80 = (some 0x80400000, 0) ∧
    laneTest 0x00800000 0x3F000000 0 0x9F80 = (some 0x80000000, flagUE ||| flagPE) ∧
    laneTest 0x3F000000 0x00FFFFFF 0 0x1F80 = (some 0x80800000, flagUE ||| flagPE) ∧
    laneTest 0x3F7FFFFE 0x00800001 0 0x1F80 = (some 0x80800000, flagPE) ∧
    laneTest 0x3F7FFFFE 0x00800001 0 0x7F80 = (some 0x807FFFFF, flagUE ||| flagPE) ∧
    laneTest 0x3F7FFFFE 0x00800001 0 0x1780 = (some 0x80800000, flagPE) := by decide +kernel

/-- L7a to L8e: denormal operands and NaNs. -/
theorem test_lane_denormal_nan :
    laneTest 0x00000001 0x3F800000 0 0x1F80 = (some 0x80000001, flagDE) ∧
    laneTest 0x00000001 0x3F800000 0 0x1FC0 = (some 0x80000000, 0) ∧
    laneTest 0x7FC00001 0x7F800002 0x3F800000 0x1F80 = (some 0x7FC00001, flagIE) ∧
    laneTest 0x3F800000 0xFF800002 0x3F800000 0x1F80 = (some 0xFFC00002, flagIE) ∧
    laneTest 0x3F800000 0x40000000 0x7FC12345 0x1F80 = (some 0x7FC12345, 0) ∧
    laneTest 0x7F800000 0x00000000 0x7FC00000 0x1F80 = (some 0x7FC00000, 0) ∧
    laneTest 0x00000001 0x7FC00000 0x3F800000 0x1F80 = (some 0x7FC00000, 0) := by decide +kernel

/-- L9 to L11f: infinities and zeros. -/
theorem test_lane_infinity_zero :
    laneTest 0x7F800000 0 0x3F800000 0x1F80 = (some 0xFFC00000, flagIE) ∧
    laneTest 0x7F800000 1 0x3F800000 0x1FC0 = (some 0xFFC00000, flagIE) ∧
    laneTest 0x7F800000 0x3F800000 0xFF800000 0x1F80 = (some 0xFFC00000, flagIE) ∧
    laneTest 0x7F800000 0x3F800000 0x7F800000 0x1F80 = (some 0xFF800000, 0) ∧
    laneTest 0x3F800000 0x3F800000 0x7F800000 0x1F80 = (some 0xFF800000, 0) ∧
    laneTest 0x7F800000 1 0x3F800000 0x1F80 = (some 0xFF800000, flagDE) ∧
    laneTest 0 0x3F800000 0 0x1F80 = (some 0x80000000, 0) ∧
    laneTest 0 0x3F800000 0x80000000 0x1F80 = (some 0, 0) ∧
    laneTest 0 0x3F800000 0x80000000 0x3F80 = (some 0x80000000, 0) ∧
    laneTest 0x3F800000 0x3F800000 0xBF800000 0x1F80 = (some 0, 0) ∧
    laneTest 0x3F800000 0x3F800000 0xBF800000 0x3F80 = (some 0x80000000, 0) ∧
    laneTest 0x80000000 0x3F800000 0x80000000 0x1F80 = (some 0, 0) := by decide +kernel

/-- L12a to L12f: unmasked exceptions. -/
theorem test_lane_traps :
    laneOutcome 0x3F800000 0x3F800000 0x33800000 0x0F80 = .trap flagPE ∧
    laneOutcome 0x3F800000 0x7F800001 0x3F800000 0x1F00 = .trap flagIE ∧
    laneOutcome 0x00000001 0x3F800001 0x33800000 0x1E80 = .trap flagDE ∧
    laneOutcome 0x00800000 0x3F000000 0 0x1780 = .trap flagUE ∧
    laneOutcome 0x7F000000 0x40800000 0 0x1B80 = .trap flagOE ∧
    laneOutcome 0x7F7FFFFF 0x40000000 0 0x0F80 = .trap (flagOE ||| flagPE) := by decide +kernel

/-! ## One step of each row: the worked examples of 41_vfnmsub_vex.md and 42_vfnmsub_evex.md -/

/-- `n` lanes of one value. -/
def all (n : Nat) (v : F32) : List F32 := List.replicate n v

/-- The vector A of 42_vfnmsub_evex.md. -/
def vecA : List F32 := [0x3F800000, 0x40000000, 0x3F000000, 0xBF800000]

/-- 1.0 to 8.0. -/
def oneToEight : List F32 :=
  [0x3F800000, 0x40000000, 0x40400000, 0x40800000, 0x40A00000, 0x40C00000, 0x40E00000, 0x41000000]

/-- The start of the examples of R176 to R178. -/
def startVex : State := zmm 0 vecA (zmm 1 (all 4 0x40400000) (zmm 2 (all 4 0x40000000) launch))

theorem test_step_vfnmsub132VexXmm :
    seen 0 16 (run [0xC4, 0xE2, 0x71, 0x9E, 0xC2] startVex) =
      some ([0xC0A00000, 0xC0E00000, 0xC0800000, 0xBF800000] ++ all 12 0, 0x1F80, 0x1005) := by decide +kernel
theorem test_step_vfnmsub213VexXmm :
    seen 0 4 (run [0xC4, 0xE2, 0x71, 0xAE, 0xC2] startVex) =
      some ([0xC0A00000, 0xC1000000, 0xC0600000, 0x3F800000], 0x1F80, 0x1005) := by decide +kernel
theorem test_step_vfnmsub231VexXmm :
    seen 0 4 (run [0xC4, 0xE2, 0x71, 0xBE, 0xC2] startVex) =
      some ([0xC0E00000, 0xC1000000, 0xC0D00000, 0xC0A00000], 0x1F80, 0x1005) := by decide +kernel
theorem test_step_vfnmsub132VexYmm :
    seen 0 16 (run [0xC4, 0xE2, 0x75, 0x9E, 0x00]
      (rax 0x2003 (data 0x2003 oneToEight (zmm 0 (all 16 0x3F800000) (zmm 1 (all 8 0x3E800000) launch))))) =
      some ([0xBFA00000, 0xC0100000, 0xC0500000, 0xC0880000, 0xC0A80000, 0xC0C80000, 0xC0E80000, 0xC1040000] ++
        all 8 0, 0x1F80, 0x1005) := by decide +kernel
theorem test_step_vfnmsub213VexYmm :
    seen 0 8 (run [0xC4, 0xE2, 0x75, 0xAE, 0xC2]
      (mx 0x3F80 (zmm 0 (all 8 0x40000000) (zmm 1 (all 8 0x3F000000) (zmm 2 (all 8 0xBF800000) launch))))) =
      some (all 8 0x80000000, 0x3F80, 0x1005) := by decide +kernel
theorem test_step_vfnmsub231VexYmm :
    seen 0 8 (run [0xC4, 0xE2, 0x75, 0xBE, 0xC2]
      (zmm 0 (all 8 0x7F7FFFFF) (zmm 1 (all 8 0x7F7FFFFF) (zmm 2 (all 8 0x40000000) launch)))) =
      some (all 8 0xFF800000, 0x1FA8, 0x1005) := by decide +kernel
theorem test_step_vfnmsub132EvexXmm :
    seen 0 16 (run [0x62, 0xF2, 0x75, 0x09, 0x9E, 0xC2]
      (kreg 1 5 (zmm 0 (vecA ++ all 12 0x41100000) (zmm 1 (all 4 0x40400000) (zmm 2 (all 4 0x40000000) launch))))) =
      some ([0xC0A00000, 0x40000000, 0xC0800000, 0xBF800000] ++ all 12 0, 0x1F80, 0x1006) := by decide +kernel
theorem test_step_vfnmsub213EvexXmm :
    seen 0 4 (run [0x62, 0xF2, 0x75, 0x1A, 0xAE, 0x00]
      (rax 0x2000 (data 0x2000 [0x41200000] (kreg 2 14 (zmm 0 vecA (zmm 1 (all 4 0x40400000) launch)))))) =
      some ([0x3F800000, 0xC1800000, 0xC1380000, 0xC0E00000], 0x1F80, 0x1006) := by decide +kernel
theorem test_step_vfnmsub231EvexXmm :
    seen 0 4 (run [0x62, 0xF2, 0x75, 0x89, 0xBE, 0xC2]
      (kreg 1 9 (zmm 0 vecA (zmm 1 (all 4 0x40400000) (zmm 2 (all 4 0x40000000) launch))))) =
      some ([0xC0E00000, 0, 0, 0xC0A00000], 0x1F80, 0x1006) := by decide +kernel
theorem test_step_vfnmsub132EvexYmm :
    seen 0 8 (run [0x62, 0xF2, 0x75, 0x29, 0x9E, 0xC2]
      (kreg 1 0xF0 (zmm 0 oneToEight (zmm 1 (all 8 0x3F800000) (zmm 2 (all 8 0xBF800000) launch))))) =
      some ([0x3F800000, 0x40000000, 0x40400000, 0x40800000, 0x40800000, 0x40A00000, 0x40C00000, 0x40E00000],
        0x1F80, 0x1006) := by decide +kernel
theorem test_step_vfnmsub213EvexYmm :
    seen 0 8 (run [0x62, 0xF2, 0x75, 0x28, 0xAE, 0x40, 0x01]
      (rax 0x2000 (data 0x2020 oneToEight (zmm 0 oneToEight (zmm 1 (all 8 0x40000000) launch))))) =
      some ([0xC0400000, 0xC0C00000, 0xC1100000, 0xC1400000, 0xC1700000, 0xC1900000, 0xC1A80000, 0xC1C00000],
        0x1F80, 0x1007) := by decide +kernel
theorem test_step_vfnmsub231EvexYmm :
    seen 0 8 (run [0x62, 0xF2, 0x75, 0xBA, 0xBE, 0x00]
      (rax 0x2000 (data 0x2000 [0x40800000] (kreg 2 0x55 (zmm 0 oneToEight (zmm 1 (all 8 0x3F000000) launch)))))) =
      some ([0xC0400000, 0, 0xC0A00000, 0, 0xC0E00000, 0, 0xC1100000, 0], 0x1F80, 0x1006) := by decide +kernel
/-- Lanes 0, 1, 2, 15 of the example of R206: DEST 0.0, 1.0, 2.0, 15.0. -/
theorem test_step_vfnmsub132EvexZmm :
    seen 16 16 (run [0x62, 0xA2, 0x75, 0x40, 0x9E, 0xC2]
      (zmm 16 ([0, 0x3F800000, 0x40000000] ++ all 13 0x41700000)
        (zmm 17 (all 16 0x3F800000) (zmm 18 (all 16 0x40000000) launch)))) =
      some ([0xBF800000, 0xC0400000, 0xC0A00000] ++ all 13 0xC1F80000, 0x1F80, 0x1006) := by decide +kernel
/-- By R134 (lane table of 95_test_vectors.md section 2): DEST 4, SRC2 2, SRC3 3 give −11. -/
theorem test_step_vfnmsub213EvexZmm :
    seen 0 16 (run [0x62, 0xF2, 0x75, 0x48, 0xAE, 0xC2]
      (zmm 0 (all 16 0x40800000) (zmm 1 (all 16 0x40000000) (zmm 2 (all 16 0x40400000) launch)))) =
      some (all 16 0xC1300000, 0x1F80, 0x1006) := by decide +kernel
theorem test_step_vfnmsub231EvexZmm :
    seen 0 16 (run [0x62, 0xF2, 0x75, 0xC9, 0xBE, 0xC2]
      (kreg 1 0xFF (zmm 0 (all 16 0x3F800000) (zmm 1 (all 16 0x7F7FFFFF) (zmm 2 (all 16 0x40000000) launch))))) =
      some (all 8 0xFF800000 ++ all 8 0, 0x1FA8, 0x1006) := by decide +kernel
/-- By L3a and L3b: −1 − 2^-24 under rd-sae (RC = 01b) rounds down though MXCSR says nearest, and sets no flag. -/
theorem test_step_vfnmsub132EvexZmmEr :
    seen 0 16 (run [0x62, 0xF2, 0x75, 0x38, 0x9E, 0xC2]
      (mx 0 (zmm 0 (all 16 0x3F800000) (zmm 1 (all 16 0x33800000) (zmm 2 (all 16 0x3F800000) launch))))) =
      some (all 16 0xBF800001, 0, 0x1006) := by decide +kernel
theorem test_step_vfnmsub213EvexZmmEr :
    seen 0 16 (run [0x62, 0xF2, 0x75, 0x38, 0xAE, 0xC2]
      (mx 0 (zmm 0 ([0x40000000, 1, 0x7F7FFFFF] ++ all 13 0x40000000)
        (zmm 1 ([0x3F000000, 0x3F000000, 0x40800000] ++ all 13 0x3F000000)
          (zmm 2 ([0xBF800000, 0, 0] ++ all 13 0xBF800000) launch))))) =
      some ([0x80000000, 0x80000001, 0xFF800000] ++ all 13 0x80000000, 0, 0x1006) := by decide +kernel
theorem test_step_vfnmsub231EvexZmmEr :
    seen 0 16 (run [0x62, 0xF2, 0x75, 0xF9, 0xBE, 0xC2]
      (kreg 1 0xFF (zmm 0 (all 16 0x3F800000) (zmm 1 (all 16 0x7F7FFFFF) (zmm 2 (all 16 0x40000000) launch))))) =
      some (all 8 0xFF7FFFFF ++ all 8 0, 0x1F80, 0x1006) := by decide +kernel

/-! ## Exceptions, masks, launch: 95_test_vectors.md sections 3 and 4 -/

/-- V1: an unmasked PE in lanes 1 and 2; the union of all lanes' flags, no lane written. -/
theorem test_xm_post :
    faulted 0 4 (run [0xC4, 0xE2, 0x71, 0x9E, 0xC2]
      (mx 0x0F80 (zmm 0 [0x3F800000, 0x3F800001, 0x7F7FFFFF, 1] (zmm 1 [0x3F800000, 0x33800000, 0, 0]
        (zmm 2 [0x3F800000, 0x3F800000, 0x40000000, 0x3F800000] launch))))) =
      some (19, 0x0FAA, 0x1000, none, [0x3F800000, 0x3F800001, 0x7F7FFFFF, 1]) := by decide +kernel
/-- V2: the pre-computation phase sets IE and DE only. -/
theorem test_xm_pre :
    faulted 0 4 (run [0xC4, 0xE2, 0x71, 0x9E, 0xC2]
      (mx 0x1E80 (zmm 0 [0x7F800001, 1, 0x7F7FFFFF, 0x3F800000] (zmm 1 [0x3F800000, 0x3F800000, 0, 0x3F800000]
        (zmm 2 [0x3F800000, 0x3F800000, 0x40000000, 0x3F800000] launch))))) =
      some (19, 0x1E83, 0x1000, none, [0x7F800001, 1, 0x7F7FFFFF, 0x3F800000]) := by decide +kernel
/-- V3: an SNaN in a masked-off lane raises nothing. -/
theorem test_masked_lane_silent :
    seen 0 4 (run [0x62, 0xF2, 0x75, 0x09, 0x9E, 0xC2]
      (mx 0x1F00 (kreg 1 0xE (zmm 0 [0x7F800001, 0x3F800000, 0x3F800000, 0x3F800000]
        (zmm 1 (all 4 0x3F800000) (zmm 2 (all 4 0x3F800000) launch)))))) =
      some ([0x7F800001, 0xC0000000, 0xC0000000, 0xC0000000], 0x1F00, 0x1006) := by decide +kernel
/-- V8: an empty mask with merging keeps the low lanes and zeroes above VL. -/
theorem test_empty_mask_merging :
    seen 0 16 (run [0x62, 0xF2, 0x75, 0x29, 0x9E, 0xC2] (zmm 0 (all 16 0x40A00000) launch)) =
      some (all 8 0x40A00000 ++ all 8 0, 0x1F80, 0x1006) := by decide +kernel

/-- Bytes from 2020H on are not present. -/
def unmapped (s : State) : State :=
  { s with xlat := ⟨false, [⟨0x2020, 0x1000, .pageFault ⟨false, false, false, false⟩, .memory⟩]⟩ }

/-- X8: lanes 8 to 15 are masked off and not read. -/
theorem test_fault_suppression :
    seen 0 9 (run [0x62, 0xF2, 0x75, 0x49, 0x9E, 0x00]
      (rax 0x2000 (kreg 1 0xFF (data 0x2000 (all 8 0x40000000) (unmapped (zmm 0 (all 16 0x3F800000) launch)))))) =
      some (all 8 0xC0000000 ++ [0x3F800000], 0x1F80, 0x1006) := by decide +kernel
/-- X9: lane 8 is active; #PF at the first byte that is not there, nothing changed. -/
theorem test_page_fault :
    faulted 0 1 (run [0x62, 0xF2, 0x75, 0x49, 0x9E, 0x00]
      (rax 0x2000 (kreg 1 0x1FF (unmapped (mx 0 (zmm 0 (all 16 0x7F800001) launch)))))) =
      some (14, 0, 0x1000, some 0x2020, [0x7F800001]) := by decide +kernel
/-- X10: a broadcast under an empty mask reads nothing. -/
theorem test_broadcast_suppression :
    seen 0 1 (run [0x62, 0xF2, 0x75, 0x59, 0x9E, 0x00] (rax 0x2020 (unmapped (zmm 0 [0x40A00000] launch)))) =
      some ([0x40A00000], 0x1F80, 0x1006) := by decide +kernel
/-- X1 to X5: #UD; X3 before the page fault. -/
theorem test_ud :
    vectorOf (run [0x62, 0xF2, 0x75, 0x88, 0x9E, 0xC2] launch) = some 6 ∧
    vectorOf (run [0x62, 0xF2, 0x75, 0x68, 0x9E, 0xC2] launch) = some 6 ∧
    vectorOf (run [0x62, 0xF2, 0x75, 0xC8, 0x9E, 0x00] (rax 0x2020 (unmapped launch))) = some 6 ∧
    vectorOf (run [0xF0, 0xC4, 0xE2, 0x71, 0x9E, 0x00] launch) = some 6 ∧
    vectorOf (run [0x66, 0xC4, 0xE2, 0x71, 0x9E, 0xC2] launch) = some 6 ∧
    vectorOf (run [0x48, 0xC4, 0xE2, 0x71, 0x9E, 0xC2] launch) = some 6 := by decide +kernel
/-- X11: sixteen bytes raise #GP(0), also with z = 1 and aaa = 000b; fifteen execute. -/
theorem test_length :
    vectorOf (run (List.replicate 10 0x3E ++ [0x62, 0xF2, 0x75, 0x48, 0x9E, 0xC2]) launch) = some 13 ∧
    vectorOf (run (List.replicate 10 0x3E ++ [0x62, 0xF2, 0x75, 0xC8, 0x9E, 0xC2]) launch) = some 13 ∧
    (seen 0 1 (run (List.replicate 9 0x3E ++ [0x62, 0xF2, 0x75, 0x48, 0x9E, 0xC2]) launch)).isSome = true := by
  decide +kernel
/-- 60_exceptions.md R231 steps 1 and 2: of twenty prefixes and a form, byte 16 that cannot be fetched decides; with all
bytes there it is #GP(0), for a reserved encoding of sixteen bytes too. -/
theorem test_long_fetch :
    faulted 0 0 (run (List.replicate 20 0x3E ++ [0xC4, 0xE2, 0x71, 0x9E, 0xC2])
      { launch with xlat := ⟨false, [⟨0x100F, 1, .memory, .pageFault ⟨false, false, false, false⟩⟩]⟩ }) =
      some (14, 0x1F80, 0x1000, some 0x100F, []) ∧
    vectorOf (run (List.replicate 20 0x3E ++ [0xC4, 0xE2, 0x71, 0x9E, 0xC2]) launch) = some 13 ∧
    vectorOf (run (List.replicate 10 0x3E ++ [0x62, 0xF2, 0x75, 0x68, 0x9E, 0xC2]) launch) = some 13 ∧
    vectorOf (run (List.replicate 9 0x3E ++ [0x62, 0xF2, 0x75, 0x68, 0x9E, 0xC2]) launch) = some 6 := by decide +kernel
/-- X12 to X15: the enabling conditions. -/
theorem test_enables :
    vectorOf (run [0xC4, 0xE2, 0x71, 0x9E, 0xC2] { launch with cr0 := 8 }) = some 7 ∧
    vectorOf (run [0xC4, 0xE2, 0x71, 0x9E, 0xC2] { launch with feat := ⟨false, true, true, true⟩ }) = some 6 ∧
    vectorOf (run [0xC4, 0xE2, 0x71, 0x9E, 0xC2] { launch with xcr0 := 3 }) = some 6 ∧
    vectorOf (run [0x62, 0xF2, 0x75, 0x08, 0x9E, 0xC2] { launch with feat := ⟨true, true, false, true⟩ }) = some 6 ∧
    vectorOf (run [0x62, 0xF2, 0x75, 0x48, 0x9E, 0xC2] { launch with feat := ⟨true, true, false, true⟩ }) = none ∧
    vectorOf (run [0x62, 0xF2, 0x75, 0x48, 0x9E, 0xC2] { launch with xcr0 := 7 }) = some 6 := by decide +kernel
/-- 00_scope.md R8(b): the mode after reset is refused; and in 64-bit mode with CR4.OSXSAVE = 0 the instruction raises #UD
(70_reset_and_hazards.md R261). -/
theorem test_reset_step :
    refusalOf (step (State.reset.memWrite 0xFFFFFFF0 [0xC4, 0xE2, 0x71, 0x9E, 0xC2])) = some .modeOutOfScope ∧
    vectorOf (run [0xC4, 0xE2, 0x71, 0x9E, 0xC2] { State.reset with mode := .mode64 }) = some 6 := by decide +kernel
/-- The host's word placed after reset is launched and runs. -/
theorem test_withFetchWord :
    (seen 0 1 (step (State.reset.withFetchWord 40 0xC29E71E2C4))).isSome = true ∧
    (seen 0 1 (step (State.reset.withFetchWord 48 0x009E00050262))).isSome = true := by decide +kernel

/-! ## Addresses -/

/-- E5 and E18 to E21: disp8 as it is in a VEX form, times 64, 4, 32 in EVEX forms (30_encoding.md R104, R105). -/
theorem test_disp8 :
    linearAddress (rax 0x2000 launch) [] 6 1 (.base 0 (.d8 0x40)) = 0x2040 ∧
    linearAddress (rax 0x2000 launch) [] 7 64 (.base 0 (.d8 0xFF)) = 0x1FC0 ∧
    linearAddress (rax 0x2000 launch) [] 7 4 (.base 0 (.d8 8)) = 0x2020 := by decide +kernel
/-- E6: the next instruction's address is the base; E8: RAX + R9 * 4; E12: 67H truncates; E11: FS. -/
theorem test_address_forms :
    linearAddress { rax 0x2000 launch with gpr := (rax 0x2000 launch).gpr.set 9 0x11 } [] 6 1 (.sib 0 (some ⟨9, 2⟩) .none) =
      0x2044 ∧
    linearAddress launch [] 9 1 (.ripRel 0x10) = 0x1019 ∧
    linearAddress (rax 0x1234567890 launch) [.addr32] 6 1 (.base 0 .none) = 0x34567890 ∧
    linearAddress { rax 0x10 launch with fsBase := 0x7000 } [.seg .fs] 6 1 (.base 0 .none) = 0x7010 := by
  decide +kernel
/-- A non-canonical operand: #SS through RSP, #GP through RAX (20_memory.md R58, 30_encoding.md R107). -/
theorem test_noncanonical :
    vectorOf (run [0xC4, 0xE2, 0x71, 0x9E, 0x04, 0x24] { launch with gpr := launch.gpr.set 4 0x800000000000 }) = some 12 ∧
    vectorOf (run [0xC4, 0xE2, 0x71, 0x9E, 0x00] (rax 0x800000000000 launch)) = some 13 := by decide +kernel
/-- The refusals: every mode but 64-bit mode (00_scope.md R8(b)), memory with side effects, alignment checking on. -/
theorem test_refusals :
    (∀ m ∈ [Mode.real, .virtual8086, .bit16, .protected32, .compatibility],
      refusalOf (run [0xC4, 0xE2, 0x71, 0x9E, 0xC2] { launch with mode := m }) = some .modeOutOfScope) ∧
    refusalOf (run [0xC4, 0xE2, 0x71, 0x9E, 0x00]
      { rax 0x2000 launch with xlat := ⟨false, [⟨0x200F, 1, .sideEffects, .memory⟩]⟩ }) = some .sideEffectMemory ∧
    refusalOf (run [0xC4, 0xE2, 0x71, 0x9E, 0x00]
      { rax 0x2001 launch with cr0 := 0x40000, rflags := 0x40000, cs := 3 }) = some .alignmentCheckOpen ∧
    refusalOf (run [0xC4, 0xE2, 0xF1, 0x9E, 0xC2] launch) = some (.notInScope .wBit) := by decide +kernel

/-! ## Witnesses: for every statement of Certificates/Slice0/Obligations.lean with hypotheses, a case that meets them all;
where a statement has several clauses, one for each, at the bounds where there are bounds -/

open Sys2Proof.Safety

/-- The outcome is a next state. -/
def isNext (r : Result) : Bool :=
  match r with
  | .next _ => true
  | .fault _ => false
  | .refused _ => false

theorem exists_next {r : Result} (h : isNext r = true) : ∃ t, r = .next t := by
  cases r with
  | next t => exact ⟨t, rfl⟩
  | fault _ => cases h
  | refused _ => cases h

theorem exists_fault {r : Result} (h : (vectorOf r).isSome = true) : ∃ f, r = .fault f := by
  cases r with
  | next _ => cases h
  | fault f => exact ⟨f, rfl⟩
  | refused _ => cases h

/-- A control with both masks set. -/
def ctl (rm : RoundMode) : FpControl := ⟨rm, false, false, true, true⟩

/-- VFNMSUB132PS xmm0, xmm1, xmm2 and its bytes. -/
def regForm : Instr := .vfnmsub132VexXmm [] 0 1 (.reg 2)
def regBytes : List Byte := [0xC4, 0xE2, 0x71, 0x9E, 0xC2]

/-- `startVex` with instruction bytes at `rip`. -/
def loaded (bs : List Byte) : State := startVex.memWrite startVex.rip bs

/-- DecodeEncodeAgree, DecodedLengthIsCounted, DecodingReadsOnlyTheInstruction. -/
theorem witness_decode :
    (Instr.vfnmsub132EvexZmm [.lock, .rex 15] ⟨7, true⟩ 31 31 (.bcst (.sib 13 (some ⟨12, 3⟩) (.d8 0x80)))).encodable = true ∧
    decode (regBytes ++ [0x90]) = .instr regForm [0x90] := by decide +kernel
/-- OtherInstructionsAreRefused: an instruction and a reserved encoding; another first byte; W = 1. -/
theorem witness_otherInstructions :
    decode (regBytes ++ [0x90]) = .instr regForm [0x90] ∧ decode [0x62, 0xF2, 0x75, 0x68, 0x9E, 0xC2] = .undefined [] ∧
    legacyOf 0x0F = none ∧ legacyOf 0xC5 = none ∧
    (0xE2 : Byte).extractLsb' 0 5 = 2 ∧ (0xF1 : Byte).extractLsb' 7 1 = 1 ∧
    (0xF2 : Byte).extractLsb' 0 2 = 2 ∧ (0xF5 : Byte).extractLsb' 7 1 = 1 := by decide +kernel
/-- OtherInstructionsAreRefused: a VEX form, and a wrong map, W, pp and opcode byte. -/
theorem witness_vexMismatch :
    vexMatches 0xE2 0x71 0x9E ∧ ¬vexMatches 0xE1 0x71 0x9E ∧ ¬vexMatches 0xE2 0xF1 0x9E ∧ ¬vexMatches 0xE2 0x72 0x9E ∧
    ¬vexMatches 0xE2 0x71 0x9C := by unfold vexMatches; decide +kernel
/-- OtherInstructionsAreRefused: an EVEX form, and a wrong map, W, pp and opcode byte. -/
theorem witness_evexMismatch :
    evexMatches 0xF2 0x75 0xBE ∧ ¬evexMatches 0xF3 0x75 0xBE ∧ ¬evexMatches 0xF2 0xF5 0xBE ∧ ¬evexMatches 0xF2 0x74 0xBE ∧
    ¬evexMatches 0xF2 0x75 0xBF := by unfold evexMatches; decide +kernel
/-- ReservedEvexIsUndefined: P0 = F6H, P1 = 71H, P2 = 68H each against the other fields' regular values; a register operand; a
memory operand with its disp8, and without it. -/
theorem witness_reservedEvex :
    evexMatches 0xF6 0x75 0x9E ∧ ¬evexReservedKept 0xF6 0x75 ∧ evexMatches 0xF2 0x71 0x9E ∧ ¬evexReservedKept 0xF2 0x71 ∧
    evexMatches 0xF2 0x75 0x9E ∧ (0x68 : Byte).extractLsb' 5 2 = 3 ∧ (0x78 : Byte).extractLsb' 5 2 = 3 ∧
    ¬((0x68 : Byte).extractLsb' 4 1 = 1 ∧ (0xC2 : Byte).extractLsb' 6 2 = 3) ∧
    ¬((0x78 : Byte).extractLsb' 4 1 = 1 ∧ (0x40 : Byte).extractLsb' 6 2 = 3) ∧
    (0xC2 : Byte).extractLsb' 6 2 = 3 ∧ (0x40 : Byte).extractLsb' 6 2 ≠ 3 ∧
    decodeMem 1 0 0 0 [0x02, 0x90] = some (.base 0 (.d8 2), [0x90]) ∧ decodeMem 1 0 0 0 [] = none := by
  unfold evexMatches evexReservedKept; decide +kernel
/-- `s` with no byte fetchable from `a` on. -/
def fetchStop (a : Addr) (s : State) : State :=
  { s with xlat := ⟨false, [⟨a, 0x100, .memory, .pageFault ⟨false, false, false, false⟩⟩]⟩ }
/-- The reserved encoding L'L = 11b behind `n` segment overrides, with nothing fetchable behind it. -/
def reservedFetch (n : Nat) : State :=
  fetchStop (0x1006 + BitVec.ofNat 64 n) (loaded (List.replicate n 0x3E ++ [0x62, 0xF2, 0x75, 0x68, 0x9E, 0xC2]))
/-- StepRunsTheDecodedInstruction: an instruction, undefined bytes (fifteen and sixteen), bytes not in scope, bytes that want
more. -/
theorem witness_stepRuns :
    pMode (loaded regBytes) ∧
    decode (fetchBytes (loaded regBytes) (fetchLimit (loaded regBytes)) 0x1000).1 = .instr regForm (List.replicate 15 0) ∧
    fetchBytes (reservedFetch 9) (fetchLimit (reservedFetch 9)) 0x1000 =
      (List.replicate 9 0x3E ++ [0x62, 0xF2, 0x75, 0x68, 0x9E, 0xC2], some (.exc (.pf 0x10 0x100F))) ∧
    decode (fetchBytes (reservedFetch 9) (fetchLimit (reservedFetch 9)) 0x1000).1 = .undefined [] ∧
    (fetchBytes (reservedFetch 10) (fetchLimit (reservedFetch 10)) 0x1000).1.length = 16 ∧
    decode (fetchBytes (reservedFetch 10) (fetchLimit (reservedFetch 10)) 0x1000).1 = .undefined [] ∧
    decode (fetchBytes startVex (fetchLimit startVex) 0x1000).1 = .notInScope .notVexOrEvex ∧
    decode (fetchBytes (fetchStop 0x1004 (loaded regBytes)) (fetchLimit (loaded regBytes)) 0x1000).1 = .needMore := by
  unfold pMode; decide +kernel
/-- StepExecutesTheBytesAtRip: the byte after the instruction cannot be fetched; and an instruction of twenty-five bytes. -/
theorem witness_stepExecutes :
    pMode (fetchStop 0x1005 (loaded regBytes)) ∧ regForm.encodable = true ∧
    pText (fetchStop 0x1005 (loaded regBytes)) 0x1000 regForm.length ∧
    (∀ n < regForm.length, (loaded regBytes).mem.read ((0x1000 : Addr) + BitVec.ofNat 64 n).toNat =
      (encode regForm).getD n 0) ∧
    (Instr.vfnmsub132VexXmm (List.replicate 20 (.seg .ds)) 0 1 (.reg 2)).encodable = true ∧
    pText (loaded (List.replicate 20 0x3E ++ regBytes)) 0x1000 25 ∧
    ∀ n < 25, (loaded (List.replicate 20 0x3E ++ regBytes)).mem.read ((0x1000 : Addr) + BitVec.ofNat 64 n).toNat =
      (encode (.vfnmsub132VexXmm (List.replicate 20 (.seg .ds)) 0 1 (.reg 2))).getD n 0 := by
  unfold pMode pText accessible; decide +kernel
/-- FetchStopsAtTheFirstFailingByte, ExceptionsRecordTheirCause: a page fault after fourteen segment overrides, and after fifteen. -/
theorem witness_fetchStops : ∀ n ∈ [14, 15],
    pMode (fetchStop (0x1000 + BitVec.ofNat 64 n) (loaded (List.replicate 20 0x3E))) ∧
    decode (List.replicate n 0x3E) = .needMore ∧
    (∀ j < n, accessByte (fetchStop (0x1000 + BitVec.ofNat 64 n) (loaded (List.replicate 20 0x3E))) .fetch .cs
      (0x1000 + BitVec.ofNat 64 j) = .ok ((List.replicate n 0x3E).getD j 0)) ∧
    canonical false (0x1000 + BitVec.ofNat 64 n) = true ∧
    Machine.translate (fetchStop (0x1000 + BitVec.ofNat 64 n) launch).xlat .fetch (0x1000 + BitVec.ofNat 64 n) =
      .pageFault ⟨false, false, false, false⟩ := by
  unfold pMode; decide +kernel
/-- Two segment overrides at the end of the canonical addresses. -/
def atEdge : State := { launch with rip := 0x7FFFFFFFFFFE }.memWrite 0x7FFFFFFFFFFE [0x3E, 0x3E]
/-- FetchStopsAtTheFirstFailingByte: the byte after them is at an address that is not canonical, #GP(0). -/
theorem witness_fetchStops_edge :
    pMode atEdge ∧ decode [0x3E, 0x3E] = .needMore ∧
    (∀ j < 2, accessByte atEdge .fetch .cs (atEdge.rip + BitVec.ofNat 64 j) = .ok (([0x3E, 0x3E] : List Byte).getD j 0)) ∧
    canonical atEdge.xlat.la57 (atEdge.rip + BitVec.ofNat 64 2) = false ∧
    faulted 0 0 (step atEdge) = some (13, 0x1F80, atEdge.rip, none, []) := by
  unfold pMode; decide +kernel
/-- FetchStopsAtTheFirstFailingByte: the first instruction byte is in memory whose reads have side effects. -/
theorem witness_fetchStops_device :
    decode [] = .needMore ∧ canonical false 0x1000 = true ∧
    Machine.translate ⟨false, [⟨0x1000, 1, .memory, .sideEffects⟩]⟩ .fetch 0x1000 = .sideEffects ∧
    refusalOf (step { launch with xlat := ⟨false, [⟨0x1000, 1, .memory, .sideEffects⟩]⟩ }) = some .sideEffectMemory := by
  decide +kernel
/-- NanOperandsReturnTheFirstNan, DazReplacesDenormalOperands, MultiplicandsCommuteUnlessNans. -/
theorem witness_lane_operands :
    (isNaN 0x3F800000 || isNaN 0xFF800001 || isNaN 0x7FC00000) = true ∧
    (FpControl.mk .rn true false true true).daz = true ∧ isDenormal 0x807FFFFF = true ∧
    ¬(isNaN 0x7FC00001 = true ∧ isNaN 1 = true) := by decide +kernel
/-- InvalidOperationsGiveTheIndefinite: the three ways, one of them only under DAZ = 1, and none. -/
theorem witness_invalid :
    isInf 0x7F800000 = true ∧ isZero (dazOperand true 0x007FFFFF) = true ∧ isZero (dazOperand false 0x007FFFFF) = false ∧
    isZero (dazOperand false 0x80000000) = true ∧ isNaN 0x7F800000 = false ∧ isNaN 0 = false ∧
    xor (f32Sign 0x7F800000) (f32Sign 0x3F800000) ≠ f32Sign 0xFF800000 ∧
    (fnmsub32 0x7F800000 0 0 (ctl .rn)).fl.getLsbD 0 = true := by decide +kernel
/-- InfiniteOperandsGiveInfinities: an infinite z, and an infinite product only. -/
theorem witness_infinite :
    isInf 0x7F800000 = true ∧ isInf 0x7F7FFFFF = false ∧ isNaN 0x7F800000 = false ∧ isNaN 1 = false ∧
    isNaN 0x7F7FFFFF = false ∧
    (fnmsub32 1 0x7F7FFFFF 0x7F800000 (ctl .rn)).fl.getLsbD 0 = false ∧
    (fnmsub32 0x7F800000 1 0x7F7FFFFF (ctl .rn)).fl.getLsbD 0 = false := by decide +kernel
/-- ExactZeroSign: like-signed zeros (under DAZ = 1 from a denormal), and cancelling values. -/
theorem witness_exactZero :
    allFinite 1 0x3F800000 0 ∧ laneExact 1 0x3F800000 0 ⟨.rn, true, false, true, true⟩ = 0 ∧
    isZero (dazOperand true 1) = true ∧ isZero (dazOperand true 0) = true ∧
    xor (f32Sign 1) (f32Sign 0x3F800000) = f32Sign 0 ∧
    allFinite 0x7F7FFFFF 0x3F800000 0xFF7FFFFF ∧ laneExact 0x7F7FFFFF 0x3F800000 0xFF7FFFFF (ctl .rd) = 0 ∧
    isZero (dazOperand false 0xFF7FFFFF) = false := by unfold allFinite; decide +kernel
/-- ExactNormalValueIsDelivered: the smallest normal value and the largest finite one. -/
theorem witness_exactNormal :
    allFinite 0x3F800000 0x80800000 0 ∧ isDenormal 0x3F800000 = false ∧ isDenormal 0x80800000 = false ∧ isDenormal 0 = false ∧
    f32Exp 0x00800000 = 1 ∧ exactValue 0x3F800000 0x80800000 0 = f32Val 0x00800000 * 2 ^ 149 ∧
    allFinite 0x3F800000 0xFF7FFFFF 0 ∧ isDenormal 0xFF7FFFFF = false ∧
    f32Exp 0x7F7FFFFF = 254 ∧ exactValue 0x3F800000 0xFF7FFFFF 0 = f32Val 0x7F7FFFFF * 2 ^ 149 := by
  unfold allFinite; decide +kernel
/-- PrecisionFlagExactlyWhenInexact, DirectedRoundingIsCorrect (its five clauses), NearestRoundingIsCorrect (its two). -/
theorem witness_rounding :
    allFinite 0x3F800000 0x3F800000 0x33800000 ∧ allFinite 0x7F7FFFFF 0x40000000 0 ∧ allFinite 0xFF7FFFFF 0x40000000 0 ∧
    (fnmsub32 0x3F800000 0x3F800000 0x33800000 (ctl .rd)).r = some 0xBF800001 ∧ isFinite 0xBF800001 = true ∧
    (fnmsub32 0x3F800000 0x3F800000 0x33800000 (ctl .ru)).r = some 0xBF800000 ∧ isFinite 0xBF800000 = true ∧
    (fnmsub32 0x3F800000 0x3F800000 0x33800000 (ctl .rn)).r = some 0xBF800000 ∧
    (fnmsub32 0x7F7FFFFF 0x40000000 0 (ctl .rd)).r = some 0xFF800000 ∧ isFinite 0xFF800000 = false ∧
    (fnmsub32 0xFF7FFFFF 0x40000000 0 (ctl .ru)).r = some 0x7F800000 ∧ isFinite 0x7F800000 = false ∧
    (fnmsub32 0x7F7FFFFF 0x40000000 0 (ctl .rz)).r = some 0xFF7FFFFF ∧
    (fnmsub32 0x7F7FFFFF 0x40000000 0 (ctl .rn)).r = some 0xFF800000 := by unfold allFinite; decide +kernel
/-- `overflows` as a Bool, for evaluation. -/
def overflowsB (rm : RoundMode) (e : Int) : Bool :=
  match roundingSide rm (decide (e < 0)) with
  | .nearest => decide ((2 ^ 128 - 2 ^ 103) * 2 ^ 298 ≤ e.natAbs)
  | .away => decide ((2 ^ 128 - 2 ^ 104) * 2 ^ 298 < e.natAbs)
  | .toward => decide (2 ^ 128 * 2 ^ 298 ≤ e.natAbs)
theorem overflows_iff (rm : RoundMode) (e : Int) : overflows rm e ↔ overflowsB rm e = true := by
  unfold overflows overflowsB
  generalize roundingSide rm (decide (e < 0)) = side
  cases side <;> exact decide_eq_true_iff.symm
/-- `tiny` as a Bool, for evaluation. -/
def tinyB (rm : RoundMode) (e : Int) : Bool :=
  decide (e ≠ 0) &&
    match roundingSide rm (decide (e < 0)) with
    | .nearest => decide (e.natAbs < 2 ^ 172 - 2 ^ 147)
    | .away => decide (e.natAbs ≤ 2 ^ 172 - 2 ^ 148)
    | .toward => decide (e.natAbs < 2 ^ 172)
theorem tiny_iff (rm : RoundMode) (e : Int) : tiny rm e ↔ tinyB rm e = true := by
  unfold tiny tinyB
  rw [Bool.and_eq_true, decide_eq_true_iff]
  generalize roundingSide rm (decide (e < 0)) = side
  cases side <;> exact and_congr_right fun _ => decide_eq_true_iff.symm
/-- DirectedRoundingIsCorrect, NearestRoundingIsCorrect with FTZ = 1: a result that is not tiny in any mode. -/
theorem witness_rounding_ftz :
    allFinite 0x3F800000 0x3F800000 0x33800000 ∧ ∀ rm ∈ [RoundMode.rn, .rd, .ru, .rz],
      ¬tiny rm (laneExact 0x3F800000 0x3F800000 0x33800000 ⟨rm, false, true, true, true⟩) ∧
      (fnmsub32 0x3F800000 0x3F800000 0x33800000 ⟨rm, false, true, true, true⟩).r =
        some (if rm = .rd then 0xBF800001 else 0xBF800000) := by
  simp only [allFinite, tiny_iff]; decide +kernel
/-- OverflowExactlyAtTheThreshold: the midpoint above the largest finite magnitude overflows to nearest, masked or not; 2^128 does
toward zero and 2^128 − 2^80 does not; away from zero what exceeds the largest finite magnitude does and that one does not. -/
theorem witness_overflow :
    allFinite 0x7F7FFFFF 0x3F800000 0x73000000 ∧ allFinite 0x7F000000 0x40000000 0 ∧ allFinite 0xFF7FFFFF 0x3F800000 0x80000001 ∧
    (∀ om : Bool,
      overflows .rn (laneExact 0x7F7FFFFF 0x3F800000 0x73000000 ⟨.rn, false, false, om, true⟩) ∧
      ¬overflows .rn (laneExact 0x7F7FFFFF 0x3F800000 0x72FFFFFF ⟨.rn, false, false, om, true⟩) ∧
      overflows .rz (laneExact 0x7F000000 0x40000000 0 ⟨.rz, false, false, om, true⟩) ∧
      ¬overflows .rz (laneExact 0x7F7FFFFF 0x3F800000 0x737FFFFF ⟨.rz, false, false, om, true⟩) ∧
      overflows .rd (laneExact 0x7F7FFFFF 0x3F800000 1 ⟨.rd, false, false, om, true⟩) ∧
      ¬overflows .rd (laneExact 0x7F7FFFFF 0x3F800000 0 ⟨.rd, false, false, om, true⟩) ∧
      overflows .ru (laneExact 0xFF7FFFFF 0x3F800000 0x80000001 ⟨.ru, false, false, om, true⟩) ∧
      ¬overflows .ru (laneExact 0xFF7FFFFF 0x3F800000 0 ⟨.ru, false, false, om, true⟩)) := by
  simp only [allFinite, overflows_iff]; decide +kernel
/-- TinyResultsUnderflow: rounded toward zero 3F7FFFFEH * 00800001H is tiny under each setting of the masks and of FTZ, to nearest
it is not; 3F000000H * 00FFFFFEH is tiny in every mode; 2^-126 in none. -/
theorem witness_tiny : ∀ ftz um : Bool,
    tiny .rz (laneExact 0x3F7FFFFE 0x00800001 0 ⟨.rz, false, ftz, true, um⟩) ∧
    ¬tiny .rn (laneExact 0x3F7FFFFE 0x00800001 0 ⟨.rn, false, ftz, true, um⟩) ∧
    tiny .ru (laneExact 0x3F7FFFFE 0x00800001 0 ⟨.ru, false, ftz, true, um⟩) ∧
    ¬tiny .rd (laneExact 0x3F7FFFFE 0x00800001 0 ⟨.rd, false, ftz, true, um⟩) ∧
    ∀ rm ∈ [RoundMode.rn, .rd, .ru, .rz],
      tiny rm (laneExact 0x3F000000 0x00FFFFFE 0 ⟨rm, false, ftz, true, um⟩) ∧
      ¬tiny rm (laneExact 0x3F800000 0x00800000 0 ⟨rm, false, ftz, true, um⟩) := by
  simp only [tiny_iff]; decide +kernel
/-- TinyResultsUnderflow: the operands of `witness_tiny` are finite. -/
theorem witness_tiny_finite :
    allFinite 0x3F7FFFFE 0x00800001 0 ∧ allFinite 0x3F000000 0x00FFFFFE 0 ∧ allFinite 0x3F800000 0x00800000 0 := by
  unfold allFinite; decide +kernel
/-- LanesWithoutResultTrap: underflow and overflow unmasked. -/
theorem witness_noResult :
    (fnmsub32 0x00800000 0x3F000000 0 ⟨.rn, false, false, true, false⟩).r = none ∧
    (fnmsub32 0x7F000000 0x40800000 0 ⟨.rn, false, false, false, true⟩).r = none := by decide +kernel
/-- SimdOutcomeHasTwoPhases: DE unmasked; only PE unmasked; all masked. -/
theorem witness_simdOutcome :
    (∃ f ∈ [flagDE, flagPE], ∃ i < 2, f.getLsbD i = true ∧ (0x1D : FlagSet).getLsbD i = false) ∧
    (¬∃ f ∈ [flagDE, flagPE], ∃ i < 2, f.getLsbD i = true ∧ (0x1F : FlagSet).getLsbD i = false) ∧
    (∃ f ∈ [flagDE, flagPE], ∃ i < 6, f.getLsbD i = true ∧ (0x1F : FlagSet).getLsbD i = false) ∧
    ¬∃ f ∈ [flagDE, flagPE], ∃ i < 6, f.getLsbD i = true ∧ (0x3F : FlagSet).getLsbD i = false := by decide +kernel

/-- What every VEX statement asks of state and instruction. -/
theorem witness_vexEnabled :
    vexEnabled startVex ∧ prefixesAllowed (List.replicate 10 (.seg .fs)) = true ∧
    vexLength (List.replicate 10 (.seg .fs)) (.reg 2) ≤ 15 ∧ prefixesAllowed [] = true ∧ vexLength [] (.reg 2) ≤ 15 ∧
    readVexOp3 startVex [] 4 (.reg 2) = .ok (all 4 0x40000000) ∧
    readVexOp3 startVex [] 8 (.reg 2) = .ok (all 4 0x40000000 ++ all 4 0) := by
  unfold vexEnabled pMode pOsVex pTs; decide +kernel
/-- What every EVEX statement asks of state and instruction. -/
theorem witness_evexEnabled :
    (∀ kl ∈ [4, 8, 16], pMode startVex ∧ startVex.feat.avx512f = true ∧ (kl < 16 → startVex.feat.avx512vl = true) ∧
      pOsEvex startVex ∧ pTs startVex) ∧
    prefixesAllowed [] = true ∧ Masking.legal ⟨0, false⟩ = true ∧ Masking.legal ⟨1, true⟩ = true ∧
    evexLength [] (.reg 2) ≤ 15 ∧
    (∀ kl ∈ [4, 8, 16], readEvexOp3 startVex [] (activeLanes startVex ⟨0, false⟩ kl) (.reg 2) =
      .ok (all 4 0x40000000 ++ all (kl - 4) 0)) := by
  unfold pMode pOsEvex pTs; decide +kernel
/-- Vfnmsub132VexCompletes, Vfnmsub213VexCompletes, Vfnmsub231VexCompletes, and the EVEX ones with all lanes active: with
`witness_vexEnabled` and `witness_evexEnabled`, no lane of `startVex` signals a flag in any form. -/
theorem witness_completes : ∀ kl ∈ [4, 8, 16], ∀ f ∈ [Form.f132, .f213, .f231], ∀ j < kl,
    (formLane f (lane (startVex.getZmm 0) j) (lane (startVex.getZmm 1) j) ((all 4 0x40000000 ++ all (kl - 4) 0).getD j 0)
      (mxControl startVex.mxcsr)).fl &&& ~~~(mxMasks startVex.mxcsr) = 0 := by decide +kernel
/-- Vfnmsub132ErCompletes, Vfnmsub213ErCompletes, Vfnmsub231ErCompletes. -/
theorem witness_er :
    evexEnabled (mx 0 startVex) 16 ∧ prefixesAllowed [] = true ∧ Masking.legal ⟨7, true⟩ = true ∧
    evexLength [] (.reg 31) ≤ 15 := by
  unfold evexEnabled pMode pCpuidEvex pOsEvex pTs; decide +kernel
/-- A state whose lane 0 signals an unmasked PE in form 132. -/
def trapping : State := mx 0x0F80 (zmm 0 [0x3F800000] (zmm 1 [0x33800000] (zmm 2 [0x3F800000] launch)))
/-- VexTrapRaisesXmOrUd, EvexTrapRaisesXmOrUd, FaultsArePrecise: #XM. -/
theorem witness_trap :
    vexEnabled trapping ∧ evexEnabled trapping 4 ∧
    readVexOp3 trapping [] 4 (.reg 2) = .ok [0x3F800000, 0, 0, 0] ∧
    readEvexOp3 trapping [] (activeLanes trapping ⟨0, false⟩ 4) (.reg 2) = .ok [0x3F800000, 0, 0, 0] ∧
    simdFpOutcome ((List.range 4).map fun j =>
      (formLane .f132 (lane (trapping.getZmm 0) j) (lane (trapping.getZmm 1) j) (([0x3F800000, 0, 0, 0] : List F32).getD j 0)
        (mxControl trapping.mxcsr)).fl) (mxMasks trapping.mxcsr) = .trap flagPE ∧
    simdFpOutcome (((List.range 4).filter fun j => active trapping ⟨0, false⟩ j).map fun j =>
      (formLane .f132 (lane (trapping.getZmm 0) j) (lane (trapping.getZmm 1) j) (([0x3F800000, 0, 0, 0] : List F32).getD j 0)
        (mxControl trapping.mxcsr)).fl) (mxMasks trapping.mxcsr) = .trap flagPE ∧
    (vectorOf (step (trapping.memWrite 0x1000 regBytes))).isSome = true := by
  unfold vexEnabled evexEnabled pMode pCpuidEvex pOsVex pOsEvex pTs; decide +kernel
/-- EmptyMaskReadsAndSignalsNothing: bits 16 and up of k1 are set, the low 16 are not. -/
theorem witness_emptyMask :
    evexEnabled (kreg 1 0xFFFF0000 startVex) 16 ∧ prefixesAllowed [] = true ∧ evexLength [] (.mem (.base 0 .none)) ≤ 15 ∧
    (⟨1, false⟩ : Masking).aaa ≠ 0 ∧ ∀ j < 16, ((kreg 1 0xFFFF0000 startVex).getK 1).getLsbD j = false := by
  unfold evexEnabled pMode pCpuidEvex pOsEvex pTs; decide +kernel
/-- VexAndEvexFormsAgree: registers, and memory with the displacement 32 as disp8 = 20H and scaled, disp8 = 02H. -/
theorem witness_vexAndEvex :
    vexEnabled (rax 0x2000 launch) ∧ evexEnabled (rax 0x2000 launch) 4 ∧ prefixesAllowed [] = true ∧
    vexLength [] (.mem (.base 0 (.d8 0x20))) ≤ 15 ∧ evexLength [] (.mem (.base 0 (.d8 2))) ≤ 15 ∧
    readVexOp3 (rax 0x2000 launch) [] 4 (.mem (.base 0 (.d8 0x20))) =
      readEvexOp3 (rax 0x2000 launch) [] (List.replicate 4 true) (.mem (.base 0 (.d8 2))) := by
  unfold vexEnabled evexEnabled pMode pCpuidEvex pOsVex pOsEvex pTs; decide +kernel
/-- VexUdConditionsRaiseUd, EvexUdConditionsRaiseUd, LongInstructionRaisesGp: 64-bit mode with all else as reset leaves it, fifteen
bytes and sixteen. -/
theorem witness_ud :
    pMode { State.reset with mode := .mode64 } ∧ State.reset.cr4.getLsbD 18 = false ∧
    vexLength (List.replicate 10 .lock) (.reg 2) ≤ 15 ∧ evexLength (List.replicate 9 .lock) (.reg 2) ≤ 15 ∧
    prefixesAllowed (List.replicate 9 .lock) = false ∧
    15 < (Instr.vfnmsub132EvexXmm (List.replicate 10 (.seg .ds)) ⟨0, true⟩ 0 1 (.reg 2)).length := by
  unfold pMode; decide +kernel
/-- TaskSwitchedRaisesNm. -/
theorem witness_nm :
    pMode { launch with cr0 := 8 } ∧ BitVec.getLsbD ({ launch with cr0 := 8 } : State).cr0 3 = true ∧
    prefixesAllowed [] = true ∧ Masking.legal ⟨0, false⟩ = true ∧ launch.feat.fma = true ∧
    pOsVex { launch with cr0 := 8 } ∧ pCpuidEvex { launch with cr0 := 8 } 4 ∧ pCpuidEvex { launch with cr0 := 8 } 16 ∧
    pOsEvex { launch with cr0 := 8 } ∧ vexLength [] (.reg 2) ≤ 15 ∧ evexLength [] (.reg 2) ≤ 15 := by
  unfold pMode pOsVex pCpuidEvex pOsEvex; decide +kernel
/-- OperandFaultLeavesTheState and LowestFaultingByteDecides: byte 15 of the operand, the last one, is not there. -/
theorem witness_operandFault :
    vexEnabled (unmapped (rax 0x2011 launch)) ∧ evexEnabled (unmapped (rax 0x2011 launch)) 4 ∧
    pAc (unmapped (rax 0x2011 launch)) ∧
    readVexOp3 (unmapped (rax 0x2011 launch)) [] 4 (.mem (.base 0 .none)) = .error (.exc (.pf 0 0x2020)) ∧
    readEvexOp3 (unmapped (rax 0x2011 launch)) [] (activeLanes (unmapped (rax 0x2011 launch)) ⟨0, false⟩ 4)
      (.mem (.base 0 .none)) = .error (.exc (.pf 0 0x2020)) ∧
    vexLength [] (.mem (.base 0 .none)) ≤ 15 ∧ evexLength [] (.mem (.base 0 .none)) ≤ 15 := by
  unfold vexEnabled evexEnabled pMode pCpuidEvex pOsVex pOsEvex pTs pAc; decide +kernel
/-- LowestFaultingByteDecides: lanes 0 to 2 of the operand are there but not active, lane 3 is not there and active; and the last
byte of a broadcast datum is not there, one lane being active. -/
theorem witness_operandFault_masked :
    pAc (kreg 1 8 (unmapped (rax 0x2014 launch))) ∧ active (kreg 1 8 launch) ⟨1, false⟩ (12 / 4) = true ∧
    readEvexOp3 (kreg 1 8 (unmapped (rax 0x2014 launch))) []
      (activeLanes (kreg 1 8 (unmapped (rax 0x2014 launch))) ⟨1, false⟩ 4) (.mem (.base 0 .none)) =
      .error (.exc (.pf 0 0x2020)) ∧
    readEvexOp3 (kreg 1 8 (unmapped (rax 0x201D launch))) []
      (activeLanes (kreg 1 8 (unmapped (rax 0x201D launch))) ⟨1, false⟩ 4) (.bcst (.base 0 .none)) =
      .error (.exc (.pf 0 0x2020)) := by
  unfold pAc; decide +kernel
/-- LowestFaultingByteDecides, the bytes: at 2011H the fifteen lower ones come and byte 15 does not; at 2014H the same of bytes 11 and
12, of which only the latter is active; at 201DH of bytes 2 and 3; and at 2020H byte 0 does not. -/
theorem witness_lowestByte :
    (∀ a ∈ [(0x2011, 15), (0x2014, 12), (0x201D, 3), (0x2020, 0)],
      (∀ j < a.2, accessByte (unmapped launch) .read .ds (BitVec.ofNat 64 a.1 + BitVec.ofNat 64 j) = .ok 0) ∧
      accessByte (unmapped launch) .read .ds (BitVec.ofNat 64 a.1 + BitVec.ofNat 64 a.2) = .error (.exc (.pf 0 0x2020))) ∧
    operandSegment [] (.base 0 .none) = .ds ∧
    readVexOp3 (unmapped (rax 0x2020 launch)) [] 4 (.mem (.base 0 .none)) = .error (.exc (.pf 0 0x2020)) := by decide +kernel
/-- An operand from 2^64 - 4 on, of which the bytes at 2^64 - 2 and at 3 are not there. -/
def wrapping : State :=
  { rax 0xFFFFFFFFFFFFFFFC launch with
    xlat := ⟨false, [⟨0xFFFFFFFFFFFFFFFE, 1, .pageFault ⟨false, false, false, false⟩, .memory⟩,
      ⟨3, 1, .pageFault ⟨false, false, false, false⟩, .memory⟩]⟩ }
/-- 60_exceptions.md R231 step 5, 42_vfnmsub_evex.md R195: the lowest address, past the wrap, is the one reported, by a VEX form, an
EVEX form and a broadcast; before the wrap where lane 1 is not active. One `MemRead` by itself says the lowest offset
(20_memory.md R58). -/
theorem test_lowest_address :
    readVexOp3 wrapping [] 4 (.mem (.base 0 .none)) = .error (.exc (.pf 0 3)) ∧
    readEvexOp3 wrapping [] [true, true, false, true] (.mem (.base 0 .none)) = .error (.exc (.pf 0 3)) ∧
    readEvexOp3 wrapping [] [true, false, true, true] (.mem (.base 0 .none)) =
      .error (.exc (.pf 0 0xFFFFFFFFFFFFFFFE)) ∧
    readEvexOp3 { wrapping with gpr := wrapping.gpr.set 0 0xFFFFFFFFFFFFFFFE } [] [true, false, false, false]
      (.bcst (.base 0 (.d8 0))) = .error (.exc (.pf 0 0xFFFFFFFFFFFFFFFE)) ∧
    memRead wrapping .ds 16 0xFFFFFFFFFFFFFFFC = .error (.exc (.pf 0 0xFFFFFFFFFFFFFFFE)) := by decide +kernel
/-- VexOperand3IsRead: the last register; sixteen bytes that end just below what is not there, from an odd address; and
thirty-two. -/
theorem witness_vexOperand3 :
    readVexOp3 (zmm 15 vecA launch) [] 4 (.reg 15) = .ok vecA ∧
    pAc (unmapped (rax 0x2010 launch)) ∧
    (∀ i < 16, accessible (unmapped (rax 0x2010 launch)) .read (0x2010 + BitVec.ofNat 64 i)) ∧
    linearAddress (unmapped (rax 0x2010 launch)) [] 5 1 (.base 0 .none) = 0x2010 ∧
    (∀ i < 32, accessible (unmapped launch) .read (0x1FFF + BitVec.ofNat 64 i)) := by
  unfold pAc accessible; decide +kernel
/-- EvexOperand3IsRead: the last register; lanes 8 to 15 of the operand are not there and not active. -/
theorem witness_evexOperand3 :
    readEvexOp3 (zmm 31 vecA launch) [] (activeLanes launch ⟨0, false⟩ 4) (.reg 31) = .ok vecA ∧
    pAc (kreg 1 0xFF (unmapped (rax 0x2000 launch))) ∧
    linearAddress (kreg 1 0xFF (unmapped (rax 0x2000 launch))) [] 6 64 (.base 0 .none) = 0x2000 ∧
    ¬accessible (unmapped launch) .read 0x2020 ∧
    ∀ j < 16, active (kreg 1 0xFF (unmapped (rax 0x2000 launch))) ⟨1, false⟩ j = true → ∀ i < 4,
      accessible (kreg 1 0xFF (unmapped (rax 0x2000 launch))) .read (0x2000 + BitVec.ofNat 64 (4 * j + i)) := by
  unfold pAc accessible; decide +kernel
/-- BroadcastIsOneDatumInEveryLane: only the last lane active; and none, though bit 4 of the mask is set. -/
theorem witness_broadcast :
    pAc (kreg 1 8 (unmapped (rax 0x201C launch))) ∧
    linearAddress (kreg 1 8 (unmapped (rax 0x201C launch))) [] 6 4 (.base 0 .none) = 0x201C ∧
    (∃ j < 4, active (kreg 1 8 (unmapped (rax 0x201C launch))) ⟨1, false⟩ j = true) ∧
    (∀ i < 4, accessible (kreg 1 8 (unmapped (rax 0x201C launch))) .read (0x201C + BitVec.ofNat 64 i)) ∧
    ∀ j < 4, active (kreg 1 0x10 launch) ⟨1, false⟩ j = false := by
  unfold pAc accessible; decide +kernel
/-- A state with alignment checking on, RAX holding an address. -/
def checking (a : Addr) : State := { rax a launch with cr0 := 0x40000, rflags := 0x40000, cs := 3 }
/-- OutsideTheSpecIsRefusedByName: a mode, memory with side effects, alignment checking on at an address not aligned to 16, to 64
and to 4, all lanes active; and the aligned address 2010H, which the statements about reads still cover then. -/
theorem witness_refused :
    ¬pMode State.reset ∧ ¬pMode { launch with mode := .compatibility } ∧
    Machine.translate ⟨false, [⟨0x200F, 1, .sideEffects, .memory⟩]⟩ .read 0x200F = .sideEffects ∧ canonical false 0x200F = true ∧
    alignmentChecking (checking 0x2001) = true ∧
    (linearAddress (checking 0x2001) [] (vexLength [] (.mem (.base 0 .none))) 1 (.base 0 .none)).toNat % (4 * 4) ≠ 0 ∧
    (∃ j < 16, active (checking 0x2020) ⟨0, false⟩ j = true) ∧
    (linearAddress (checking 0x2020) [] (evexLength [] (.mem (.base 0 .none))) (4 * 16) (.base 0 .none)).toNat % (4 * 16)
      ≠ 0 ∧
    (linearAddress (checking 0x2001) [] (evexLength [] (.bcst (.base 0 .none))) 4 (.base 0 .none)).toNat % 4 ≠ 0 ∧
    (linearAddress (checking 0x2010) [] 5 1 (.base 0 .none)).toNat % 16 = 0 := by
  unfold pMode; decide +kernel
/-- EffectiveAddressIsTheSum, SegmentOfAMemoryOperand: an override and none; an address that is not canonical and one that is. -/
theorem witness_address :
    LegacyPrefix.addr32 ∈ [LegacyPrefix.seg .fs, .addr32] ∧ LegacyPrefix.addr32 ∉ [LegacyPrefix.seg .fs] ∧
    operandSegment [.seg .gs, .addr32] (.base 4 .none) = .gs ∧ operandSegment [.addr32] (.base 5 (.d8 0)) = .ss ∧
    canonical false 0x800000000000 = false ∧ canonical false 0x7FFFFFFFFFFF = true ∧
    canonical true 0x800000000000 = true := by decide +kernel
/-- StepKeepsTheInvariant, StepChangesOnlyDestinationFlagsRip, StickyFlagsDoNotInfluence: a step from a state that meets the
invariant. -/
theorem witness_step : Safety.Inv (loaded regBytes) ∧ ∃ t, step (loaded regBytes) = .next t := by
  refine ⟨?_, exists_next (by decide +kernel)⟩
  unfold Safety.Inv pMxcsr vectorFileFits opmaskFileFits
  decide +kernel
/-- FaultsArePrecise, StickyFlagsDoNotInfluence: a page fault; a trap, which sets flags; and a refusal. -/
theorem witness_fault :
    (∃ f, step (fetchStop 0x1000 launch) = .fault f) ∧ (∃ f, step (trapping.memWrite 0x1000 regBytes) = .fault f) ∧
    refusalOf (step launch) = some (.notInScope .notVexOrEvex) :=
  ⟨exists_fault (by decide +kernel), exists_fault (by decide +kernel), by decide +kernel⟩
/-- A state in which only the first eight lanes of the operand at RAX are there and active under k1. -/
def halfOperand : State := kreg 1 0xFF (unmapped (rax 0x2000 launch))
/-- MaskedStateCompletesWithoutXm: a masked state; and all the premises, for a form with a memory operand whose last active byte is
the last one there. -/
theorem witness_masked :
    pMasked (loaded regBytes) ∧
    (Instr.vfnmsub213EvexZmm [] ⟨1, false⟩ 0 1 (.mem (.base 0 .none))).wellFormed = true ∧
    evexEnabled halfOperand 16 ∧ pAc halfOperand ∧ pMasked halfOperand := by
  unfold pMasked evexEnabled pMode pCpuidEvex pOsEvex pTs pAc; decide +kernel
/-- The bytes that form reads: those of the active lanes. -/
theorem test_operandBytes :
    operandBytes halfOperand (.vfnmsub213EvexZmm [] ⟨1, false⟩ 0 1 (.mem (.base 0 .none))) =
      (List.range 32).map (fun i => 0x2000 + BitVec.ofNat 64 i) := by decide +kernel
theorem halfOperand_accessible : ∀ i < 32, accessible halfOperand .read (0x2000 + BitVec.ofNat 64 i) := by
  unfold accessible; decide +kernel
/-- MaskedStateCompletesWithoutXm: P_mem of the same form. -/
theorem witness_pMem : pMem halfOperand (.vfnmsub213EvexZmm [] ⟨1, false⟩ 0 1 (.mem (.base 0 .none))) := by
  intro a ha
  rw [test_operandBytes] at ha
  obtain ⟨i, hi, rfl⟩ := List.mem_map.mp ha
  exact halfOperand_accessible i (List.mem_range.mp hi)
/-- `enabled` of the same form is `evexEnabled` for sixteen lanes. -/
theorem witness_enabled :
    enabled halfOperand (.vfnmsub213EvexZmm [] ⟨1, false⟩ 0 1 (.mem (.base 0 .none))) = evexEnabled halfOperand 16 := by
  simp only [enabled, isVex, lanesOf, Bool.false_eq_true, if_false]
/-- HighOpmaskBitsAreIgnored: two files of opmasks that differ in bit 4 of k1, for a form of four lanes that completes, one that
traps and one that is refused. -/
theorem witness_highOpmask :
    (∀ (r : BitVec 3), ∀ j < 4, ((kreg 1 0x15 startVex).getK r).getLsbD j = ((kreg 1 5 startVex).getK r).getLsbD j) ∧
    (kreg 1 0x15 startVex).getK 1 ≠ (kreg 1 5 startVex).getK 1 ∧
    (∃ t, exec (.vfnmsub132EvexXmm [] ⟨1, false⟩ 0 1 (.reg 2)) (kreg 1 5 startVex) = .next t) ∧
    (∃ f, exec (.vfnmsub132EvexXmm [] ⟨1, false⟩ 0 1 (.reg 2)) (kreg 1 5 trapping) = .fault f) ∧
    refusalOf (exec (.vfnmsub132EvexXmm [] ⟨1, false⟩ 0 1 (.reg 2)) (kreg 1 5 { startVex with mode := .bit16 })) =
      some .modeOutOfScope := by
  refine ⟨by decide +kernel, by decide +kernel, exists_next (by decide +kernel), exists_fault (by decide +kernel),
    by decide +kernel⟩
/-- NothingExecutesAtReset: a form of fifteen bytes. -/
theorem witness_reset : (Instr.vfnmsub132VexXmm (List.replicate 10 (.seg .ds)) 0 1 (.reg 2)).length ≤ 15 := by
  decide +kernel

end Sys2Proof.Tests
end

section
/-! SUPPORT. Which bytes the decoder takes for an instruction in scope or a reserved encoding of one: the decoder read field
by field, and its inversion. -/

namespace Sys2Proof

open Sys2Proof.Safety

/-! ## Legacy prefixes -/

/-- The inverse of `legacyOf_byte`. -/
theorem byte_of_legacyOf (b : Byte) (q : LegacyPrefix) (h : legacyOf b = some q) : q.byte = b := by
  have all : ∀ b : Byte, ∀ q ∈ legacyOf b, q.byte = b := by decide +kernel
  exact all b q h

/-- The two parts of a split are the bytes that were split. -/
theorem map_byte_splitLegacy (bs : List Byte) : (splitLegacy bs).1.map LegacyPrefix.byte ++ (splitLegacy bs).2 = bs := by
  induction bs with
  | nil => rfl
  | cons b bs ih =>
    unfold splitLegacy
    split
    · rfl
    · next q hq => simp [byte_of_legacyOf b q hq, ih]

/-- Up to a byte outside the legacy prefixes the decoder collects the prefixes and goes on with it. -/
theorem decode_prefixes (p : List LegacyPrefix) (b : Byte) (rest : List Byte) (hb : legacyOf b = none) :
    decode (p.map LegacyPrefix.byte ++ b :: rest) = decodeBody p (b :: rest) := by
  simp [decode, splitLegacy_map p b rest hb]

theorem decode_prefixes_c4 (p : List LegacyPrefix) (rest : List Byte) :
    decode (p.map LegacyPrefix.byte ++ 0xC4 :: rest) = decodeVex p rest := by
  rw [decode_prefixes p _ rest legacyOf_c4, decodeBody, if_pos rfl]

theorem decode_prefixes_62 (p : List LegacyPrefix) (rest : List Byte) :
    decode (p.map LegacyPrefix.byte ++ 0x62 :: rest) = decodeEvex p rest := by
  rw [decode_prefixes p _ rest legacyOf_62, decodeBody, if_neg (by decide), if_pos rfl]

/-! ## The fixed fields -/

/-- A form exactly for the three opcode bytes (30_encoding.md R97). -/
theorem formOf_eq_none_iff (op : Byte) : formOf op = none ↔ ¬(op = 0x9E ∨ op = 0xAE ∨ op = 0xBE) := by
  unfold formOf
  split_ifs <;> simp only [false_iff, true_iff, not_not] <;> tauto

theorem formOf_of_opcode (op : Byte) (h : op = 0x9E ∨ op = 0xAE ∨ op = 0xBE) : ∃ f, formOf op = some f := by
  obtain rfl | rfl | rfl := h
  exacts [⟨.f132, rfl⟩, ⟨.f213, rfl⟩, ⟨.f231, rfl⟩]

section FixedFields
variable (p : List LegacyPrefix) (b1 b2 p0 p1 p2 op : Byte) (rest : List Byte)

theorem decodeVex_opcodeMap (hmap : b1.extractLsb' 0 5 ≠ 2) : decodeVex p (b1 :: rest) = .notInScope .opcodeMap := by
  simp only [decodeVex, if_pos hmap]

/-- W is looked at as soon as its byte is there (30_encoding.md R98). -/
theorem decodeVex_wBit (hmap : b1.extractLsb' 0 5 = 2) (hw : b2.extractLsb' 7 1 ≠ 0) :
    decodeVex p (b1 :: b2 :: rest) = .notInScope .wBit := by
  simp only [decodeVex, if_neg (not_not.2 hmap), if_pos hw]

theorem decodeVex_ppField (hmap : b1.extractLsb' 0 5 = 2) (hw : b2.extractLsb' 7 1 = 0) (hpp : b2.extractLsb' 0 2 ≠ 1) :
    decodeVex p (b1 :: b2 :: rest) = .notInScope .ppField := by
  simp only [decodeVex, if_neg (not_not.2 hmap), if_neg (not_not.2 hw), if_pos hpp]

theorem decodeVex_opcodeByte (hmap : b1.extractLsb' 0 5 = 2) (hw : b2.extractLsb' 7 1 = 0)
    (hpp : b2.extractLsb' 0 2 = 1) (hop : formOf op = none) :
    decodeVex p (b1 :: b2 :: op :: rest) = .notInScope .opcodeByte := by
  simp only [decodeVex, if_neg (not_not.2 hmap), if_neg (not_not.2 hw), if_neg (not_not.2 hpp), hop]

/-- Another value of a fixed field of a VEX form is refused (30_encoding.md R113). -/
theorem decodeVex_of_not_vexMatches (h : ¬vexMatches b1 b2 op) :
    ∃ why, decodeVex p (b1 :: b2 :: op :: rest) = .notInScope why := by
  by_cases hmap : b1.extractLsb' 0 5 = 2
  · by_cases hw : b2.extractLsb' 7 1 = 0
    · by_cases hpp : b2.extractLsb' 0 2 = 1
      · have hop : formOf op = none := (formOf_eq_none_iff op).2 fun hop => h ⟨hmap, hw, hpp, hop⟩
        exact ⟨_, decodeVex_opcodeByte p b1 b2 op rest hmap hw hpp hop⟩
      · exact ⟨_, decodeVex_ppField p b1 b2 (op :: rest) hmap hw hpp⟩
    · exact ⟨_, decodeVex_wBit p b1 b2 (op :: rest) hmap hw⟩
  · exact ⟨_, decodeVex_opcodeMap p b1 (b2 :: op :: rest) hmap⟩

/-- With matching fixed fields the ModRM byte is wanted, and the operands are decoded from it on (30_encoding.md R109). -/
theorem decodeVex_of_vexMatches (h : vexMatches b1 b2 op) :
    ∃ f, formOf op = some f ∧ decodeVex p [b1, b2, op] = .needMore ∧
      ∀ m bs, decodeVex p (b1 :: b2 :: op :: m :: bs) = decodeVexOperands p b1 b2 f m bs := by
  obtain ⟨hmap, hw, hpp, hop⟩ := h
  obtain ⟨f, hf⟩ := formOf_of_opcode op hop
  refine ⟨f, hf, ?_, fun m bs => ?_⟩ <;>
    simp only [decodeVex, if_neg (not_not.2 hmap), if_neg (not_not.2 hw), if_neg (not_not.2 hpp), hf]

theorem decodeEvex_opcodeMap (hmap : p0.extractLsb' 0 2 ≠ 2) : decodeEvex p (p0 :: rest) = .notInScope .opcodeMap := by
  simp only [decodeEvex, if_pos hmap]

/-- W is looked at as soon as its byte is there (30_encoding.md R98). -/
theorem decodeEvex_wBit (hmap : p0.extractLsb' 0 2 = 2) (hw : p1.extractLsb' 7 1 ≠ 0) :
    decodeEvex p (p0 :: p1 :: rest) = .notInScope .wBit := by
  simp only [decodeEvex, if_neg (not_not.2 hmap), if_pos hw]

theorem decodeEvex_ppField (hmap : p0.extractLsb' 0 2 = 2) (hw : p1.extractLsb' 7 1 = 0)
    (hpp : p1.extractLsb' 0 2 ≠ 1) : decodeEvex p (p0 :: p1 :: rest) = .notInScope .ppField := by
  simp only [decodeEvex, if_neg (not_not.2 hmap), if_neg (not_not.2 hw), if_pos hpp]

theorem decodeEvex_opcodeByte (hmap : p0.extractLsb' 0 2 = 2) (hw : p1.extractLsb' 7 1 = 0)
    (hpp : p1.extractLsb' 0 2 = 1) (hop : formOf op = none) :
    decodeEvex p (p0 :: p1 :: p2 :: op :: rest) = .notInScope .opcodeByte := by
  simp only [decodeEvex, if_neg (not_not.2 hmap), if_neg (not_not.2 hw), if_neg (not_not.2 hpp), hop]

/-- Another value of a fixed field of an EVEX form, the reserved bits aside, is refused (30_encoding.md R113). -/
theorem decodeEvex_of_not_evexMatches (h : ¬evexMatches p0 p1 op) :
    ∃ why, decodeEvex p (p0 :: p1 :: p2 :: op :: rest) = .notInScope why := by
  by_cases hmap : p0.extractLsb' 0 2 = 2
  · by_cases hw : p1.extractLsb' 7 1 = 0
    · by_cases hpp : p1.extractLsb' 0 2 = 1
      · have hop : formOf op = none := (formOf_eq_none_iff op).2 fun hop => h ⟨hmap, hw, hpp, hop⟩
        exact ⟨_, decodeEvex_opcodeByte p p0 p1 p2 op rest hmap hw hpp hop⟩
      · exact ⟨_, decodeEvex_ppField p p0 p1 (p2 :: op :: rest) hmap hw hpp⟩
    · exact ⟨_, decodeEvex_wBit p p0 p1 (p2 :: op :: rest) hmap hw⟩
  · exact ⟨_, decodeEvex_opcodeMap p p0 (p1 :: p2 :: op :: rest) hmap⟩

/-- With matching fixed fields the ModRM byte is wanted, and the operands are decoded from it on (30_encoding.md R109). -/
theorem decodeEvex_of_evexMatches (h : evexMatches p0 p1 op) :
    ∃ f, formOf op = some f ∧ decodeEvex p [p0, p1, p2, op] = .needMore ∧
      ∀ m bs, decodeEvex p (p0 :: p1 :: p2 :: op :: m :: bs) = decodeEvexOperands p p0 p1 p2 f m bs := by
  obtain ⟨hmap, hw, hpp, hop⟩ := h
  obtain ⟨f, hf⟩ := formOf_of_opcode op hop
  refine ⟨f, hf, ?_, fun m bs => ?_⟩ <;>
    simp only [decodeEvex, if_neg (not_not.2 hmap), if_neg (not_not.2 hw), if_neg (not_not.2 hpp), hf]

end FixedFields

/-! ## Encodings in scope -/

/-- The decoder's answer is an instruction or a reserved encoding of one. -/
def Decoded.inScope : Decoded → Bool
  | .instr _ _ => true
  | .undefined _ => true
  | .needMore => false
  | .notInScope _ => false

/-- A VEX form has its three bytes after C4H, and their fixed fields match. -/
theorem vexMatches_of_decodeVex (p : List LegacyPrefix) (bs : List Byte) (h : (decodeVex p bs).inScope = true) :
    ∃ b1 b2 op more, bs = b1 :: b2 :: op :: more ∧ vexMatches b1 b2 op := by
  match bs with
  | [] => simp [decodeVex, Decoded.inScope] at h
  | [b1] =>
    simp only [decodeVex] at h
    split at h <;> cases h
  | [b1, b2] =>
    simp only [decodeVex] at h
    (repeat' split at h) <;> cases h
  | b1 :: b2 :: op :: more =>
    refine ⟨b1, b2, op, more, rfl, ?_⟩
    by_contra hn
    obtain ⟨why, hwhy⟩ := decodeVex_of_not_vexMatches p b1 b2 op more hn
    simp [hwhy, Decoded.inScope] at h

/-- An EVEX form has its four bytes after 62H, and their fixed fields match. -/
theorem evexMatches_of_decodeEvex (p : List LegacyPrefix) (bs : List Byte) (h : (decodeEvex p bs).inScope = true) :
    ∃ p0 p1 p2 op more, bs = p0 :: p1 :: p2 :: op :: more ∧ evexMatches p0 p1 op := by
  match bs with
  | [] => simp [decodeEvex, Decoded.inScope] at h
  | [p0] =>
    simp only [decodeEvex] at h
    split at h <;> cases h
  | [p0, p1] =>
    simp only [decodeEvex] at h
    (repeat' split at h) <;> cases h
  | [p0, p1, p2] =>
    simp only [decodeEvex] at h
    (repeat' split at h) <;> cases h
  | p0 :: p1 :: p2 :: op :: more =>
    refine ⟨p0, p1, p2, op, more, rfl, ?_⟩
    by_contra hn
    obtain ⟨why, hwhy⟩ := decodeEvex_of_not_evexMatches p p0 p1 p2 op more hn
    simp [hwhy, Decoded.inScope] at h

/-- Bytes in scope are legacy prefixes before the VEX or the EVEX layout with its fixed fields (30_encoding.md R109). -/
theorem decode_inScope_cases (bs : List Byte) (h : (decode bs).inScope = true) :
    ∃ (p : List LegacyPrefix) (more : List Byte),
      (∃ b1 b2 op, bs = p.map LegacyPrefix.byte ++ 0xC4 :: b1 :: b2 :: op :: more ∧ vexMatches b1 b2 op) ∨
      (∃ p0 p1 p2 op, bs = p.map LegacyPrefix.byte ++ 0x62 :: p0 :: p1 :: p2 :: op :: more ∧ evexMatches p0 p1 op) := by
  have hsplit := map_byte_splitLegacy bs
  unfold decode at h
  generalize (splitLegacy bs).1 = p at h hsplit
  generalize (splitLegacy bs).2 = body at h hsplit
  unfold decodeBody at h
  split at h
  · cases h
  · next b tail =>
    split at h
    · next hb =>
      obtain ⟨b1, b2, op, more, rfl, hm⟩ := vexMatches_of_decodeVex p tail h
      exact ⟨p, more, .inl ⟨b1, b2, op, by rw [← hsplit, hb], hm⟩⟩
    · split at h
      · next hb =>
        obtain ⟨p0, p1, p2, op, more, rfl, hm⟩ := evexMatches_of_decodeEvex p tail h
        exact ⟨p, more, .inr ⟨p0, p1, p2, op, by rw [← hsplit, hb], hm⟩⟩
      · cases h

/-! ## Reserved encodings -/

theorem evexReserved_eq_false_iff (p0 p1 : Byte) : evexReserved p0 p1 = false ↔ evexReservedKept p0 p1 := by
  simp [evexReserved, evexReservedKept]

theorem decodeVexOperands_ne_undefined (p : List LegacyPrefix) (b1 b2 : Byte) (f : Form) (m : Byte) (bs rest : List Byte) :
    decodeVexOperands p b1 b2 f m bs ≠ .undefined rest := by
  intro h
  simp only [decodeVexOperands] at h
  split at h
  · cases h
  · split at h <;> cases h

/-- A VEX form has no reserved encoding. -/
theorem decodeVex_ne_undefined (p : List LegacyPrefix) (bs rest : List Byte) : decodeVex p bs ≠ .undefined rest := by
  intro h
  obtain ⟨b1, b2, op, more, rfl, hm⟩ := vexMatches_of_decodeVex p bs (by rw [h]; rfl)
  obtain ⟨f, -, hneed, hoperands⟩ := decodeVex_of_vexMatches p b1 b2 op hm
  cases more with
  | nil => rw [hneed] at h; cases h
  | cons m bs => exact decodeVexOperands_ne_undefined p b1 b2 f m bs rest (hoperands m bs ▸ h)

/-- An EVEX form with a reserved bit set against R86 is no instruction (30_encoding.md R111). -/
theorem decodeEvexOperands_ne_instr (p : List LegacyPrefix) (p0 p1 p2 : Byte) (f : Form) (m : Byte) (bs rest : List Byte)
    (i : Instr) (hr : evexReserved p0 p1 = true) : decodeEvexOperands p p0 p1 p2 f m bs ≠ .instr i rest := by
  intro h
  simp only [decodeEvexOperands, hr, if_true] at h
  split at h
  · split at h <;> cases h
  · split at h <;> cases h

/-- The reserved bits of an EVEX instruction have the values of R86 (30_encoding.md R111). -/
theorem evexReservedKept_of_decodeEvex (p : List LegacyPrefix) (p0 p1 p2 op : Byte) (more rest : List Byte) (i : Instr)
    (hm : evexMatches p0 p1 op) (h : decodeEvex p (p0 :: p1 :: p2 :: op :: more) = .instr i rest) :
    evexReservedKept p0 p1 := by
  rw [← evexReserved_eq_false_iff, ← Bool.not_eq_true]
  intro hr
  obtain ⟨f, -, hneed, hoperands⟩ := decodeEvex_of_evexMatches p p0 p1 p2 op hm
  cases more with
  | nil => rw [hneed] at h; cases h
  | cons m bs => exact decodeEvexOperands_ne_instr p p0 p1 p2 f m bs rest i hr (hoperands m bs ▸ h)

end Sys2Proof
end

section
/-! What the decoder refuses: the statement O5. -/

namespace Sys2Proof

open Sys2Proof.Safety

/-- The bytes of an instruction: every fixed field matches, the reserved bits of an EVEX form among them. -/
theorem fields_of_decode_instr (bs rest : List Byte) (i : Instr) (h : decode bs = .instr i rest) :
    ∃ (p : List LegacyPrefix) (more : List Byte),
      (∃ b1 b2 op, bs = p.map LegacyPrefix.byte ++ 0xC4 :: b1 :: b2 :: op :: more ∧ vexMatches b1 b2 op) ∨
      (∃ p0 p1 p2 op, bs = p.map LegacyPrefix.byte ++ 0x62 :: p0 :: p1 :: p2 :: op :: more ∧ evexMatches p0 p1 op ∧
        evexReservedKept p0 p1) := by
  obtain ⟨p, more, hvex | ⟨p0, p1, p2, op, rfl, hm⟩⟩ := decode_inScope_cases bs (by rw [h]; rfl)
  · exact ⟨p, more, .inl hvex⟩
  · rw [decode_prefixes_62] at h
    exact ⟨p, more, .inr ⟨p0, p1, p2, op, rfl, hm, evexReservedKept_of_decodeEvex p p0 p1 p2 op more rest i hm h⟩⟩

/-- A reserved encoding is an EVEX form but for its reserved bits or its length. -/
theorem fields_of_decode_undefined (bs rest : List Byte) (h : decode bs = .undefined rest) :
    ∃ (p : List LegacyPrefix) (p0 p1 p2 op : Byte) (more : List Byte),
      bs = p.map LegacyPrefix.byte ++ 0x62 :: p0 :: p1 :: p2 :: op :: more ∧ evexMatches p0 p1 op := by
  obtain ⟨p, more, ⟨b1, b2, op, rfl, -⟩ | ⟨p0, p1, p2, op, hbs, hm⟩⟩ := decode_inScope_cases bs (by rw [h]; rfl)
  · rw [decode_prefixes_c4] at h
    exact absurd h (decodeVex_ne_undefined p _ rest)
  · exact ⟨p, p0, p1, p2, op, more, hbs, hm⟩

/-- Settles O5, from the inversion of the decoder and its refusal of each fixed field. -/
theorem otherInstructionsAreRefused : Obligations.OtherInstructionsAreRefused := by
  unfold Obligations.OtherInstructionsAreRefused
  have one_ne_zero : (1 : BitVec 1) ≠ 0 := by decide
  refine ⟨fields_of_decode_instr, fields_of_decode_undefined, ?firstByte, by decide +kernel, ?vex, ?evex, ?wBit⟩
  case firstByte =>
    intro p b rest hb hc4 h62
    rw [decode_prefixes p b rest hb, decodeBody, if_neg hc4, if_neg h62]
  case vex =>
    intro p b1 b2 op rest hm
    rw [decode_prefixes_c4]
    exact decodeVex_of_not_vexMatches p b1 b2 op rest hm
  case evex =>
    intro p p0 p1 p2 op rest hm
    rw [decode_prefixes_62]
    exact decodeEvex_of_not_evexMatches p p0 p1 p2 op rest hm
  case wBit =>
    intro p b1 b2 rest
    rw [decode_prefixes_c4, decode_prefixes_62]
    exact ⟨fun hmap hw => decodeVex_wBit p b1 b2 rest hmap (hw ▸ one_ne_zero),
      fun hmap hw => decodeEvex_wBit p b1 b2 rest hmap (hw ▸ one_ne_zero)⟩

end Sys2Proof
end

section
/-! The segment of a memory operand (30_encoding.md R107): the statement O50. -/

namespace Sys2Proof.Machine

/-- No segment override among the prefixes: none is the last. -/
theorem lastSegment_eq_none (p : List LegacyPrefix) (h : ∀ q ∈ p, ∀ r, q ≠ .seg r) : lastSegment p = none := by
  induction p with
  | nil => rfl
  | cons q p ih =>
    have hp : lastSegment p = none := ih fun q' hq' => h q' (List.mem_cons_of_mem q hq')
    have hq : ∀ r, q ≠ .seg r := h q List.mem_cons_self
    cases q with
    | seg r => exact absurd rfl (hq r)
    | _ => simp [lastSegment, hp]

/-- An override with none after it is the last one, whatever stands before it. -/
theorem lastSegment_append_seg (p p' : List LegacyPrefix) (r : Segment) (h : ∀ q ∈ p', ∀ r', q ≠ .seg r') :
    lastSegment (p ++ .seg r :: p') = some r := by
  induction p with
  | nil => simp [lastSegment, lastSegment_eq_none p' h]
  | cons q p ih => simp [lastSegment, ih]

/-- Beyond the base, a canonical address is read alike through every segment. -/
theorem accessByte_segment_irrelevant (s : State) (kind : Config.AccessKind) (r r' : Segment) (a : Addr)
    (h : canonical s.xlat.la57 a = true) : accessByte s kind r a = accessByte s kind r' a := by
  simp [accessByte, h]

/-- An address that is not canonical gives #SS(0) or #GP(0), as the segment says (60_exceptions.md R227). -/
theorem accessByte_not_canonical (s : State) (kind : Config.AccessKind) (r : Segment) (a : Addr)
    (h : canonical s.xlat.la57 a = false) : accessByte s kind r a = .error (.exc (nonCanonical kind r)) := by
  simp [accessByte, h]

/-- Settles O50, by the last override of a list of prefixes and the two cases of a byte's address. -/
theorem segmentOfAMemoryOperand : Obligations.SegmentOfAMemoryOperand := by
  unfold Obligations.SegmentOfAMemoryOperand
  refine ⟨?override, ?default, ?base, fun s a => ⟨fun r h => accessByte_not_canonical s .read r a h,
    fun r r' h => accessByte_segment_irrelevant s .read r r' a h⟩⟩
  case override =>
    intro p p' r m h
    simp only [operandSegment, lastSegment_append_seg p p' r h]
  case default =>
    intro p m h
    simp only [operandSegment, lastSegment_eq_none p h]
  case base =>
    intro s p len n m
    rw [linearAddress, add_comm]
    congr 1
    cases operandSegment p m <;> rfl

end Sys2Proof.Machine
end

section
/-! SUPPORT. The lane function by cases: the classes of an operand after DAZ, each answer of `fnmsubNumber` with the premise
it stands under, and the flags below OE that the rounding leaves as they are. -/

namespace Sys2Proof.Machine

/-! ## Made data -/

theorem f32Zero_eq (s : Bool) : f32Zero s = if s then 0x80000000 else 0x00000000 := by cases s <;> rfl

theorem f32Inf_eq (s : Bool) : f32Inf s = if s then 0xFF800000 else 0x7F800000 := by cases s <;> rfl

/-! ## Classes after DAZ (40_fnmsub_lane_arithmetic.md R137) -/

theorem f32Exp_of_isDenormal (v : F32) (h : isDenormal v = true) : f32Exp v = 0 := by
  rw [isDenormal, Bool.and_eq_true] at h
  exact of_decide_eq_true h.1

/-- All that DAZ does to an operand: a denormal becomes the zero of its sign. -/
theorem dazOperand_eq (daz : Bool) (v : F32) :
    dazOperand daz v = if daz && isDenormal v then f32Zero (f32Sign v) else v := by
  have hand : v &&& BitVec.twoPow 32 31 = f32Zero (f32Sign v) := by
    rw [BitVec.and_twoPow, f32Zero_eq]
    rfl
  rw [dazOperand, ← hand]
  rfl

@[simp] theorem f32Sign_dazOperand (daz : Bool) (v : F32) : f32Sign (dazOperand daz v) = f32Sign v := by
  rw [dazOperand_eq]
  split
  · exact f32Sign_make ..
  · rfl

theorem f32Exp_dazOperand (daz : Bool) (v : F32) : f32Exp (dazOperand daz v) = f32Exp v := by
  rw [dazOperand_eq]
  split
  · next h =>
    rw [Bool.and_eq_true] at h
    rw [f32Zero, f32Exp_make, f32Exp_of_isDenormal v h.2]
  · rfl

/-- DAZ leaves a datum of non-zero exponent as it is. -/
theorem dazOperand_of_exp_ne_zero (daz : Bool) (v : F32) (h : f32Exp v ≠ 0) : dazOperand daz v = v := by
  have : isDenormal v = false := by simp [isDenormal, h]
  simp [dazOperand, this]

@[simp] theorem isInf_dazOperand (daz : Bool) (v : F32) : isInf (dazOperand daz v) = isInf v := by
  by_cases h : f32Exp v = 255
  · rw [dazOperand_of_exp_ne_zero daz v (by omega)]
  · simp [isInf, f32Exp_dazOperand, h]

@[simp] theorem isNaN_dazOperand (daz : Bool) (v : F32) : isNaN (dazOperand daz v) = isNaN v := by
  by_cases h : f32Exp v = 255
  · rw [dazOperand_of_exp_ne_zero daz v (by omega)]
  · simp [isNaN, f32Exp_dazOperand, h]

@[simp] theorem isDenormal_dazOperand (daz : Bool) (v : F32) :
    isDenormal (dazOperand daz v) = (!daz && isDenormal v) := by
  rw [dazOperand_eq]
  cases daz
  · simp
  · cases h : isDenormal v
    · simp [h]
    · simp [isDenormal, f32Zero, f32Frac_make]

/-- Of the classes of exponent 255 a finite datum is neither. -/
theorem not_inf_nan_of_isFinite (v : F32) (h : isFinite v = true) : isInf v = false ∧ isNaN v = false := by
  have : f32Exp v ≠ 255 := of_decide_eq_true h
  simp [isInf, isNaN, this]

/-! ## The lane function by cases -/

theorem fnmsub32_of_nan (x y z : F32) (c : FpControl) (h : (isNaN x || isNaN y || isNaN z) = true) :
    fnmsub32 x y z c = nanResult x y z := if_pos h

theorem fnmsub32_of_not_nan (x y z : F32) (c : FpControl) (h : (isNaN x || isNaN y || isNaN z) = false) :
    fnmsub32 x y z c = fnmsubNumber (dazOperand c.daz x) (dazOperand c.daz y) (dazOperand c.daz z) c :=
  if_neg (by simp [h])

/-- The invalid operations (40_fnmsub_lane_arithmetic.md R138): an infinity times a zero, and a sum of infinities of opposite
sign. -/
def invalidNumbers (x y z : F32) : Prop :=
  (isInf x = true ∧ isZero y = true) ∨ (isZero x = true ∧ isInf y = true) ∨
    (isInf z = true ∧ (isInf x = true ∨ isInf y = true) ∧ xor (f32Sign x) (f32Sign y) ≠ f32Sign z)

/-- The flag of step 4 (40_fnmsub_lane_arithmetic.md R139): DE if some operand is a denormal. -/
def denormalFlag (x y z : F32) : FlagSet := flagIf (isDenormal x || isDenormal y || isDenormal z) flagDE

/-- All that a lane without a NaN can do, in the order of its steps 3 to 6 (40_fnmsub_lane_arithmetic.md R138 to R141). -/
theorem fnmsubNumber_cases (x y z : F32) (c : FpControl) :
    (invalidNumbers x y z ∧ fnmsubNumber x y z c = ⟨some qnanIndefinite, flagIE⟩) ∨
    (¬invalidNumbers x y z ∧
      ((isInf z = true ∧ fnmsubNumber x y z c = ⟨some (f32Inf (!f32Sign z)), denormalFlag x y z⟩) ∨
       (isInf z = false ∧ (isInf x = true ∨ isInf y = true) ∧
          fnmsubNumber x y z c = ⟨some (f32Inf (productSign x y)), denormalFlag x y z⟩) ∨
       (isInf z = false ∧ isInf x = false ∧ isInf y = false ∧
          fnmsubNumber x y z c = finiteResult x y z c (denormalFlag x y z)))) := by
  have hsign : (productSign x y != !f32Sign z) = true ↔ xor (f32Sign x) (f32Sign y) ≠ f32Sign z := by
    rw [productSign, Bool.not_bne_not, bne_iff_ne]
  unfold fnmsubNumber
  simp only
  split
  · next hmul => exact .inl ⟨by simp [invalidNumbers] at hmul ⊢; tauto, rfl⟩
  next hmul =>
  split
  · next hsum =>
    rw [Bool.and_eq_true, Bool.and_eq_true, hsign, Bool.or_eq_true] at hsum
    exact .inl ⟨.inr (.inr ⟨hsum.1.1, hsum.1.2, hsum.2⟩), rfl⟩
  next hsum =>
  have hvalid : ¬invalidNumbers x y z := by
    rw [Bool.and_eq_true, Bool.and_eq_true, hsign, Bool.or_eq_true] at hsum
    simp only [Bool.or_eq_true, Bool.and_eq_true] at hmul
    unfold invalidNumbers
    tauto
  refine .inr ⟨hvalid, ?_⟩
  split
  · next hz => exact .inl ⟨hz, rfl⟩
  next hz =>
  split
  · next hp => exact .inr (.inl ⟨by simpa using hz, by simpa using hp, rfl⟩)
  · next hp =>
    simp only [Bool.or_eq_true, not_or, Bool.not_eq_true] at hz hp
    exact .inr (.inr ⟨hz, hp.1, hp.2, rfl⟩)

theorem fnmsubNumber_invalid (x y z : F32) (c : FpControl) (h : invalidNumbers x y z) :
    fnmsubNumber x y z c = ⟨some qnanIndefinite, flagIE⟩ := by
  obtain ⟨-, e⟩ | ⟨hv, -⟩ := fnmsubNumber_cases x y z c
  · exact e
  · exact absurd h hv

theorem fnmsubNumber_infinite_z (x y z : F32) (c : FpControl) (hv : ¬invalidNumbers x y z) (hz : isInf z = true) :
    fnmsubNumber x y z c = ⟨some (f32Inf (!f32Sign z)), denormalFlag x y z⟩ := by
  obtain ⟨hi, -⟩ | ⟨-, ⟨-, e⟩ | ⟨hz', -⟩ | ⟨hz', -⟩⟩ := fnmsubNumber_cases x y z c
  · exact absurd hi hv
  · exact e
  · simp [hz] at hz'
  · simp [hz] at hz'

theorem fnmsubNumber_infinite_product (x y z : F32) (c : FpControl) (hv : ¬invalidNumbers x y z) (hz : isInf z = false)
    (hp : isInf x = true ∨ isInf y = true) :
    fnmsubNumber x y z c = ⟨some (f32Inf (productSign x y)), denormalFlag x y z⟩ := by
  obtain ⟨hi, -⟩ | ⟨-, ⟨hz', -⟩ | ⟨-, -, e⟩ | ⟨-, hx, hy, -⟩⟩ := fnmsubNumber_cases x y z c
  · exact absurd hi hv
  · simp [hz] at hz'
  · exact e
  · simp [hx, hy] at hp

/-- Whether a lane without a NaN is invalid, read after DAZ: the signs and the infinities are the operands' own. -/
theorem invalidNumbers_dazOperand (daz : Bool) (x y z : F32) :
    invalidNumbers (dazOperand daz x) (dazOperand daz y) (dazOperand daz z) ↔
      (isInf (dazOperand daz x) = true ∧ isZero (dazOperand daz y) = true) ∨
      (isZero (dazOperand daz x) = true ∧ isInf (dazOperand daz y) = true) ∨
      (isInf z = true ∧ (isInf (dazOperand daz x) = true ∨ isInf (dazOperand daz y) = true) ∧
        xor (f32Sign x) (f32Sign y) ≠ f32Sign z) := by
  simp [invalidNumbers]

/-- Finite operands go to the exact value and its rounding. -/
theorem fnmsub32_of_allFinite (x y z : F32) (c : FpControl) (h : Safety.allFinite x y z) :
    fnmsub32 x y z c = finiteResult (dazOperand c.daz x) (dazOperand c.daz y) (dazOperand c.daz z) c
      (denormalFlag (dazOperand c.daz x) (dazOperand c.daz y) (dazOperand c.daz z)) := by
  obtain ⟨hx, hy, hz⟩ := h
  obtain ⟨hxi, hxn⟩ := not_inf_nan_of_isFinite x hx
  obtain ⟨hyi, hyn⟩ := not_inf_nan_of_isFinite y hy
  obtain ⟨hzi, hzn⟩ := not_inf_nan_of_isFinite z hz
  rw [fnmsub32_of_not_nan x y z c (by simp [hxn, hyn, hzn])]
  obtain ⟨hi, -⟩ | ⟨-, ⟨hz', -⟩ | ⟨-, hp, -⟩ | ⟨-, -, -, e⟩⟩ :=
    fnmsubNumber_cases (dazOperand c.daz x) (dazOperand c.daz y) (dazOperand c.daz z) c
  · simp [invalidNumbers, hxi, hyi, hzi] at hi
  · simp [hzi] at hz'
  · simp [hxi, hyi] at hp
  · exact e

/-- A lane of finite operands whose exact value is zero answers step 6's zero, and no flag but a denormal operand's. -/
theorem fnmsub32_of_laneExact_zero (x y z : F32) (c : FpControl) (h : Safety.allFinite x y z)
    (he : Safety.laneExact x y z c = 0) :
    fnmsub32 x y z c =
      ⟨some (zeroResult (dazOperand c.daz x) (dazOperand c.daz y) (dazOperand c.daz z) c.rm),
        denormalFlag (dazOperand c.daz x) (dazOperand c.daz y) (dazOperand c.daz z)⟩ := by
  rw [fnmsub32_of_allFinite x y z c h, finiteResult]
  exact if_pos he

/-- A lane of finite operands whose exact value is not zero rounds it. -/
theorem fnmsub32_of_laneExact_ne_zero (x y z : F32) (c : FpControl) (h : Safety.allFinite x y z)
    (he : Safety.laneExact x y z c ≠ 0) :
    fnmsub32 x y z c =
      roundFinite (decide (Safety.laneExact x y z c < 0)) (Safety.laneExact x y z c).natAbs c
        (denormalFlag (dazOperand c.daz x) (dazOperand c.daz y) (dazOperand c.daz z)) := by
  rw [fnmsub32_of_allFinite x y z c h, finiteResult]
  exact if_neg he

/-- All that the rounding of a non-zero value can do, by the exponent after the rounding with unbounded exponent
(40_fnmsub_lane_arithmetic.md R142 to R145). -/
theorem roundFinite_cases (s : Bool) (a : Nat) (c : FpControl) (fl : FlagSet) (m : Nat × Int × Bool)
    (hm : roundUnbounded s a c.rm = m) :
    (m.2.1 < -126 ∧ roundFinite s a c fl = tinyResult s a m.2.2 c fl) ∨
    (127 < m.2.1 ∧ roundFinite s a c fl = overflowResult s m.2.2 c fl) ∨
    (-126 ≤ m.2.1 ∧ m.2.1 ≤ 127 ∧
      roundFinite s a c fl = ⟨some (f32Make s (m.2.1 + 127).toNat m.1), fl ||| flagIf m.2.2 flagPE⟩) := by
  unfold roundFinite
  rw [hm]
  by_cases htiny : m.2.1 < -126
  · exact .inl ⟨htiny, if_pos htiny⟩
  by_cases hover : 127 < m.2.1
  · exact .inr (.inl ⟨hover, (if_neg htiny).trans (if_pos hover)⟩)
  · exact .inr (.inr ⟨by omega, by omega, (if_neg htiny).trans (if_neg hover)⟩)

/-- All that a tiny result can be (40_fnmsub_lane_arithmetic.md R143). -/
theorem tinyResult_cases (s : Bool) (a : Nat) (inex : Bool) (c : FpControl) (fl : FlagSet) (d : Nat × Bool)
    (hd : roundInt a (2 ^ 149) s c.rm = d) :
    (c.um = false ∧ tinyResult s a inex c fl = ⟨none, fl ||| flagUE ||| flagIf inex flagPE⟩) ∨
    (c.um = true ∧ c.ftz = true ∧ tinyResult s a inex c fl = ⟨some (f32Zero s), fl ||| flagUE ||| flagPE⟩) ∨
    (c.um = true ∧ c.ftz = false ∧ tinyResult s a inex c fl =
      ⟨some (BitVec.ofBool s ++ BitVec.ofNat 31 d.1), fl ||| flagIf d.2 (flagUE ||| flagPE)⟩) := by
  unfold tinyResult
  rw [hd]
  cases hum : c.um
  · exact .inl ⟨rfl, rfl⟩
  cases hftz : c.ftz
  · exact .inr (.inr ⟨rfl, rfl, rfl⟩)
  · exact .inr (.inl ⟨rfl, rfl, rfl⟩)

/-- All that an overflowing result can be (40_fnmsub_lane_arithmetic.md R144). -/
theorem overflowResult_cases (s inex : Bool) (c : FpControl) (fl : FlagSet) :
    (c.om = false ∧ overflowResult s inex c fl = ⟨none, fl ||| flagOE ||| flagIf inex flagPE⟩) ∨
    (c.om = true ∧ ∃ r, (r = f32Inf s ∨ r = f32Max s) ∧
      overflowResult s inex c fl = ⟨some r, fl ||| flagOE ||| flagPE⟩) := by
  unfold overflowResult
  cases c.om
  · exact .inl ⟨rfl, rfl⟩
  · exact .inr ⟨rfl, _, ite_eq_or_eq .., rfl⟩

/-! ## The flags below OE -/

theorem getLsbD_flagIf (b : Bool) (f : FlagSet) (j : Nat) : (flagIf b f).getLsbD j = (b && f.getLsbD j) := by
  cases b <;> simp [flagIf]

section LowFlags
variable {j : Nat} (hj : j < 3)
include hj

theorem flagOE_low : flagOE.getLsbD j = false := by interval_cases j <;> rfl

theorem flagUE_low : flagUE.getLsbD j = false := by interval_cases j <;> rfl

theorem flagPE_low : flagPE.getLsbD j = false := by interval_cases j <;> rfl

theorem tinyResult_low (s : Bool) (a : Nat) (inex : Bool) (c : FpControl) (fl : FlagSet) :
    (tinyResult s a inex c fl).fl.getLsbD j = fl.getLsbD j := by
  unfold tinyResult
  split_ifs <;> simp [getLsbD_flagIf, flagUE_low hj, flagPE_low hj]

theorem overflowResult_low (s inex : Bool) (c : FpControl) (fl : FlagSet) :
    (overflowResult s inex c fl).fl.getLsbD j = fl.getLsbD j := by
  unfold overflowResult
  split_ifs <;> simp [getLsbD_flagIf, flagOE_low hj, flagPE_low hj]

/-- The rounding signals nothing but OE, UE, PE (40_fnmsub_lane_arithmetic.md R142 to R145). -/
theorem roundFinite_low (s : Bool) (a : Nat) (c : FpControl) (fl : FlagSet) :
    (roundFinite s a c fl).fl.getLsbD j = fl.getLsbD j := by
  obtain ⟨-, e⟩ | ⟨-, e⟩ | ⟨-, -, e⟩ := roundFinite_cases s a c fl _ rfl
  · rw [e, tinyResult_low hj]
  · rw [e, overflowResult_low hj]
  · simp [e, getLsbD_flagIf, flagPE_low hj]

/-- Of IE, DE, ZE a lane that is not invalid signals at most DE, for a denormal operand. -/
theorem fnmsubNumber_low (x y z : F32) (c : FpControl) (hv : ¬invalidNumbers x y z) :
    (fnmsubNumber x y z c).fl.getLsbD j = (denormalFlag x y z).getLsbD j := by
  obtain ⟨hi, -⟩ | ⟨-, ⟨-, e⟩ | ⟨-, -, e⟩ | ⟨-, -, -, e⟩⟩ := fnmsubNumber_cases x y z c
  · exact absurd hi hv
  · rw [e]
  · rw [e]
  · rw [e, finiteResult]
    split
    · rfl
    · exact roundFinite_low hj ..

end LowFlags

theorem denormalFlag_ne_de (x y z : F32) (j : Nat) (hj : j ≠ 1) : (denormalFlag x y z).getLsbD j = false := by
  have : (BitVec.twoPow 6 1).getLsbD j = false := by simp [BitVec.getLsbD_twoPow, Ne.symm hj]
  rw [denormalFlag, getLsbD_flagIf, show flagDE = BitVec.twoPow 6 1 from rfl, this, Bool.and_false]

/-- The flags of every lane: IE alone, none, or, of a valid lane of numbers, no other below OE than a denormal operand's. -/
theorem fnmsub32_fl_cases (x y z : F32) (c : FpControl) :
    (fnmsub32 x y z c).fl = flagIE ∨ (fnmsub32 x y z c).fl = 0 ∨
      ∀ j < 3, (fnmsub32 x y z c).fl.getLsbD j =
        (denormalFlag (dazOperand c.daz x) (dazOperand c.daz y) (dazOperand c.daz z)).getLsbD j := by
  cases h : isNaN x || isNaN y || isNaN z
  · rw [fnmsub32_of_not_nan x y z c h]
    by_cases hi : invalidNumbers (dazOperand c.daz x) (dazOperand c.daz y) (dazOperand c.daz z)
    · exact .inl (by rw [fnmsubNumber_invalid _ _ _ _ hi])
    · exact .inr (.inr fun j hj => fnmsubNumber_low hj _ _ _ _ hi)
  · rw [fnmsub32_of_nan x y z c h, nanResult]
    cases isSNaN x || isSNaN y || isSNaN z
    · exact .inr (.inl rfl)
    · exact .inl rfl

theorem denormalFlag_and (x y z : F32) : denormalFlag x y z &&& 0x3D = 0 := by
  unfold denormalFlag flagIf
  split <;> rfl

end Sys2Proof.Machine
end

section
/-! NaN operands, DAZ, invalid operations and infinities: the statements O10, O11, O12, O14 and O22
(40_fnmsub_lane_arithmetic.md R136 to R140, R146). -/

namespace Sys2Proof.Machine

open Sys2Proof.Safety

/-- Quieting sets bit 22 and keeps every other bit. -/
theorem getLsbD_quiet (v : F32) (j : Nat) : (quiet v).getLsbD j = (v.getLsbD j || decide (j = 22)) := by
  have : (0x00400000 : F32) = BitVec.twoPow 32 22 := rfl
  rw [quiet, BitVec.getLsbD_or, this, BitVec.getLsbD_twoPow]
  simp [eq_comm]

/-- Settles O10, by the answer of step 1 and the bits of a quieted datum. -/
theorem nanOperandsReturnTheFirstNan : Obligations.NanOperandsReturnTheFirstNan := by
  unfold Obligations.NanOperandsReturnTheFirstNan
  intro x y z c h
  rw [fnmsub32_of_nan x y z c h]
  refine ⟨_, rfl, ?_, fun j hj => ?_, rfl⟩
  · simp [getLsbD_quiet]
  · simp [getLsbD_quiet, hj]

theorem isSNaN_dazOperand (daz : Bool) (v : F32) : isSNaN (dazOperand daz v) = isSNaN v := by
  cases h : isNaN v
  · simp [isSNaN, h]
  · have : f32Exp v = 255 := by simp [isNaN] at h; exact h.1
    rw [dazOperand_of_exp_ne_zero daz v (by omega)]

/-- Step 1 looks at NaNs only, which DAZ does not touch. -/
theorem nanResult_dazOperand (daz : Bool) (x y z : F32) (h : (isNaN x || isNaN y || isNaN z) = true) :
    nanResult (dazOperand daz x) (dazOperand daz y) (dazOperand daz z) = nanResult x y z := by
  have hkeep : ∀ v : F32, isNaN v = true → dazOperand daz v = v := fun v hv =>
    dazOperand_of_exp_ne_zero daz v (by simp [isNaN] at hv; omega)
  simp only [nanResult, isSNaN_dazOperand, isNaN_dazOperand]
  cases hx : isNaN x
  · cases hy : isNaN y
    · have hz : isNaN z = true := by simpa [hx, hy] using h
      simp [hkeep z hz]
    · simp [hkeep y hy]
  · simp [hkeep x hx]

/-- The lane of the operands after DAZ, with DAZ = 0, is the lane itself. -/
theorem fnmsub32_dazOperand (x y z : F32) (c : FpControl) :
    fnmsub32 (dazOperand c.daz x) (dazOperand c.daz y) (dazOperand c.daz z) { c with daz := false } = fnmsub32 x y z c := by
  cases h : isNaN x || isNaN y || isNaN z
  · rw [fnmsub32_of_not_nan x y z c h, fnmsub32_of_not_nan _ _ _ _ (by simpa using h)]
    rfl
  · rw [fnmsub32_of_nan x y z c h, fnmsub32_of_nan _ _ _ _ (by simpa using h), nanResult_dazOperand c.daz x y z h]

/-- Settles O11, by the lane of the operands after DAZ, and the flags below OE. -/
theorem dazReplacesDenormalOperands : Obligations.DazReplacesDenormalOperands := by
  unfold Obligations.DazReplacesDenormalOperands
  refine ⟨fun x y z c hdaz => ⟨?replaced, ?silent⟩, fun rc m => ⟨rfl, rfl⟩⟩
  case replaced =>
    have hop : ∀ v : F32, (if isDenormal v then f32Zero (f32Sign v) else v) = dazOperand c.daz v := fun v => by
      rw [dazOperand_eq, hdaz, Bool.true_and]
    rw [hop, hop, hop, fnmsub32_dazOperand]
  case silent =>
    obtain e | e | e := fnmsub32_fl_cases x y z c
    · rw [e]; rfl
    · rw [e]; rfl
    · rw [e 1 (by omega)]
      simp [denormalFlag, hdaz, flagIf]

/-- Settles O12, by the invalid operations and, of the other lanes, the flags below OE. -/
theorem invalidOperationsGiveTheIndefinite : Obligations.InvalidOperationsGiveTheIndefinite := by
  unfold Obligations.InvalidOperationsGiveTheIndefinite
  constructor
  · intro x y z c hx hy hz
    simp only [← invalidNumbers_dazOperand]
    rw [fnmsub32_of_not_nan x y z c (by simp [hx, hy, hz])]
    refine ⟨fnmsubNumber_invalid _ _ _ c, fun hv => ?_⟩
    rw [fnmsubNumber_low (by omega) _ _ _ _ hv, denormalFlag_ne_de _ _ _ 0 (by omega)]
  · intro x y z c
    obtain e | e | e := fnmsub32_fl_cases x y z c
    · exact fun _ => e
    · rw [e]; exact fun h => absurd h Bool.false_ne_true
    · rw [e 0 (by omega), denormalFlag_ne_de _ _ _ 0 (by omega)]
      exact fun h => absurd h Bool.false_ne_true

/-- Settles O14: a lane without IE is not invalid, and an infinity decides it at step 5. -/
theorem infiniteOperandsGiveInfinities : Obligations.InfiniteOperandsGiveInfinities := by
  unfold Obligations.InfiniteOperandsGiveInfinities
  intro x y z c hx hy hz hIE
  rw [fnmsub32_of_not_nan x y z c (by simp [hx, hy, hz])] at hIE ⊢
  have hv : ¬invalidNumbers (dazOperand c.daz x) (dazOperand c.daz y) (dazOperand c.daz z) := fun hi => by
    rw [fnmsubNumber_invalid _ _ _ _ hi] at hIE
    cases hIE
  constructor
  · intro hz
    rw [fnmsubNumber_infinite_z _ _ _ _ hv (by simpa using hz)]
    exact ⟨by cases h : f32Sign z <;> simp [f32Inf_eq, h], denormalFlag_and ..⟩
  · intro hz hp
    rw [fnmsubNumber_infinite_product _ _ _ _ hv (by simpa using hz) (by simpa using hp)]
    exact ⟨by cases h : xor (f32Sign x) (f32Sign y) <;> simp [f32Inf_eq, productSign, h], denormalFlag_and ..⟩

/-- Rounding to nearest with DAZ = FTZ = 0 and both masks set. -/
def nearestMasked : FpControl := ⟨.rn, false, false, true, true⟩

/-- Settles O22: the rounding leaves ZE as it is and nothing else signals it; a lane for each of the other five. -/
theorem lanesSignalExactlyFiveFlags : Obligations.LanesSignalExactlyFiveFlags := by
  unfold Obligations.LanesSignalExactlyFiveFlags
  constructor
  · intro x y z c
    obtain e | e | e := fnmsub32_fl_cases x y z c
    · rw [e]; rfl
    · rw [e]; rfl
    · rw [e 2 (by omega), denormalFlag_ne_de _ _ _ 2 (by omega)]
  · intro j hj h2
    interval_cases j
    · exact ⟨0x7F800000, 0, 0, nearestMasked, by decide +kernel⟩
    · exact ⟨1, 0, 0, nearestMasked, by decide +kernel⟩
    · exact absurd rfl h2
    · exact ⟨0x7F7FFFFF, 0x40000000, 0, nearestMasked, by decide +kernel⟩
    · exact ⟨0x3F000000, 0x00FFFFFF, 0, nearestMasked, by decide +kernel⟩
    · exact ⟨0x3F800000, 0x3F800000, 0x33800000, nearestMasked, by decide +kernel⟩

end Sys2Proof.Machine
end

section
/-! The exactly zero value (40_fnmsub_lane_arithmetic.md R141): the statement O15. -/

namespace Sys2Proof.Machine

open Sys2Proof.Safety

/-- Both terms are zeros of one sign; the signs of the operands say so as well as those of the terms. -/
theorem likeSignedZeros_iff (x y z : F32) :
    ((isZero x || isZero y) && isZero z && (productSign x y == !f32Sign z)) = true ↔
      (isZero x = true ∨ isZero y = true) ∧ isZero z = true ∧ xor (f32Sign x) (f32Sign y) = f32Sign z := by
  have hsign : productSign x y = (!f32Sign z) ↔ xor (f32Sign x) (f32Sign y) = f32Sign z := Bool.not_inj_iff
  simp only [Bool.and_eq_true, Bool.or_eq_true, beq_iff_eq, hsign, and_assoc]

/-- Settles O15, by the zero of step 6 and its sign. -/
theorem exactZeroSign : Obligations.ExactZeroSign := by
  unfold Obligations.ExactZeroSign
  intro x y z c hfin he
  have hzeros := likeSignedZeros_iff (dazOperand c.daz x) (dazOperand c.daz y) (dazOperand c.daz z)
  simp only [f32Sign_dazOperand] at hzeros
  simp only [fnmsub32_of_laneExact_zero x y z c hfin he, ← hzeros]
  refine ⟨fun hlike => ?like, fun hother => ?other, denormalFlag_and ..⟩
  case like =>
    have hsign := (hzeros.1 hlike).2.2
    rw [zeroResult, f32Sign_dazOperand, if_pos hlike, f32Zero_eq, productSign, f32Sign_dazOperand, f32Sign_dazOperand, hsign]
    cases f32Sign z <;> rfl
  case other =>
    rw [zeroResult, f32Sign_dazOperand, if_neg hother, f32Zero_eq]
    simp only [decide_eq_true_eq]

end Sys2Proof.Machine
end

section
/-! SUPPORT. What the two roundings give: `roundInt` between the multiples of the divisor, the significand of
`roundUnbounded`, and the values of the data that are delivered. -/

namespace Sys2Proof.Machine

/-! ## Rounding to an integer -/

section RoundInt
variable {num den k : Nat} (s : Bool) (rm : RoundMode)

theorem roundInt_le (hden : 0 < den) (h : num ≤ k * den) : (roundInt num den s rm).1 ≤ k := by
  have hq : num / den ≤ k := (Nat.div_le_iff_le_mul_add_pred hden).2 (by rw [Nat.mul_comm]; omega)
  obtain ⟨-, e⟩ | ⟨hr, e | e⟩ := roundInt_cases num den s rm
  · rwa [e]
  · rwa [e]
  · rw [e]
    have hlt : num < k * den := lt_of_le_of_ne h fun heq => hr (by rw [heq, Nat.mul_mod_left])
    exact (Nat.div_lt_iff_lt_mul hden).2 hlt

theorem le_roundInt (hden : 0 < den) (h : k * den ≤ num) : k ≤ (roundInt num den s rm).1 := by
  have hq : k ≤ num / den := (Nat.le_div_iff_mul_le hden).2 h
  obtain ⟨-, e⟩ | ⟨-, e | e⟩ := roundInt_cases num den s rm
  · rwa [e]
  · rwa [e]
  · rw [e]; exact Nat.le_succ_of_le hq

/-- Rounding is inexact exactly when the rounded integer is not the quotient. -/
theorem roundInt_inexact_iff_ne : (roundInt num den s rm).2 = true ↔ (roundInt num den s rm).1 * den ≠ num := by
  rw [roundInt_inexact]
  constructor
  · intro hr heq
    rw [← heq, Nat.mul_mod_left] at hr
    exact hr rfl
  · obtain ⟨hr, e⟩ | ⟨hr, -⟩ := roundInt_cases num den s rm
    · rw [e, Nat.div_mul_cancel (Nat.dvd_of_mod_eq_zero hr)]
      exact fun h => absurd rfl h
    · exact fun _ => hr

end RoundInt

/-! ## Rounding to 24 bits with unbounded exponent (40_fnmsub_lane_arithmetic.md R142) -/

/-- What the rounding of the magnitude `a * 2^-298` to 24 bits answers: a significand of 24 bits and the exponent
`l - 298`; the magnitude lies between half a unit below the smallest significand and the double of it, and the rounding is
inexact exactly when the value is another. -/
structure Rounded24 (a : Nat) (m : Nat × Int × Bool) (l : Nat) : Prop where
  significand_ge : 2 ^ 23 ≤ m.1
  significand_lt : m.1 < 2 ^ 24
  exponent : m.2.1 = (l : Int) - 298
  magnitude_gt : (2 ^ 24 - 1) * 2 ^ l < 2 * (a * 2 ^ 23)
  magnitude_lt : a < 2 ^ (l + 1)
  inexact : m.2.2 = true ↔ m.1 * 2 ^ l ≠ a * 2 ^ 23

/-- The two answers: a significand that rounds up to 2^24 becomes 2^23 under the next exponent. -/
theorem roundUnbounded_cases (s : Bool) (a : Nat) (rm : RoundMode) (m : Nat × Bool)
    (hm : roundInt (a * 2 ^ 23) (2 ^ Nat.log2 a) s rm = m) :
    (m.1 = 2 ^ 24 ∧ roundUnbounded s a rm = (2 ^ 23, (Nat.log2 a : Int) - 298 + 1, m.2)) ∨
    (m.1 ≠ 2 ^ 24 ∧ roundUnbounded s a rm = (m.1, (Nat.log2 a : Int) - 298, m.2)) := by
  unfold roundUnbounded
  rw [hm]
  by_cases hcarry : m.1 = 2 ^ 24
  · exact .inl ⟨hcarry, if_pos hcarry⟩
  · exact .inr ⟨hcarry, if_neg hcarry⟩

theorem roundUnbounded_spec (s : Bool) (a : Nat) (rm : RoundMode) (ha : a ≠ 0) :
    ∃ l, Rounded24 a (roundUnbounded s a rm) l := by
  have hle : 2 ^ Nat.log2 a ≤ a := Nat.log2_self_le ha
  have hlt : a < 2 ^ (Nat.log2 a + 1) := Nat.lt_log2_self
  have hden : 0 < 2 ^ Nat.log2 a := Nat.two_pow_pos _
  have hge := le_roundInt s rm (num := a * 2 ^ 23) (k := 2 ^ 23) hden (by omega)
  have hup := roundInt_le s rm (num := a * 2 ^ 23) (k := 2 ^ 24) hden (by omega)
  have hbelow := roundInt_le s rm (num := a * 2 ^ 23) (k := 2 ^ 24 - 1) hden
  have hinex := roundInt_inexact_iff_ne s rm (num := a * 2 ^ 23) (den := 2 ^ Nat.log2 a)
  have hcases := roundUnbounded_cases s a rm _ rfl
  generalize roundInt (a * 2 ^ 23) (2 ^ Nat.log2 a) s rm = m at *
  obtain ⟨q, inexact⟩ := m
  dsimp only at *
  obtain ⟨hcarry, e⟩ | ⟨hcarry, e⟩ := hcases
  · rw [e]
    refine ⟨Nat.log2 a + 1, by norm_num, by norm_num, by push_cast; omega, ?_, by omega, ?_⟩
    · by_contra hn
      have := hbelow (by omega)
      omega
    · rw [hcarry] at hinex
      exact hinex.trans (by rw [pow_succ 2 (Nat.log2 a)]; omega)
  · rw [e]
    exact ⟨Nat.log2 a, hge, by omega, rfl, by omega, hlt, hinex⟩

/-! ## The magnitude of a delivered datum -/

theorem f32Mag_make (s : Bool) {e f : Nat} (he : e < 256) (hf : f < 2 ^ 23) :
    f32Mag (f32Make s e f) = if e = 0 then f else (2 ^ 23 + f) * 2 ^ (e - 1) := by
  rw [f32Mag, f32Exp_make, f32Frac_make, Nat.mod_eq_of_lt he, Nat.mod_eq_of_lt hf]

theorem isFinite_make (s : Bool) {e : Nat} (f : Nat) (he : e < 255) : isFinite (f32Make s e f) = true := by
  rw [isFinite, f32Exp_make]
  exact decide_eq_true (by omega)

/-- Only the low 23 bits of the fraction count. -/
theorem f32Make_mod (s : Bool) (e f : Nat) : f32Make s e (f % 2 ^ 23) = f32Make s e f := by
  have : BitVec.ofNat 23 (f % 2 ^ 23) = BitVec.ofNat 23 f := by
    apply BitVec.eq_of_toNat_eq
    simp
  rw [f32Make, this, f32Make]

/-- A significand of 24 bits above a non-zero exponent: the magnitude. -/
theorem f32Mag_make_normal (s : Bool) {e m : Nat} (he : 0 < e) (he' : e < 256) (hm : 2 ^ 23 ≤ m) (hm' : m < 2 ^ 24) :
    f32Mag (f32Make s e m) = m * 2 ^ (e - 1) := by
  rw [← f32Make_mod, f32Mag_make s he' (Nat.mod_lt _ (by norm_num)), if_neg (by omega)]
  congr 1
  omega

/-- A sign above 31 bits is a datum whose exponent and fraction are the number's two parts. -/
theorem ofBool_append_ofNat (s : Bool) (n : Nat) :
    (BitVec.ofBool s ++ BitVec.ofNat 31 n : BitVec 32) = f32Make s (n / 2 ^ 23) (n % 2 ^ 23) := by
  apply BitVec.eq_of_getLsbD_eq
  intro i hi
  rw [f32Make_mod, getLsbD_f32Make, BitVec.getLsbD_append]
  simp only [BitVec.getLsbD_ofNat, Nat.testBit_div_two_pow]
  by_cases hfrac : i < 23
  · simp [hfrac, show i < 31 by omega]
  by_cases hexp : i < 31
  · simp [hfrac, hexp, show i - 23 < 8 by omega, show i - 23 + 23 = i by omega]
  · simp [hfrac, hexp, show ¬i - 23 < 8 by omega, show i - 23 - 8 = i - 31 by omega]

/-- A number of units of 2^-149 up to the smallest normal magnitude is the magnitude of the datum it is written as. -/
theorem f32Mag_subnormal (s : Bool) {n : Nat} (hn : n ≤ 2 ^ 23) :
    f32Mag (BitVec.ofBool s ++ BitVec.ofNat 31 n) = n := by
  rw [ofBool_append_ofNat, f32Mag_make s (by omega) (Nat.mod_lt _ (by norm_num))]
  split
  · omega
  · have : n = 2 ^ 23 := by omega
    rw [this]
    rfl

/-- A finite datum of the sign of `e` has the value `e * 2^-298` exactly when the magnitudes agree. -/
theorem f32Val_eq_iff (r : F32) (e : Int) (hs : f32Sign r = decide (e < 0)) :
    f32Val r * 2 ^ 149 = e ↔ f32Mag r * 2 ^ 149 = e.natAbs := by
  rw [f32Val, hs]
  by_cases he : e < 0
  · rw [if_pos (decide_eq_true he)]
    omega
  · rw [if_neg (by simpa using he)]
    omega

theorem f32Mag_zero (s : Bool) : f32Mag (f32Zero s) = 0 := by cases s <;> rfl

theorem isFinite_zero (s : Bool) : isFinite (f32Zero s) = true := by cases s <;> rfl

theorem isFinite_inf (s : Bool) : isFinite (f32Inf s) = false := by cases s <;> rfl

/-- The magnitude of the largest finite datum, in units of 2^-149. -/
theorem f32Mag_max (s : Bool) : f32Mag (f32Max s) = (2 ^ 24 - 1) * 2 ^ 253 := by
  rw [f32Max, f32Mag_make s (by omega) (by omega), if_neg (by omega)]
  norm_num

end Sys2Proof.Machine
end

section
/-! The precision flag (40_fnmsub_lane_arithmetic.md R145): the statement O17. -/

namespace Sys2Proof.Machine

open Sys2Proof.Safety

/-- PE says of the result of a lane, where there is one, whether it differs from the exact value of sign `s` and magnitude
`a * 2^-298`. -/
def LaneResult.PeExact (l : LaneResult) (s : Bool) (a : Nat) : Prop :=
  ∀ r, l.r = some r →
    f32Sign r = s ∧ (l.fl.getLsbD 5 = true ↔ ¬(isFinite r = true ∧ f32Mag r * 2 ^ 149 = a))

section PeExact
variable {s : Bool} {a : Nat} {r : F32} {fl : FlagSet}

theorem LaneResult.peExact_none : PeExact ⟨none, fl⟩ s a := by
  rintro _ ⟨⟩

/-- A result with PE, to be shown another value. -/
theorem LaneResult.peExact_of_pe (hsign : f32Sign r = s) (hne : isFinite r = true → f32Mag r * 2 ^ 149 ≠ a) :
    PeExact ⟨some r, fl ||| flagPE⟩ s a := by
  rintro _ ⟨⟩
  refine ⟨hsign, iff_of_true ?_ fun h => hne h.1 h.2⟩
  rw [BitVec.getLsbD_or]
  exact Bool.or_true _

/-- A finite result with PE exactly when the rounding changed the value. -/
theorem LaneResult.peExact_of_inexact {f : FlagSet} {inexact : Bool} (hsign : f32Sign r = s)
    (hfin : isFinite r = true) (hfl : fl.getLsbD 5 = false) (hf : f.getLsbD 5 = true)
    (hinex : inexact = true ↔ f32Mag r * 2 ^ 149 ≠ a) : PeExact ⟨some r, fl ||| flagIf inexact f⟩ s a := by
  rintro _ ⟨⟩
  refine ⟨hsign, ?_⟩
  rw [BitVec.getLsbD_or, getLsbD_flagIf, hfl, hf, Bool.false_or, Bool.and_true, hinex, hfin]
  simp only [true_and, ne_eq]

end PeExact

section Precision
variable (s : Bool) (a : Nat) (c : FpControl) (fl : FlagSet)

/-- A tiny result: the zero of FTZ is never the exact value, a denormal only when its rounding was exact. -/
theorem tinyResult_peExact (inex : Bool) (ha : a ≠ 0) (hsmall : a ≤ 2 ^ 172) (hfl : fl.getLsbD 5 = false) :
    (tinyResult s a inex c fl).PeExact s a := by
  have hle : (roundInt a (2 ^ 149) s c.rm).1 ≤ 2 ^ 23 := roundInt_le s c.rm (by norm_num) (by omega)
  have hinex := roundInt_inexact_iff_ne s c.rm (num := a) (den := 2 ^ 149)
  have hcases := tinyResult_cases s a inex c fl _ rfl
  generalize roundInt a (2 ^ 149) s c.rm = d at hle hinex hcases
  obtain ⟨-, e⟩ | ⟨-, -, e⟩ | ⟨-, -, e⟩ := hcases
  · rw [e]
    exact LaneResult.peExact_none
  · rw [e]
    refine LaneResult.peExact_of_pe (f32Sign_make ..) fun _ => ?_
    rw [f32Mag_zero, Nat.zero_mul]
    exact ha.symm
  · rw [e]
    have hmag := f32Mag_subnormal s hle
    rw [ofBool_append_ofNat] at hmag ⊢
    exact LaneResult.peExact_of_inexact (f32Sign_make ..) (isFinite_make _ _ (by omega)) hfl rfl (by rw [hmag, hinex])

/-- An overflowing result: neither an infinity nor the largest finite datum is the exact value. -/
theorem overflowResult_peExact (inex : Bool) (hbig : f32Mag (f32Max s) * 2 ^ 149 < a) :
    (overflowResult s inex c fl).PeExact s a := by
  obtain ⟨-, e⟩ | ⟨-, r, rfl | rfl, e⟩ := overflowResult_cases s inex c fl
  · rw [e]
    exact LaneResult.peExact_none
  · rw [e]
    refine LaneResult.peExact_of_pe (f32Sign_make ..) fun hfin => ?_
    rw [isFinite_inf] at hfin
    cases hfin
  · rw [e]
    exact LaneResult.peExact_of_pe (f32Sign_make ..) fun _ => hbig.ne

end Precision

/-- A value that rounds to an exponent above 127 is above the largest finite magnitude. -/
theorem Rounded24.max_lt {a l : Nat} {m : Nat × Int × Bool} (h : Rounded24 a m l) (hl : 426 ≤ l) (s : Bool) :
    f32Mag (f32Max s) * 2 ^ 149 < a := by
  obtain ⟨k, rfl⟩ : ∃ k, l = 253 + 149 + k := ⟨l - 402, by omega⟩
  have hk : 2 ^ 24 ≤ 2 ^ k := Nat.pow_le_pow_right (by omega) (by omega)
  have hgt := h.magnitude_gt
  rw [f32Mag_max, mul_assoc, ← pow_add]
  rw [pow_add 2 (253 + 149) k] at hgt
  have hmul := Nat.mul_le_mul_left (2 ^ (253 + 149)) hk
  generalize 2 ^ (253 + 149) * 2 ^ k = Q at hgt hmul
  generalize 2 ^ (253 + 149) = P at hmul ⊢
  omega

/-- Steps 7 to 10: PE tells exactly whether the delivered result is the exact value. -/
theorem roundFinite_peExact (s : Bool) (a : Nat) (c : FpControl) (fl : FlagSet) (ha : a ≠ 0) (hfl : fl.getLsbD 5 = false) :
    (roundFinite s a c fl).PeExact s a := by
  obtain ⟨l, h⟩ := roundUnbounded_spec s a c.rm ha
  have hcases := roundFinite_cases s a c fl _ rfl
  generalize roundUnbounded s a c.rm = m at h hcases
  have hexp := h.exponent
  obtain ⟨htiny, e⟩ | ⟨hover, e⟩ | ⟨hlow, hhigh, e⟩ := hcases
  · rw [e]
    refine tinyResult_peExact s a c fl m.2.2 ha ?_ hfl
    exact h.magnitude_lt.le.trans (Nat.pow_le_pow_right (by omega) (by omega))
  · rw [e]
    exact overflowResult_peExact s a c fl m.2.2 (h.max_lt (by omega) s)
  · obtain ⟨k, rfl⟩ : ∃ k, l = k + 172 := ⟨l - 172, by omega⟩
    have hbiased : (m.2.1 + 127).toNat = k + 1 := by omega
    rw [e, hbiased]
    refine LaneResult.peExact_of_inexact (f32Sign_make ..) (isFinite_make _ _ (by omega)) hfl rfl (h.inexact.trans ?_)
    rw [f32Mag_make_normal s (by omega) (by omega) h.significand_ge h.significand_lt, Nat.add_sub_cancel, pow_add,
      ← mul_assoc]
    omega

theorem zeroResult_eq_zero (x y z : F32) (rm : RoundMode) : ∃ s, zeroResult x y z rm = f32Zero s := by
  unfold zeroResult
  split
  exacts [⟨_, rfl⟩, ⟨_, rfl⟩]

/-- Settles O17, by the exact zero, which is delivered as such, and the rounding of any other value. -/
theorem precisionFlagExactlyWhenInexact : Obligations.PrecisionFlagExactlyWhenInexact := by
  unfold Obligations.PrecisionFlagExactlyWhenInexact
  intro x y z r c hfin hr
  by_cases he : laneExact x y z c = 0
  · rw [fnmsub32_of_laneExact_zero x y z c hfin he] at hr ⊢
    obtain ⟨s, hs⟩ := zeroResult_eq_zero (dazOperand c.daz x) (dazOperand c.daz y) (dazOperand c.daz z) c.rm
    obtain rfl : f32Zero s = r := Option.some.inj (hs ▸ hr)
    have hval : f32Val (f32Zero s) * 2 ^ 149 = 0 := by simp [f32Val, f32Mag_zero]
    rw [denormalFlag_ne_de _ _ _ 5 (by omega), he, hval, isFinite_zero]
    simp only [Bool.false_eq_true, and_self, not_true]
  · rw [fnmsub32_of_laneExact_ne_zero x y z c hfin he] at hr ⊢
    obtain ⟨hsign, hpe⟩ := roundFinite_peExact _ _ c _ (Int.natAbs_ne_zero.2 he)
      (denormalFlag_ne_de _ _ _ 5 (by omega)) r hr
    rw [hpe, ← f32Val_eq_iff r _ hsign]

end Sys2Proof.Machine
end

section
/-! SUPPORT. Every instruction is one of the three templates of Machine/Packed.lean: its length and its
meaning, by the lists `vexForms`, `evexForms` and `erForms`. -/

namespace Sys2Proof.Machine

open Sys2Proof.Safety

section Forms
variable {p : List LegacyPrefix}

section Vex
variable {d s2 : BitVec 4} {o : VexOp3} {q : Nat × Instr}

theorem length_of_mem_vexForms : ∀ q ∈ vexForms p d s2 o, q.2.length = vexLength p o := by
  simp [vexForms, Instr.length]

theorem exec_of_mem_vexForms (hq : q ∈ vexForms p d s2 o) : ∃ f, ∀ s, exec q.2 s = execVex f q.1 p d s2 o s := by
  simp only [vexForms, List.mem_cons, List.not_mem_nil, or_false] at hq
  obtain rfl | rfl | rfl | rfl | rfl | rfl := hq
  exacts [⟨.f132, fun _ => rfl⟩, ⟨.f213, fun _ => rfl⟩, ⟨.f231, fun _ => rfl⟩,
    ⟨.f132, fun _ => rfl⟩, ⟨.f213, fun _ => rfl⟩, ⟨.f231, fun _ => rfl⟩]

end Vex

section Evex
variable {k : Masking} {d s2 : BitVec 5}

theorem length_of_mem_evexForms {o : EvexOp3} : ∀ q ∈ evexForms p k d s2 o, q.2.length = evexLength p o := by
  simp [evexForms, Instr.length]

theorem exec_of_mem_evexForms {o : EvexOp3} {q : Nat × Instr} (hq : q ∈ evexForms p k d s2 o) :
    ∃ f, ∀ s, exec q.2 s = execEvex f q.1 p k d s2 o s := by
  simp only [evexForms, List.mem_cons, List.not_mem_nil, or_false] at hq
  obtain rfl | rfl | rfl | rfl | rfl | rfl | rfl | rfl | rfl := hq
  exacts [⟨.f132, fun _ => rfl⟩, ⟨.f213, fun _ => rfl⟩, ⟨.f231, fun _ => rfl⟩,
    ⟨.f132, fun _ => rfl⟩, ⟨.f213, fun _ => rfl⟩, ⟨.f231, fun _ => rfl⟩,
    ⟨.f132, fun _ => rfl⟩, ⟨.f213, fun _ => rfl⟩, ⟨.f231, fun _ => rfl⟩]

variable {s3 : BitVec 5} {rc : RoundMode} {i : Instr}

theorem length_of_mem_erForms : ∀ i ∈ erForms p k d s2 s3 rc, i.length = evexLength p (.reg s3) := by
  simp [erForms, Instr.length, evexLength, EvexOp3.length]

theorem exec_of_mem_erForms (hi : i ∈ erForms p k d s2 s3 rc) : ∃ f, ∀ s, exec i s = execEr f p k d s2 s3 rc s := by
  simp only [erForms, List.mem_cons, List.not_mem_nil, or_false] at hi
  obtain rfl | rfl | rfl := hi
  exacts [⟨.f132, fun _ => rfl⟩, ⟨.f213, fun _ => rfl⟩, ⟨.f231, fun _ => rfl⟩]

end Evex

end Forms

/-- The three lists of forms hold every instruction. -/
theorem mem_forms (i : Instr) :
    (∃ kl p d s2 o, (kl, i) ∈ vexForms p d s2 o) ∨ (∃ kl p k d s2 o, (kl, i) ∈ evexForms p k d s2 o) ∨
      ∃ p k d s2 s3 rc, i ∈ erForms p k d s2 s3 rc := by
  cases i with
  | vfnmsub132VexXmm p d s2 o | vfnmsub213VexXmm p d s2 o | vfnmsub231VexXmm p d s2 o =>
    exact .inl ⟨4, p, d, s2, o, by simp [vexForms]⟩
  | vfnmsub132VexYmm p d s2 o | vfnmsub213VexYmm p d s2 o | vfnmsub231VexYmm p d s2 o =>
    exact .inl ⟨8, p, d, s2, o, by simp [vexForms]⟩
  | vfnmsub132EvexXmm p k d s2 o | vfnmsub213EvexXmm p k d s2 o | vfnmsub231EvexXmm p k d s2 o =>
    exact .inr (.inl ⟨4, p, k, d, s2, o, by simp [evexForms]⟩)
  | vfnmsub132EvexYmm p k d s2 o | vfnmsub213EvexYmm p k d s2 o | vfnmsub231EvexYmm p k d s2 o =>
    exact .inr (.inl ⟨8, p, k, d, s2, o, by simp [evexForms]⟩)
  | vfnmsub132EvexZmm p k d s2 o | vfnmsub213EvexZmm p k d s2 o | vfnmsub231EvexZmm p k d s2 o =>
    exact .inr (.inl ⟨16, p, k, d, s2, o, by simp [evexForms]⟩)
  | vfnmsub132EvexZmmEr p k d s2 s3 rc | vfnmsub213EvexZmmEr p k d s2 s3 rc | vfnmsub231EvexZmmEr p k d s2 s3 rc =>
    exact .inr (.inr ⟨p, k, d, s2, s3, rc, by simp [erForms]⟩)

/-- Every instruction has the length and the meaning of a template. -/
theorem exec_eq_template (i : Instr) :
    (∃ f kl p d s2 o, i.length = vexLength p o ∧ ∀ s, exec i s = execVex f kl p d s2 o s) ∨
      (∃ f kl p k d s2 o, i.length = evexLength p o ∧ ∀ s, exec i s = execEvex f kl p k d s2 o s) ∨
      ∃ f p k d s2 s3 rc, i.length = evexLength p (.reg s3) ∧ ∀ s, exec i s = execEr f p k d s2 s3 rc s := by
  obtain ⟨kl, p, d, s2, o, hi⟩ | ⟨kl, p, k, d, s2, o, hi⟩ | ⟨p, k, d, s2, s3, rc, hi⟩ := mem_forms i
  · obtain ⟨f, hexec⟩ := exec_of_mem_vexForms hi
    exact .inl ⟨f, kl, p, d, s2, o, length_of_mem_vexForms _ hi, hexec⟩
  · obtain ⟨f, hexec⟩ := exec_of_mem_evexForms hi
    exact .inr (.inl ⟨f, kl, p, k, d, s2, o, length_of_mem_evexForms _ hi, hexec⟩)
  · obtain ⟨f, hexec⟩ := exec_of_mem_erForms hi
    exact .inr (.inr ⟨f, p, k, d, s2, s3, rc, length_of_mem_erForms _ hi, hexec⟩)

/-- Every instruction runs behind the checks of 60_exceptions.md R231, made with its own length. -/
theorem exec_eq_guarded (i : Instr) (s : State) : ∃ ud go, exec i s = guarded s i.length ud go := by
  obtain ⟨f, kl, p, d, s2, o, hlen, hexec⟩ | ⟨f, kl, p, k, d, s2, o, hlen, hexec⟩ |
    ⟨f, p, k, d, s2, s3, rc, hlen, hexec⟩ := exec_eq_template i
  · exact ⟨vexUd s p, _, by rw [hexec, hlen]; rfl⟩
  · exact ⟨evexUd s p k kl, _, by rw [hexec, hlen]; rfl⟩
  · exact ⟨evexUd s p k 16, _, by rw [hexec, hlen]; rfl⟩

end Sys2Proof.Machine
end

section
/-! The checks before an operand is read (60_exceptions.md R231): the statements O41 and O42. -/

namespace Sys2Proof.Machine

open Sys2Proof.Safety

theorem modeRefused_eq_false (s : State) (h : pMode s) : modeRefused s = false := by
  simp [modeRefused, show s.mode = .mode64 from h]

theorem modeInvalid_eq_false (s : State) (h : pMode s) : modeInvalid s = false := by
  simp [modeInvalid, show s.mode = .mode64 from h]

/-- The length is tested before the #UD conditions (60_exceptions.md R230, R231 step 2). -/
theorem guarded_of_long (s : State) (len : Nat) (ud : Bool) (go : Result) (hmode : pMode s) (hlen : maxLength < len) :
    guarded s len ud go = raise .gp s := by
  simp [guarded, modeRefused_eq_false s hmode, hlen]

/-- CR0.TS is tested after the #UD conditions and before all else (60_exceptions.md R226, R231 step 4). -/
theorem guarded_of_taskSwitched (s : State) (len : Nat) (ud : Bool) (go : Result) (hmode : pMode s) (hlen : len ≤ maxLength)
    (hud : ud = false) (hts : crTs s = true) : guarded s len ud go = raise .nm s := by
  simp [guarded, modeRefused_eq_false s hmode, Nat.not_lt.2 hlen, hud, hts]

/-- No #UD condition of 60_exceptions.md R224 holds. -/
theorem vexUd_eq_false (s : State) (p : List LegacyPrefix) (hmode : pMode s) (hfma : s.feat.fma = true) (hos : pOsVex s)
    (hp : prefixesAllowed p = true) : vexUd s p = false := by
  obtain ⟨hosxsave, havx⟩ := hos
  simp [vexUd, hfma, hosxsave, havx, modeInvalid_eq_false s hmode, hp]

/-- No #UD condition of 60_exceptions.md R225 holds. -/
theorem evexUd_eq_false (s : State) (p : List LegacyPrefix) (k : Masking) (kl : Nat) (hmode : pMode s)
    (hcpuid : pCpuidEvex s kl) (hos : pOsEvex s) (hp : prefixesAllowed p = true) (hk : k.legal = true) :
    evexUd s p k kl = false := by
  obtain ⟨hf, hvl⟩ := hcpuid
  obtain ⟨hosxsave, havx, havx512⟩ := hos
  simpa [evexUd, hf, hosxsave, havx, havx512, modeInvalid_eq_false s hmode, hp, hk] using hvl

/-- Settles O42: the length comes before every other check of an instruction in 64-bit mode. -/
theorem longInstructionRaisesGp : Obligations.LongInstructionRaisesGp := by
  unfold Obligations.LongInstructionRaisesGp
  intro s i hmode hlen
  obtain ⟨ud, go, hexec⟩ := exec_eq_guarded i s
  rw [hexec, guarded_of_long s i.length ud go hmode hlen]
  rfl

/-- Settles O41: no #UD condition holds, so CR0.TS decides before the operand. -/
theorem taskSwitchedRaisesNm : Obligations.TaskSwitchedRaisesNm := by
  unfold Obligations.TaskSwitchedRaisesNm
  intro s p k e e2 d s2 s3 o o' rc hmode hts hp hk
  refine ⟨?vex, ?evex, ?er⟩
  case vex =>
    intro q hq hfma hos hlen
    obtain ⟨f, hexec⟩ := exec_of_mem_vexForms hq
    rw [hexec]
    exact guarded_of_taskSwitched s _ _ _ hmode hlen (vexUd_eq_false s p hmode hfma hos hp) hts
  case evex =>
    intro q hq hcpuid hos hlen
    obtain ⟨f, hexec⟩ := exec_of_mem_evexForms hq
    rw [hexec]
    exact guarded_of_taskSwitched s _ _ _ hmode hlen (evexUd_eq_false s p k q.1 hmode hcpuid hos hp hk) hts
  case er =>
    intro i hi hcpuid hos hlen
    obtain ⟨f, hexec⟩ := exec_of_mem_erForms hi
    rw [hexec]
    exact guarded_of_taskSwitched s _ _ _ hmode hlen (evexUd_eq_false s p k 16 hmode hcpuid hos hp hk) hts

end Sys2Proof.Machine
end

section
/-! The state a fault leaves (60_exceptions.md R235): the statement O55. -/

namespace Sys2Proof.Machine

open Sys2Proof.Safety

/-! ## ZE is never signalled (40_fnmsub_lane_arithmetic.md R146) -/

theorem formLane_ze (f : Form) (dest src2 src3 : F32) (c : FpControl) :
    (formLane f dest src2 src3 c).fl.getLsbD 2 = false := by
  cases f <;> exact lanesSignalExactlyFiveFlags.1 ..

theorem unionFlags_flags_ze (l : Lanes) (act : List Bool) : (unionFlags (l.flags act)).getLsbD 2 = false := by
  rw [Bool.eq_false_iff, Ne, getLsbD_unionFlags]
  rintro ⟨g, hg, hze⟩
  obtain ⟨j, -, rfl⟩ := (l.mem_flags act g).1 hg
  split at hze
  · rw [Lanes.out, formLane_ze] at hze
    cases hze
  · cases hze

/-- Nor is it among the flags of either phase of a trap (60_exceptions.md R222). -/
theorem trapFlags_ze (l : Lanes) (act : List Bool) (g : FlagSet)
    (hg : g = unionFlags (l.flags act) ∨ g = unionFlags (l.flags act) &&& preFlags) : g.getLsbD 2 = false := by
  obtain rfl | rfl := hg
  · exact unionFlags_flags_ze l act
  · rw [BitVec.getLsbD_and, unionFlags_flags_ze, Bool.false_and]

/-! ## What a fault leaves -/

/-- The fault `f` at `s` leaves the state as it was, or it is #XM or #UD in its place and has OR-ed flags other than ZE into
MXCSR. -/
def Precise (s : State) (f : Fault) : Prop :=
  f.state = s ∨
    ∃ g : FlagSet, g.getLsbD 2 = false ∧ f.state = s.orFlags g ∧
      (f = .simdFloatingPoint (s.orFlags g) ∨ f = .invalidOpcode (s.orFlags g))

/-- The saved instruction pointer is that of the instruction. -/
theorem Precise.rip {s : State} {f : Fault} (h : Precise s f) : f.state.rip = s.rip := by
  obtain h | ⟨g, -, h, -⟩ := h
  · rw [h]
  · rw [h, State.orFlags_rip]

theorem exec_precise (i : Instr) (s : State) (f : Fault) (h : exec i s = .fault f) : Precise s f := by
  obtain ⟨_, kl, p, d, s2, o, -, hexec⟩ | ⟨_, kl, p, k, d, s2, o, -, hexec⟩ | ⟨_, p, k, d, s2, s3, rc, -, hexec⟩ :=
    exec_eq_template i
  · rw [hexec] at h
    exact (execVex_fault _ _ _ _ _ _ _ _ h).imp_right fun ⟨_, g, _, hg, hf⟩ => ⟨g, trapFlags_ze _ _ g hg, hf⟩
  · rw [hexec] at h
    exact (execEvex_fault _ _ _ _ _ _ _ _ _ h).imp_right fun ⟨_, g, _, hg, hf⟩ => ⟨g, trapFlags_ze _ _ g hg, hf⟩
  · rw [hexec] at h
    exact .inl (execEr_fault _ _ _ _ _ _ _ _ _ h)

/-- A fault of the fetch leaves the state as it was. -/
theorem fetchInstr_fault (s : State) (f : Fault) (h : fetchInstr s = .stop (.fault f)) : f.state = s := by
  unfold fetchInstr at h
  split at h
  · cases h
  · split at h
    · cases h
    · exact raise_fault _ s f (Fetched.stop.inj h)
    · cases h
    · split at h
      · exact Stop.result_fault _ s f (Fetched.stop.inj h)
      · exact raise_fault _ s f (Fetched.stop.inj h)

theorem step_precise (s : State) (f : Fault) (h : step s = .fault f) : Precise s f := by
  unfold step at h
  split at h
  · exact exec_precise _ s f h
  · next r hr =>
    subst h
    exact .inl (fetchInstr_fault s f hr)

/-- Settles O55: a fault comes from the fetch, with the state as it was, or from one of the three templates. -/
theorem faultsArePrecise : Obligations.FaultsArePrecise := by
  unfold Obligations.FaultsArePrecise
  intro s f h
  exact ⟨(step_precise s f h).rip, step_precise s f h⟩

end Sys2Proof.Machine
end

section
/-! SUPPORT. What the decoder takes from a list of bytes: the operand's bytes, and nothing of what follows them. -/

namespace Sys2Proof

open Sys2Proof.Safety

/-! ## A reader that takes a front of the bytes -/

/-- The reader `f` takes `v` from the first `n` of the bytes `bs`, leaves `rest`, and does not look past those `n`. -/
def TakesFront {α : Type} (f : List Byte → Option (α × List Byte)) (v : α) (n : Nat) (bs rest : List Byte) : Prop :=
  ∃ used, bs = used ++ rest ∧ used.length = n ∧ ∀ other, f (used ++ other) = some (v, other)

theorem take32_takesFront (bs rest : List Byte) (v : BitVec 32) (h : take32 bs = some (v, rest)) :
    TakesFront take32 v 4 bs rest := by
  unfold take32 at h
  split at h
  · next b0 b1 b2 b3 tail =>
    obtain ⟨rfl, rfl⟩ : b3 ++ b2 ++ b1 ++ b0 = v ∧ tail = rest := by simpa using h
    exact ⟨[b0, b1, b2, b3], rfl, rfl, fun _ => rfl⟩
  · cases h

/-- A displacement, with the bytes that its `mod` calls for; only `mod` 00b and 11b call for none. -/
theorem takeDisp_takesFront (mod : BitVec 2) (bs rest : List Byte) (d : Disp) (h : takeDisp mod bs = some (d, rest)) :
    TakesFront (takeDisp mod) d d.length bs rest ∧ (mod ≠ 0 → mod ≠ 3 → d ≠ .none) := by
  unfold takeDisp at h
  split at h
  · next h1 =>
    split at h
    · next v tail =>
      obtain ⟨rfl, rfl⟩ : Disp.d8 v = d ∧ tail = rest := by simpa using h
      exact ⟨⟨[v], rfl, rfl, fun _ => by simp [takeDisp, h1]⟩, by simp⟩
    · cases h
  · next h1 =>
    split at h
    · next h2 =>
      split at h
      · next v tail hv =>
        obtain ⟨rfl, rfl⟩ : Disp.d32 v = d ∧ tail = rest := by simpa using h
        obtain ⟨used, hbs, hlen, hall⟩ := take32_takesFront _ _ _ hv
        exact ⟨⟨used, hbs, hlen, fun other => by simp [takeDisp, h2, hall]⟩, by simp⟩
      · cases h
    · next h2 =>
      obtain ⟨rfl, rfl⟩ : Disp.none = d ∧ bs = rest := by simpa using h
      refine ⟨⟨[], rfl, rfl, fun other => by simp only [List.nil_append, takeDisp, if_neg h1, if_neg h2]⟩, fun h0 h3 => ?_⟩
      have all : ∀ m : BitVec 2, m ≠ 0 → m ≠ 1 → m ≠ 2 → m = 3 := by decide
      exact absurd (all mod h0 h1 h2) h3

theorem indexEncodable_sibIndex (x : BitVec 1) (sib : Byte) : indexEncodable (sibIndex x sib) = true := by
  simp only [sibIndex]
  split
  · rfl
  · next h => simpa [indexEncodable] using h

/-- The low three bits of a register number made from an extension bit and them. -/
theorem extractLsb'_append_low (b : BitVec 1) (v : BitVec 3) : (b ++ v : BitVec 4).extractLsb' 0 3 = v := by
  have all : ∀ (b : BitVec 1) (v : BitVec 3), (b ++ v : BitVec 4).extractLsb' 0 3 = v := by decide
  exact all b v

/-- A memory operand is one that ModRM and SIB can say, and is read from the bytes of its length alone. -/
theorem decodeMem_takesFront (mod : BitVec 2) (rm : BitVec 3) (x b : BitVec 1) (bs rest : List Byte) (m : MemForm)
    (hmod : mod ≠ 3) (h : decodeMem mod rm x b bs = some (m, rest)) :
    m.encodable = true ∧ TakesFront (decodeMem mod rm x b) m m.length bs rest := by
  unfold decodeMem at h
  split at h
  · next hrm =>
    split at h
    · cases h
    · next sib tail =>
      split at h
      · next hno =>
        split at h
        · next v tail' hv =>
          obtain ⟨rfl, rfl⟩ : MemForm.sibNoBase (sibIndex x sib) v = m ∧ tail' = rest := by simpa using h
          obtain ⟨used, rfl, hlen, hall⟩ := take32_takesFront _ _ _ hv
          refine ⟨indexEncodable_sibIndex x sib, sib :: used, rfl, by simp [MemForm.length, hlen], fun other => ?_⟩
          simp [decodeMem, hrm, hno, hall]
        · cases h
      · next hno =>
        split at h
        · next d tail' hd =>
          obtain ⟨rfl, rfl⟩ : MemForm.sib (b ++ sib.extractLsb' 0 3) (sibIndex x sib) d = m ∧ tail' = rest := by
            simpa using h
          obtain ⟨⟨used, rfl, hlen, hall⟩, hsome⟩ := takeDisp_takesFront _ _ _ _ hd
          refine ⟨?_, sib :: used, rfl, by simp [MemForm.length, hlen, Nat.add_comm], fun other => ?_⟩
          · simp only [MemForm.encodable, sibBaseEncodable, indexEncodable_sibIndex, extractLsb'_append_low, Bool.and_true,
              Bool.or_eq_true, decide_eq_true_eq]
            by_cases h0 : mod = 0
            · exact .inr fun h5 => hno ⟨h5, h0⟩
            · exact .inl (hsome h0 hmod)
          · simp only [decodeMem, if_pos hrm, List.cons_append, if_neg hno, hall]
        · cases h
  · next hrm =>
    split at h
    · next hrip =>
      split at h
      · next v tail hv =>
        obtain ⟨rfl, rfl⟩ : MemForm.ripRel v = m ∧ tail = rest := by simpa using h
        obtain ⟨used, rfl, hlen, hall⟩ := take32_takesFront _ _ _ hv
        exact ⟨rfl, used, rfl, hlen, fun other => by simp [decodeMem, hrip, hall]⟩
      · cases h
    · next hrip =>
      split at h
      · next d tail hd =>
        obtain ⟨rfl, rfl⟩ : MemForm.base (b ++ rm) d = m ∧ tail = rest := by simpa using h
        obtain ⟨⟨used, rfl, hlen, hall⟩, hsome⟩ := takeDisp_takesFront _ _ _ _ hd
        refine ⟨?_, used, rfl, hlen, fun other => by simp only [decodeMem, if_neg hrm, if_neg hrip, hall]⟩
        simp only [MemForm.encodable, baseEncodable, extractLsb'_append_low, Bool.and_eq_true, Bool.or_eq_true,
          decide_eq_true_eq]
        refine ⟨hrm, ?_⟩
        by_cases h0 : mod = 0
        · exact .inr fun h5 => hrip ⟨h5, h0⟩
        · exact .inl (hsome h0 hmod)
      · cases h

/-! ## The rows of the table -/

theorem vexRow_spec (f : Form) (l : BitVec 1) (p : List LegacyPrefix) (d s2 : BitVec 4) (o : VexOp3) :
    (vexRow f l p d s2 o).length = vexLength p o ∧ (vexRow f l p d s2 o).encodable = o.encodable := by
  unfold vexRow
  split <;> cases f <;> exact ⟨rfl, rfl⟩

theorem evexRow_spec (f : Form) (ll : BitVec 2) (p : List LegacyPrefix) (k : Masking) (d s2 : BitVec 5) (o : EvexOp3)
    (i : Instr) (h : evexRow f ll p k d s2 o = some i) : i.length = evexLength p o ∧ i.encodable = o.encodable := by
  unfold evexRow at h
  split_ifs at h <;> cases f <;> obtain rfl := Option.some.inj h <;> exact ⟨rfl, rfl⟩

/-- Only the length 11b has no row without embedded rounding (30_encoding.md R91). -/
theorem evexRow_reserved (f : Form) (p : List LegacyPrefix) (k : Masking) (d s2 : BitVec 5) (o : EvexOp3) :
    evexRow f 3 p k d s2 o = none := rfl

theorem erRow_spec (f : Form) (p : List LegacyPrefix) (k : Masking) (d s2 s3 : BitVec 5) (rc : RoundMode) :
    (erRow f p k d s2 s3 rc).length = evexLength p (.reg s3) ∧ (erRow f p k d s2 s3 rc).encodable = true := by
  cases f <;> exact ⟨rfl, rfl⟩

/-! ## Instructions -/

/-- The decoder `f`, given `n` bytes already taken, takes the encodable instruction `i` from as many more of the bytes `bs` as
its length counts, leaves `rest`, and does not look past them. -/
def DecodesFront (f : List Byte → Decoded) (n : Nat) (i : Instr) (bs rest : List Byte) : Prop :=
  i.encodable = true ∧ ∃ used, bs = used ++ rest ∧ n + used.length = i.length ∧ ∀ other, f (used ++ other) = .instr i other

/-- Bytes taken one decoder earlier. -/
theorem DecodesFront.prepend {f g : List Byte → Decoded} {n : Nat} {i : Instr} {bs rest : List Byte} (taken : List Byte)
    (h : DecodesFront f (n + taken.length) i bs rest) (hfg : ∀ tail, g (taken ++ tail) = f tail) :
    DecodesFront g n i (taken ++ bs) rest := by
  obtain ⟨henc, used, rfl, hlen, hall⟩ := h
  refine ⟨henc, taken ++ used, by simp, by simp only [List.length_append]; omega, fun other => ?_⟩
  rw [List.append_assoc, hfg, hall]

theorem decodeVexOperands_decodesFront (p : List LegacyPrefix) (b1 b2 : Byte) (f : Form) (m : Byte) (bs rest : List Byte)
    (i : Instr) (h : decodeVexOperands p b1 b2 f m bs = .instr i rest) :
    DecodesFront (decodeVexOperands p b1 b2 f m) (p.length + 5) i bs rest := by
  simp only [decodeVexOperands] at h
  split at h
  · next hreg =>
    obtain ⟨rfl, rfl⟩ := Decoded.instr.inj h
    obtain ⟨hlen, henc⟩ := vexRow_spec f (b2.extractLsb' 2 1) p (~~~(b1.extractLsb' 7 1) ++ m.extractLsb' 3 3)
      (~~~(b2.extractLsb' 3 4)) (.reg (~~~(b1.extractLsb' 5 1) ++ m.extractLsb' 0 3))
    exact ⟨henc, [], rfl, by rw [hlen]; rfl, fun other => by simp only [decodeVexOperands, List.nil_append, if_pos hreg]⟩
  · next hmem =>
    split at h
    · next a tail ha =>
      obtain ⟨rfl, rfl⟩ := Decoded.instr.inj h
      obtain ⟨hlen, henc⟩ := vexRow_spec f (b2.extractLsb' 2 1) p (~~~(b1.extractLsb' 7 1) ++ m.extractLsb' 3 3)
        (~~~(b2.extractLsb' 3 4)) (.mem a)
      obtain ⟨haenc, used, hbs, hused, hall⟩ := decodeMem_takesFront _ _ _ _ _ _ _ hmem ha
      exact ⟨henc.trans haenc, used, hbs, by rw [hlen, hused]; rfl,
        fun other => by simp only [decodeVexOperands, if_neg hmem, hall]⟩
    · cases h

theorem decodeEvexOperands_decodesFront (p : List LegacyPrefix) (p0 p1 p2 : Byte) (f : Form) (m : Byte)
    (bs rest : List Byte) (i : Instr) (h : decodeEvexOperands p p0 p1 p2 f m bs = .instr i rest) :
    DecodesFront (decodeEvexOperands p p0 p1 p2 f m) (p.length + 6) i bs rest := by
  have hres : evexReserved p0 p1 = false :=
    Bool.eq_false_iff.2 fun hr => decodeEvexOperands_ne_instr p p0 p1 p2 f m bs rest i hr h
  simp only [decodeEvexOperands, hres, Bool.false_eq_true, if_false] at h
  split at h
  · next hreg =>
    split at h
    · next her =>
      obtain ⟨rfl, rfl⟩ := Decoded.instr.inj h
      obtain ⟨hlen, henc⟩ := erRow_spec f p ⟨p2.extractLsb' 0 3, decide (p2.extractLsb' 7 1 = 1)⟩
        (~~~(p0.extractLsb' 4 1) ++ ~~~(p0.extractLsb' 7 1) ++ m.extractLsb' 3 3)
        (~~~(p2.extractLsb' 3 1) ++ ~~~(p1.extractLsb' 3 4))
        (~~~(p0.extractLsb' 6 1) ++ ~~~(p0.extractLsb' 5 1) ++ m.extractLsb' 0 3) (RoundMode.ofBits (p2.extractLsb' 5 2))
      exact ⟨henc, [], rfl, by rw [hlen]; rfl, fun other => by
        simp only [decodeEvexOperands, List.nil_append, if_pos hreg, if_pos her, hres, Bool.false_eq_true, if_false]⟩
    · next her =>
      split at h
      · next j hj =>
        obtain ⟨rfl, rfl⟩ := Decoded.instr.inj h
        obtain ⟨hlen, henc⟩ := evexRow_spec _ _ _ _ _ _ _ _ hj
        exact ⟨henc, [], rfl, by rw [hlen]; rfl, fun other => by
          simp only [decodeEvexOperands, List.nil_append, if_pos hreg, if_neg her, hres, Bool.false_eq_true, if_false, hj]⟩
      · cases h
  · next hmem =>
    split at h
    · next a tail ha =>
      split at h
      · next j hj =>
        obtain ⟨rfl, rfl⟩ := Decoded.instr.inj h
        obtain ⟨hlen, henc⟩ := evexRow_spec _ _ _ _ _ _ _ _ hj
        obtain ⟨haenc, used, hbs, hused, hall⟩ := decodeMem_takesFront _ _ _ _ _ _ _ hmem ha
        refine ⟨?_, used, hbs, ?_, fun other => by
          simp only [decodeEvexOperands, if_neg hmem, hall, hres, Bool.false_eq_true, if_false, hj]⟩
        · rw [henc]; split <;> exact haenc
        · rw [hlen, hused]; split <;> rfl
      · cases h
    · cases h

/-- An instruction that the decoder gives is encodable and was read from the bytes of its length alone. -/
theorem decode_decodesFront (bs rest : List Byte) (i : Instr) (h : decode bs = .instr i rest) :
    DecodesFront decode 0 i bs rest := by
  obtain ⟨p, more, ⟨b1, b2, op, rfl, hm⟩ | ⟨p0, p1, p2, op, rfl, hm, -⟩⟩ := fields_of_decode_instr bs rest i h
  · rw [decode_prefixes_c4] at h
    obtain ⟨f, -, hneed, hoperands⟩ := decodeVex_of_vexMatches p b1 b2 op hm
    cases more with
    | nil => rw [hneed] at h; cases h
    | cons m more =>
      rw [hoperands] at h
      have hfront := decodeVexOperands_decodesFront p b1 b2 f m more rest i h
      have := DecodesFront.prepend (g := decode) (n := 0) (p.map LegacyPrefix.byte ++ [0xC4, b1, b2, op, m])
        (by simpa using hfront) fun tail => by
          rw [List.append_assoc]
          exact (decode_prefixes_c4 p _).trans (hoperands m tail)
      simpa using this
  · rw [decode_prefixes_62] at h
    obtain ⟨f, -, hneed, hoperands⟩ := decodeEvex_of_evexMatches p p0 p1 p2 op hm
    cases more with
    | nil => rw [hneed] at h; cases h
    | cons m more =>
      rw [hoperands] at h
      have hfront := decodeEvexOperands_decodesFront p p0 p1 p2 f m more rest i h
      have := DecodesFront.prepend (g := decode) (n := 0) (p.map LegacyPrefix.byte ++ [0x62, p0, p1, p2, op, m])
        (by simpa using hfront) fun tail => by
          rw [List.append_assoc]
          exact (decode_prefixes_62 p _).trans (hoperands m tail)
      simpa using this

end Sys2Proof
end

section
/-! The decoder reads back what the encoder writes, and takes no more bytes than the instruction has: the statements O1, O2,
O3, O4 and O6. -/

namespace Sys2Proof

open Sys2Proof.Safety

/-! ## The fields of the bytes that the encoder writes -/

/-- The fields of a ModRM byte (30_encoding.md R92, R93, R99). -/
theorem modRm_fields (mod : BitVec 2) (reg rm : BitVec 3) :
    (mod ++ reg ++ rm : Byte).extractLsb' 6 2 = mod ∧ (mod ++ reg ++ rm : Byte).extractLsb' 3 3 = reg ∧
      (mod ++ reg ++ rm : Byte).extractLsb' 0 3 = rm := by
  have all : ∀ (mod : BitVec 2) (reg rm : BitVec 3),
      (mod ++ reg ++ rm : Byte).extractLsb' 6 2 = mod ∧ (mod ++ reg ++ rm : Byte).extractLsb' 3 3 = reg ∧
        (mod ++ reg ++ rm : Byte).extractLsb' 0 3 = rm := by decide +kernel
  exact all mod reg rm

/-- The fields of the first byte after C4H (30_encoding.md R83). -/
theorem vexByte1_fields (r x b : BitVec 1) :
    (r ++ x ++ b ++ 2#5 : Byte).extractLsb' 7 1 = r ∧ (r ++ x ++ b ++ 2#5 : Byte).extractLsb' 6 1 = x ∧
      (r ++ x ++ b ++ 2#5 : Byte).extractLsb' 5 1 = b ∧ (r ++ x ++ b ++ 2#5 : Byte).extractLsb' 0 5 = 2 := by
  have all : ∀ r x b : BitVec 1,
      (r ++ x ++ b ++ 2#5 : Byte).extractLsb' 7 1 = r ∧ (r ++ x ++ b ++ 2#5 : Byte).extractLsb' 6 1 = x ∧
        (r ++ x ++ b ++ 2#5 : Byte).extractLsb' 5 1 = b ∧ (r ++ x ++ b ++ 2#5 : Byte).extractLsb' 0 5 = 2 := by
    decide +kernel
  exact all r x b

/-- The fields of the second byte after C4H (30_encoding.md R83). -/
theorem vexByte2_fields (v : BitVec 4) (l : BitVec 1) :
    (0#1 ++ v ++ l ++ 1#2 : Byte).extractLsb' 7 1 = 0 ∧ (0#1 ++ v ++ l ++ 1#2 : Byte).extractLsb' 3 4 = v ∧
      (0#1 ++ v ++ l ++ 1#2 : Byte).extractLsb' 2 1 = l ∧ (0#1 ++ v ++ l ++ 1#2 : Byte).extractLsb' 0 2 = 1 := by
  have all : ∀ (v : BitVec 4) (l : BitVec 1),
      (0#1 ++ v ++ l ++ 1#2 : Byte).extractLsb' 7 1 = 0 ∧ (0#1 ++ v ++ l ++ 1#2 : Byte).extractLsb' 3 4 = v ∧
        (0#1 ++ v ++ l ++ 1#2 : Byte).extractLsb' 2 1 = l ∧ (0#1 ++ v ++ l ++ 1#2 : Byte).extractLsb' 0 2 = 1 := by
    decide +kernel
  exact all v l

/-- The fields of the payload byte P0 (30_encoding.md R86). -/
theorem evexP0_fields (r x b r' : BitVec 1) :
    (r ++ x ++ b ++ r' ++ 0#2 ++ 2#2 : Byte).extractLsb' 7 1 = r ∧
      (r ++ x ++ b ++ r' ++ 0#2 ++ 2#2 : Byte).extractLsb' 6 1 = x ∧
      (r ++ x ++ b ++ r' ++ 0#2 ++ 2#2 : Byte).extractLsb' 5 1 = b ∧
      (r ++ x ++ b ++ r' ++ 0#2 ++ 2#2 : Byte).extractLsb' 4 1 = r' ∧
      (r ++ x ++ b ++ r' ++ 0#2 ++ 2#2 : Byte).extractLsb' 2 2 = 0 ∧
      (r ++ x ++ b ++ r' ++ 0#2 ++ 2#2 : Byte).extractLsb' 0 2 = 2 := by
  have all : ∀ r x b r' : BitVec 1,
      (r ++ x ++ b ++ r' ++ 0#2 ++ 2#2 : Byte).extractLsb' 7 1 = r ∧
        (r ++ x ++ b ++ r' ++ 0#2 ++ 2#2 : Byte).extractLsb' 6 1 = x ∧
        (r ++ x ++ b ++ r' ++ 0#2 ++ 2#2 : Byte).extractLsb' 5 1 = b ∧
        (r ++ x ++ b ++ r' ++ 0#2 ++ 2#2 : Byte).extractLsb' 4 1 = r' ∧
        (r ++ x ++ b ++ r' ++ 0#2 ++ 2#2 : Byte).extractLsb' 2 2 = 0 ∧
        (r ++ x ++ b ++ r' ++ 0#2 ++ 2#2 : Byte).extractLsb' 0 2 = 2 := by decide +kernel
  exact all r x b r'

/-- The fields of the payload byte P1 are those of the second byte after C4H, with a fixed 1 for L (30_encoding.md R86). -/
theorem evexP1_fields (v : BitVec 4) :
    (0#1 ++ v ++ 1#1 ++ 1#2 : Byte).extractLsb' 7 1 = 0 ∧ (0#1 ++ v ++ 1#1 ++ 1#2 : Byte).extractLsb' 3 4 = v ∧
      (0#1 ++ v ++ 1#1 ++ 1#2 : Byte).extractLsb' 2 1 = 1 ∧ (0#1 ++ v ++ 1#1 ++ 1#2 : Byte).extractLsb' 0 2 = 1 :=
  vexByte2_fields v 1

/-- The fields of the payload byte P2 (30_encoding.md R86). -/
theorem evexP2_fields (z : Bool) (ll : BitVec 2) (b v : BitVec 1) (aaa : BitVec 3) :
    decide ((BitVec.ofBool z ++ ll ++ b ++ v ++ aaa : Byte).extractLsb' 7 1 = 1) = z ∧
      (BitVec.ofBool z ++ ll ++ b ++ v ++ aaa : Byte).extractLsb' 5 2 = ll ∧
      (BitVec.ofBool z ++ ll ++ b ++ v ++ aaa : Byte).extractLsb' 4 1 = b ∧
      (BitVec.ofBool z ++ ll ++ b ++ v ++ aaa : Byte).extractLsb' 3 1 = v ∧
      (BitVec.ofBool z ++ ll ++ b ++ v ++ aaa : Byte).extractLsb' 0 3 = aaa := by
  have all : ∀ (z : Bool) (ll : BitVec 2) (b v : BitVec 1) (aaa : BitVec 3),
      decide ((BitVec.ofBool z ++ ll ++ b ++ v ++ aaa : Byte).extractLsb' 7 1 = 1) = z ∧
        (BitVec.ofBool z ++ ll ++ b ++ v ++ aaa : Byte).extractLsb' 5 2 = ll ∧
        (BitVec.ofBool z ++ ll ++ b ++ v ++ aaa : Byte).extractLsb' 4 1 = b ∧
        (BitVec.ofBool z ++ ll ++ b ++ v ++ aaa : Byte).extractLsb' 3 1 = v ∧
        (BitVec.ofBool z ++ ll ++ b ++ v ++ aaa : Byte).extractLsb' 0 3 = aaa := by decide +kernel
  exact all z ll b v aaa

/-- A register number of four bits is its extension bit and its low three bits. -/
theorem reg4_of_parts (n : BitVec 4) : (n.extractLsb' 3 1 ++ n.extractLsb' 0 3 : BitVec 4) = n := by
  have all : ∀ n : BitVec 4, (n.extractLsb' 3 1 ++ n.extractLsb' 0 3 : BitVec 4) = n := by decide
  exact all n

/-- A register number of five bits is its two extension bits and its low three bits. -/
theorem reg5_of_parts (n : BitVec 5) : (n.extractLsb' 4 1 ++ n.extractLsb' 3 1 ++ n.extractLsb' 0 3 : BitVec 5) = n := by
  have all : ∀ n : BitVec 5, (n.extractLsb' 4 1 ++ n.extractLsb' 3 1 ++ n.extractLsb' 0 3 : BitVec 5) = n := by decide
  exact all n

theorem vvvv_of_parts (n : BitVec 5) : (n.extractLsb' 4 1 ++ n.extractLsb' 0 4 : BitVec 5) = n := by
  have all : ∀ n : BitVec 5, (n.extractLsb' 4 1 ++ n.extractLsb' 0 4 : BitVec 5) = n := by decide
  exact all n

/-! ## Operand 3 is read back -/

/-- A SIB byte keeps the base's low bits and the index (30_encoding.md R100, R101). -/
theorem sibByte_read_back (i : Option Index) (base : BitVec 3) (h : indexEncodable i = true) :
    (sibByte i base).2.extractLsb' 0 3 = base ∧ sibIndex (sibByte i base).1 (sibByte i base).2 = i := by
  cases i with
  | none =>
    obtain ⟨-, h3, h0⟩ := modRm_fields 0 4 base
    refine ⟨h0, ?_⟩
    show (if (0#1 ++ (0#2 ++ 4#3 ++ base : Byte).extractLsb' 3 3 : BitVec 4) = 4 then _ else _) = _
    exact if_pos (by rw [show (0#2 ++ 4#3 ++ base : Byte).extractLsb' 3 3 = 4 from h3]; rfl)
  | some x =>
    obtain ⟨n, sc⟩ := x
    obtain ⟨h6, h3, h0⟩ := modRm_fields sc (n.extractLsb' 0 3) base
    refine ⟨h0, ?_⟩
    have hn : n ≠ 4 := by simpa [indexEncodable] using h
    show (if (n.extractLsb' 3 1 ++ (sc ++ n.extractLsb' 0 3 ++ base : Byte).extractLsb' 3 3 : BitVec 4) = 4 then _ else
      some (⟨n.extractLsb' 3 1 ++ (sc ++ n.extractLsb' 0 3 ++ base : Byte).extractLsb' 3 3,
        (sc ++ n.extractLsb' 0 3 ++ base : Byte).extractLsb' 6 2⟩ : Index)) = _
    rw [h3, reg4_of_parts, if_neg hn, h6]

theorem disp_mod_ne_three (d : Disp) : d.mod ≠ 3 := by
  cases d with
  | none => show (0 : BitVec 2) ≠ 3; decide
  | d8 v => show (1 : BitVec 2) ≠ 3; decide
  | d32 v => show (2 : BitVec 2) ≠ 3; decide

theorem disp_mod_ne_zero (d : Disp) (h : d ≠ .none) : d.mod ≠ 0 := by
  cases d with
  | none => exact absurd rfl h
  | d8 v => show (1 : BitVec 2) ≠ 0; decide
  | d32 v => show (2 : BitVec 2) ≠ 0; decide

theorem memForm_mod_ne_three (m : MemForm) : m.fields.mod ≠ 3 := by
  cases m with
  | ripRel v => show (0 : BitVec 2) ≠ 3; decide
  | base b d => exact disp_mod_ne_three d
  | sib b i d => exact disp_mod_ne_three d
  | sibNoBase i v => show (0 : BitVec 2) ≠ 3; decide

/-- A memory operand that ModRM and SIB can say is read back (30_encoding.md R99 to R101). -/
theorem decodeMem_fields (m : MemForm) (rest : List Byte) (h : m.encodable = true) :
    decodeMem m.fields.mod m.fields.rm m.fields.x m.fields.b (m.fields.tail ++ rest) = some (m, rest) := by
  cases m with
  | ripRel v =>
    simp only [MemForm.fields, decodeMem, take32_bytes32]
    rfl
  | base b d =>
    simp only [MemForm.encodable, baseEncodable, Bool.and_eq_true, Bool.or_eq_true, decide_eq_true_eq] at h
    obtain ⟨h4, h5⟩ := h
    have hrip : ¬(b.extractLsb' 0 3 = 5 ∧ d.mod = 0) := fun ⟨hb, hd⟩ =>
      h5.elim (fun hne => disp_mod_ne_zero d hne hd) fun hne => hne hb
    simp only [MemForm.fields, decodeMem, if_neg h4, if_neg hrip, takeDisp_bytes, reg4_of_parts]
  | sib b i d =>
    simp only [MemForm.encodable, sibBaseEncodable, Bool.and_eq_true, Bool.or_eq_true, decide_eq_true_eq] at h
    obtain ⟨h5, hi⟩ := h
    obtain ⟨hbase, hindex⟩ := sibByte_read_back i (b.extractLsb' 0 3) hi
    have hno : ¬(b.extractLsb' 0 3 = 5 ∧ d.mod = 0) := fun ⟨hb, hd⟩ =>
      h5.elim (fun hne => disp_mod_ne_zero d hne hd) fun hne => hne hb
    simp only [MemForm.fields, List.cons_append, decodeMem, if_pos, hbase, if_neg hno, takeDisp_bytes, hindex, reg4_of_parts]
  | sibNoBase i v =>
    obtain ⟨hbase, hindex⟩ := sibByte_read_back i 5 h
    simp only [MemForm.fields, List.cons_append, decodeMem, hbase, and_self, if_pos, take32_bytes32, hindex]

/-! ## Instructions are read back -/

theorem vexMatches_encoded (r x b l : BitVec 1) (v : BitVec 4) (f : Form) :
    vexMatches (r ++ x ++ b ++ 2#5) (0#1 ++ v ++ l ++ 1#2) f.opcode := by
  obtain ⟨-, -, -, hmap⟩ := vexByte1_fields r x b
  obtain ⟨hw, -, -, hpp⟩ := vexByte2_fields v l
  exact ⟨hmap, hw, hpp, by cases f <;> decide⟩

theorem evexMatches_encoded (r x b r' : BitVec 1) (v : BitVec 4) (f : Form) :
    evexMatches (r ++ x ++ b ++ r' ++ 0#2 ++ 2#2) (0#1 ++ v ++ 1#1 ++ 1#2) f.opcode := by
  obtain ⟨-, -, -, -, -, hmap⟩ := evexP0_fields r x b r'
  obtain ⟨hw, -, -, hpp⟩ := evexP1_fields v
  exact ⟨hmap, hw, hpp, by cases f <;> decide⟩

/-- A VEX form is read back (30_encoding.md R83, R84, R92). -/
theorem decode_encodeVex (f : Form) (l : BitVec 1) (p : List LegacyPrefix) (d s2 : BitVec 4) (o : VexOp3)
    (rest : List Byte) (ho : o.encodable = true) :
    decode (encodeVex f l p d s2 o ++ rest) = .instr (vexRow f l p d s2 o) rest := by
  obtain ⟨hr, hx, hb, -⟩ := vexByte1_fields (~~~(d.extractLsb' 3 1)) (~~~o.fields.x) (~~~o.fields.b)
  obtain ⟨-, hv, hl, -⟩ := vexByte2_fields (~~~s2) l
  obtain ⟨hmod, hreg, hrm⟩ := modRm_fields o.fields.mod (d.extractLsb' 0 3) o.fields.rm
  obtain ⟨f', hf, -, hoperands⟩ := decodeVex_of_vexMatches p _ _ _
    (vexMatches_encoded (~~~(d.extractLsb' 3 1)) (~~~o.fields.x) (~~~o.fields.b) l (~~~s2) f)
  obtain rfl : f = f' := Option.some.inj ((formOf_opcode f).symm.trans hf)
  simp only [encodeVex, List.append_assoc, List.cons_append, List.nil_append]
  rw [decode_prefixes_c4, hoperands]
  simp only [decodeVexOperands, hr, hx, hb, hv, hl, hmod, hreg, hrm, BitVec.not_not, reg4_of_parts]
  cases o with
  | reg n => simp only [VexOp3.fields, if_pos, reg4_of_parts, List.nil_append]
  | mem m => simp only [VexOp3.fields, if_neg (memForm_mod_ne_three m), decodeMem_fields m rest ho]

/-- The payload bytes and the ModRM byte carry these fields, and the reserved bits are as 30_encoding.md R86 has them. -/
structure CarriesEvexFields (p0 p1 p2 m : Byte) (ll : BitVec 2) (b : BitVec 1) (k : Masking) (d s2 : BitVec 5)
    (q : RmFields) : Prop where
  dest : (~~~(p0.extractLsb' 4 1) ++ ~~~(p0.extractLsb' 7 1) ++ m.extractLsb' 3 3 : BitVec 5) = d
  src2 : (~~~(p2.extractLsb' 3 1) ++ ~~~(p1.extractLsb' 3 4) : BitVec 5) = s2
  masking : (⟨p2.extractLsb' 0 3, decide (p2.extractLsb' 7 1 = 1)⟩ : Masking) = k
  ll : p2.extractLsb' 5 2 = ll
  bit : p2.extractLsb' 4 1 = b
  x : ~~~(p0.extractLsb' 6 1) = q.x
  b : ~~~(p0.extractLsb' 5 1) = q.b
  mod : m.extractLsb' 6 2 = q.mod
  rm : m.extractLsb' 0 3 = q.rm
  reserved : evexReserved p0 p1 = false

/-- An EVEX form is read as far as its ModRM byte (30_encoding.md R86, R87). -/
theorem decode_encodeEvex (f : Form) (ll : BitVec 2) (b : BitVec 1) (p : List LegacyPrefix) (k : Masking)
    (d s2 : BitVec 5) (q : RmFields) (rest : List Byte) :
    ∃ p0 p1 p2 m, CarriesEvexFields p0 p1 p2 m ll b k d s2 q ∧
      decode (encodeEvex f ll b p k d s2 q ++ rest) = decodeEvexOperands p p0 p1 p2 f m (q.tail ++ rest) := by
  obtain ⟨hr, hx, hb, hr', hres0, -⟩ := evexP0_fields (~~~(d.extractLsb' 3 1)) (~~~q.x) (~~~q.b) (~~~(d.extractLsb' 4 1))
  obtain ⟨-, hv, hres1, -⟩ := evexP1_fields (~~~(s2.extractLsb' 0 4))
  obtain ⟨hz, hll, hbit, hv', haaa⟩ := evexP2_fields k.z ll b (~~~(s2.extractLsb' 4 1)) k.aaa
  obtain ⟨hmod, hreg, hrm⟩ := modRm_fields q.mod (d.extractLsb' 0 3) q.rm
  obtain ⟨f', hf, -, hoperands⟩ := decodeEvex_of_evexMatches p _
    _ (BitVec.ofBool k.z ++ ll ++ b ++ ~~~(s2.extractLsb' 4 1) ++ k.aaa) _
    (evexMatches_encoded (~~~(d.extractLsb' 3 1)) (~~~q.x) (~~~q.b) (~~~(d.extractLsb' 4 1)) (~~~(s2.extractLsb' 0 4)) f)
  obtain rfl : f = f' := Option.some.inj ((formOf_opcode f).symm.trans hf)
  refine ⟨_, _, _, q.mod ++ d.extractLsb' 0 3 ++ q.rm, ⟨?_, ?_, ?_, hll, hbit, ?_, ?_, hmod, hrm,
    (evexReserved_eq_false_iff _ _).2 ⟨hres0, hres1⟩⟩, ?_⟩
  · rw [hr', hr, hreg, BitVec.not_not, BitVec.not_not, reg5_of_parts]
  · rw [hv', hv, BitVec.not_not, BitVec.not_not, vvvv_of_parts]
  · rw [haaa, hz]
  · rw [hx, BitVec.not_not]
  · rw [hb, BitVec.not_not]
  · simp only [encodeEvex, List.append_assoc, List.cons_append, List.nil_append]
    rw [decode_prefixes_62, hoperands]

/-- An EVEX form without embedded rounding is read back. -/
theorem decode_encodeEvex_row (f : Form) (ll : BitVec 2) (p : List LegacyPrefix) (k : Masking) (d s2 : BitVec 5)
    (o : EvexOp3) (i : Instr) (rest : List Byte) (hrow : evexRow f ll p k d s2 o = some i) (ho : o.encodable = true) :
    decode (encodeEvex f ll o.fields.2 p k d s2 o.fields.1 ++ rest) = .instr i rest := by
  have h01 : (0 : BitVec 1) ≠ 1 := by decide
  obtain ⟨p0, p1, p2, m, h, e⟩ := decode_encodeEvex f ll o.fields.2 p k d s2 o.fields.1 rest
  rw [e]
  simp only [decodeEvexOperands, h.dest, h.src2, h.masking, h.ll, h.bit, h.x, h.b, h.mod, h.rm, h.reserved,
    Bool.false_eq_true, if_false]
  cases o with
  | reg n =>
    simp only [if_neg (show (EvexOp3.reg n).fields.2 ≠ 1 from h01)]
    simp only [EvexOp3.fields, evexRegFields, if_pos, reg5_of_parts, List.nil_append, hrow]
  | mem a =>
    simp only [if_neg (show (EvexOp3.mem a).fields.2 ≠ 1 from h01)]
    simp only [EvexOp3.fields, if_neg (memForm_mod_ne_three a), decodeMem_fields a rest ho, hrow]
  | bcst a =>
    simp only [if_pos (show (EvexOp3.bcst a).fields.2 = 1 from rfl)]
    simp only [EvexOp3.fields, if_neg (memForm_mod_ne_three a), decodeMem_fields a rest ho, hrow]

/-- An embedded-rounding form is read back. -/
theorem decode_encodeEvex_er (f : Form) (p : List LegacyPrefix) (k : Masking) (d s2 s3 : BitVec 5) (rc : RoundMode)
    (rest : List Byte) :
    decode (encodeEvex f rc.bits 1 p k d s2 (evexRegFields s3) ++ rest) = .instr (erRow f p k d s2 s3 rc) rest := by
  obtain ⟨p0, p1, p2, m, h, e⟩ := decode_encodeEvex f rc.bits 1 p k d s2 (evexRegFields s3) rest
  rw [e]
  simp only [decodeEvexOperands, h.dest, h.src2, h.masking, h.ll, h.bit, h.x, h.b, h.mod, h.rm, h.reserved,
    Bool.false_eq_true, if_false, evexRegFields, if_pos, reg5_of_parts, roundMode_ofBits_bits, List.nil_append]

/-- Settles O1: each constructor is a row of the VEX forms, the EVEX forms or the embedded-rounding forms, which are read
back. -/
theorem decodeEncodeAgree : Obligations.DecodeEncodeAgree := by
  unfold Obligations.DecodeEncodeAgree
  intro i rest h
  cases i with
  | vfnmsub132VexXmm | vfnmsub213VexXmm | vfnmsub231VexXmm | vfnmsub132VexYmm | vfnmsub213VexYmm | vfnmsub231VexYmm =>
    exact decode_encodeVex _ _ _ _ _ _ rest h
  | vfnmsub132EvexXmm | vfnmsub213EvexXmm | vfnmsub231EvexXmm | vfnmsub132EvexYmm | vfnmsub213EvexYmm | vfnmsub231EvexYmm
  | vfnmsub132EvexZmm | vfnmsub213EvexZmm | vfnmsub231EvexZmm =>
    exact decode_encodeEvex_row _ _ _ _ _ _ _ _ rest rfl h
  | vfnmsub132EvexZmmEr | vfnmsub213EvexZmmEr | vfnmsub231EvexZmmEr => exact decode_encodeEvex_er _ _ _ _ _ _ _ rest

/-- Settles O2, by what the decoder takes from the front of the bytes. -/
theorem decodedLengthIsCounted : Obligations.DecodedLengthIsCounted := by
  unfold Obligations.DecodedLengthIsCounted
  intro bs rest i h
  obtain ⟨henc, used, hbs, hlen, -⟩ := decode_decodesFront bs rest i h
  exact ⟨henc, used, hbs, by omega⟩

/-- Settles O3: the bytes the decoder takes are the first ones, and it does not look past them. -/
theorem decodingReadsOnlyTheInstruction : Obligations.DecodingReadsOnlyTheInstruction := by
  unfold Obligations.DecodingReadsOnlyTheInstruction
  intro bs rest other i h
  obtain ⟨-, used, rfl, hlen, hall⟩ := decode_decodesFront bs rest i h
  rw [show i.length = used.length by omega, List.take_left]
  exact hall other

/-- Settles O4, by running decoder and encoder on each word. -/
theorem sampleWordsDecode : Obligations.SampleWordsDecode := by
  unfold Obligations.SampleWordsDecode
  refine ⟨by decide +kernel, by decide +kernel, by decide +kernel⟩

/-! ## Reserved encodings -/

/-- With a reserved bit not as R86 has it, or the reserved length outside embedded rounding, no operand gives a row
(30_encoding.md R111). -/
theorem decodeEvexOperands_reserved (p : List LegacyPrefix) (p0 p1 p2 : Byte) (f : Form) (m : Byte) (bs : List Byte)
    (h : ¬evexReservedKept p0 p1 ∨ (p2.extractLsb' 5 2 = 3 ∧ ¬(p2.extractLsb' 4 1 = 1 ∧ m.extractLsb' 6 2 = 3))) :
    (m.extractLsb' 6 2 = 3 → decodeEvexOperands p p0 p1 p2 f m bs = .undefined bs) ∧
    (m.extractLsb' 6 2 ≠ 3 →
      (∀ a rest, decodeMem (m.extractLsb' 6 2) (m.extractLsb' 0 3) (~~~(p0.extractLsb' 6 1)) (~~~(p0.extractLsb' 5 1)) bs =
        some (a, rest) → decodeEvexOperands p p0 p1 p2 f m bs = .undefined rest) ∧
      (decodeMem (m.extractLsb' 6 2) (m.extractLsb' 0 3) (~~~(p0.extractLsb' 6 1)) (~~~(p0.extractLsb' 5 1)) bs =
        none → decodeEvexOperands p p0 p1 p2 f m bs = .needMore)) := by
  refine ⟨fun hreg => ?register, fun hmem => ⟨fun a rest ha => ?memory, fun hnone => ?short⟩⟩
  case register =>
    simp only [decodeEvexOperands, if_pos hreg]
    cases hres : evexReserved p0 p1
    · obtain hkept | ⟨hll, her⟩ := h
      · exact absurd ((evexReserved_eq_false_iff p0 p1).1 hres) hkept
      · rw [if_neg fun hb => her ⟨hb, hreg⟩, hll, evexRow_reserved, if_neg Bool.false_ne_true]
    · rw [if_pos rfl, if_pos rfl, ite_self]
  case memory =>
    simp only [decodeEvexOperands, if_neg hmem, ha]
    cases hres : evexReserved p0 p1
    · obtain hkept | ⟨hll, -⟩ := h
      · exact absurd ((evexReserved_eq_false_iff p0 p1).1 hres) hkept
      · rw [hll, evexRow_reserved, if_neg Bool.false_ne_true]
    · rw [if_pos rfl]
  case short => simp only [decodeEvexOperands, if_neg hmem, hnone]

/-- Settles O6: past the fixed fields the operand alone decides between `undefined` and `needMore`. -/
theorem reservedEvexIsUndefined : Obligations.ReservedEvexIsUndefined := by
  unfold Obligations.ReservedEvexIsUndefined
  intro p p0 p1 p2 op m rest hm hres
  obtain ⟨f, -, -, hoperands⟩ := decodeEvex_of_evexMatches p p0 p1 p2 op hm
  obtain ⟨hregister, hmemory⟩ := decodeEvexOperands_reserved p p0 p1 p2 f m rest hres
  simp only [decode_prefixes_62, hoperands]
  exact ⟨hregister, fun a rest' hmem => (hmemory hmem).1 a rest', fun hmem => (hmemory hmem).2⟩

end Sys2Proof
end

section
/-! The fetch and the step (30_encoding.md R109, 60_exceptions.md R231 steps 1 to 3): the statements O7, O8 and O9. -/

namespace Sys2Proof.Machine

open Sys2Proof.Safety

/-! ## What is fetched -/

/-- The fetch goes on past bytes that come. -/
theorem fetchBytes_append (s : State) (bs : List Byte) (n : Nat) (a : Addr)
    (h : ∀ i < bs.length, accessByte s .fetch .cs (a + BitVec.ofNat 64 i) = .ok (bs.getD i 0)) :
    fetchBytes s (bs.length + n) a =
      (bs ++ (fetchBytes s n (a + BitVec.ofNat 64 bs.length)).1, (fetchBytes s n (a + BitVec.ofNat 64 bs.length)).2) := by
  induction bs generalizing a with
  | nil => simp
  | cons b bs ih =>
    have hb : accessByte s .fetch .cs a = .ok b := by simpa using h 0 (by simp)
    have htail := ih (a + 1) fun i hi => by
      rw [← add_ofNat_succ]
      simpa only [List.getD_cons_succ] using h (i + 1) (by simpa using hi)
    rw [List.length_cons, Nat.add_right_comm, fetchBytes, hb, add_ofNat_succ, htail]
    rfl

/-- A run of legacy prefixes that can be fetched is listed in memory, so that the fetch may read fifteen bytes after it. -/
theorem length_le_fetchLimit (s : State) (bs : List Byte) (a : Addr) (p : List LegacyPrefix) (tail : List Byte)
    (hbs : bs = p.map LegacyPrefix.byte ++ tail)
    (h : ∀ i < bs.length, accessByte s .fetch .cs (a + BitVec.ofNat 64 i) = .ok (bs.getD i 0)) :
    bs.length + maxLength ≤ fetchLimit s + tail.length := by
  have hlt : bs.length < 2 ^ 64 := fetch_run_lt s a bs.length fun i hi => ⟨_, h i hi⟩
  have hlen : bs.length = p.length + tail.length := by simp [hbs]
  have hrun : p.length ≤ s.mem.length := Memory.length_of_run s.mem a p.length (by omega) fun i hi e => by
    obtain ⟨-, -, hm⟩ := (accessByte_ok_iff _ _ _ _ _).1 (h i (by omega))
    have hbyte : bs.getD i 0 = (p[i]).byte := by simp [hbs, List.getD_eq_getElem?_getD, List.getElem?_append, hi]
    have hlegacy := legacyOf_byte p[i]
    rw [← hbyte, hm, e, legacyOf_unlisted] at hlegacy
    cases hlegacy
  rw [fetchLimit, hlen]
  omega

/-! ## The step by what is decoded -/

theorem fetchAddress_of_pMode (s : State) (h : pMode s) : fetchAddress s = s.rip := if_pos h

section Step
variable {s : State} (hmode : pMode s)
include hmode

theorem step_of_instr {i : Instr} {rest : List Byte}
    (h : decode (fetchBytes s (fetchLimit s) s.rip).1 = .instr i rest) : step s = exec i s := by
  simp only [step, fetchInstr, modeRefused_eq_false s hmode, fetchAddress_of_pMode s hmode, h, Bool.false_eq_true, if_false]

theorem step_of_undefined {rest : List Byte} (h : decode (fetchBytes s (fetchLimit s) s.rip).1 = .undefined rest) :
    step s =
      raise (if rest.length + maxLength < (fetchBytes s (fetchLimit s) s.rip).1.length then .gp else .ud) s := by
  simp only [step, fetchInstr, modeRefused_eq_false s hmode, fetchAddress_of_pMode s hmode, h, Bool.false_eq_true, if_false]

theorem step_of_notInScope {why : Reject} (h : decode (fetchBytes s (fetchLimit s) s.rip).1 = .notInScope why) :
    step s = .refused (.notInScope why) := by
  simp only [step, fetchInstr, modeRefused_eq_false s hmode, fetchAddress_of_pMode s hmode, h, Bool.false_eq_true, if_false]

theorem step_of_needMore {q : Stop} (h : decode (fetchBytes s (fetchLimit s) s.rip).1 = .needMore)
    (hq : (fetchBytes s (fetchLimit s) s.rip).2 = some q) : step s = q.result s := by
  simp only [step, fetchInstr, modeRefused_eq_false s hmode, fetchAddress_of_pMode s hmode, h, hq, Bool.false_eq_true,
    if_false]

end Step

/-- Settles O7: each answer of the decoder in turn; bytes that want more end at one that does not come. -/
theorem stepRunsTheDecodedInstruction : Obligations.StepRunsTheDecodedInstruction := by
  unfold Obligations.StepRunsTheDecodedInstruction
  intro s hmode
  refine ⟨fun i rest h => step_of_instr hmode h, fun rest h => ⟨fun hshort => ?_, fun hlong => ?_⟩,
    fun why h => step_of_notInScope hmode h, fun h => ?_⟩
  · rw [step_of_undefined hmode h, if_neg (by rw [maxLength]; omega)]
    rfl
  · rw [step_of_undefined hmode h, if_pos (by rw [maxLength]; omega)]
    rfl
  · obtain ⟨q, hq⟩ := fetchLimit_suffices s s.rip h
    obtain ⟨-, ⟨-, hnone⟩ | ⟨q', hq', -, haccess⟩⟩ := fetchBytes_spec s (fetchLimit s) s.rip
    · rw [hq] at hnone
      cases hnone
    · obtain rfl : q' = q := Option.some.inj (hq'.symm.trans hq)
      exact ⟨q', hq, by rw [step_of_needMore hmode h hq]; exact stopOutcome_of_accessByte s _ _ _ q' haccess⟩

/-! ## Bytes that can be fetched are executed -/

/-- The encoding of an encodable instruction has the length of R110. -/
theorem encode_length_of_encodable (i : Instr) (h : i.encodable = true) : (encode i).length = i.length := by
  obtain ⟨-, used, hused, hlen⟩ := decodedLengthIsCounted _ _ _ (decodeEncodeAgree i [] h)
  rw [List.append_cancel_right hused, hlen]

theorem memForm_length_le (m : MemForm) : m.length ≤ 5 := by
  have hd : ∀ d : Disp, d.length ≤ 4 := fun d => by cases d <;> simp [Disp.length]
  cases m with
  | ripRel v => simp [MemForm.length]
  | base b d => have := hd d; simp only [MemForm.length]; omega
  | sib b i d => have := hd d; simp only [MemForm.length]; omega
  | sibNoBase i v => simp [MemForm.length]

theorem encodeVex_eq_append (f : Form) (l : BitVec 1) (p : List LegacyPrefix) (d s2 : BitVec 4) (o : VexOp3) :
    ∃ tail, encodeVex f l p d s2 o = p.map LegacyPrefix.byte ++ tail ∧ tail.length ≤ maxLength := by
  refine ⟨_, List.append_assoc .., ?_⟩
  have ho : o.length ≤ 5 := by
    cases o with
    | reg n => exact Nat.zero_le _
    | mem m => exact memForm_length_le m
  rw [List.length_append, vexOp3_tail_length]
  simp only [List.length_cons, List.length_nil, maxLength]
  omega

theorem encodeEvex_eq_append (f : Form) (ll : BitVec 2) (b : BitVec 1) (p : List LegacyPrefix) (k : Masking)
    (d s2 : BitVec 5) (q : RmFields) (hq : q.tail.length ≤ 5) :
    ∃ tail, encodeEvex f ll b p k d s2 q = p.map LegacyPrefix.byte ++ tail ∧ tail.length ≤ maxLength := by
  refine ⟨_, List.append_assoc .., ?_⟩
  rw [List.length_append]
  simp only [List.length_cons, List.length_nil, maxLength]
  omega

theorem evexOp3_tail_length_le (o : EvexOp3) : o.fields.1.tail.length ≤ 5 := by
  rw [evexOp3_tail_length]
  cases o with
  | reg n => exact Nat.zero_le _
  | mem m => exact memForm_length_le m
  | bcst m => exact memForm_length_le m

/-- An encoding is its legacy prefixes and at most fifteen bytes more. -/
theorem encode_eq_append (i : Instr) :
    ∃ tail, encode i = i.prefixes.map LegacyPrefix.byte ++ tail ∧ tail.length ≤ maxLength := by
  cases i with
  | vfnmsub132VexXmm | vfnmsub213VexXmm | vfnmsub231VexXmm | vfnmsub132VexYmm | vfnmsub213VexYmm | vfnmsub231VexYmm =>
    exact encodeVex_eq_append ..
  | vfnmsub132EvexXmm | vfnmsub213EvexXmm | vfnmsub231EvexXmm | vfnmsub132EvexYmm | vfnmsub213EvexYmm | vfnmsub231EvexYmm
  | vfnmsub132EvexZmm | vfnmsub213EvexZmm | vfnmsub231EvexZmm =>
    exact encodeEvex_eq_append _ _ _ _ _ _ _ _ (evexOp3_tail_length_le _)
  | vfnmsub132EvexZmmEr | vfnmsub213EvexZmmEr | vfnmsub231EvexZmmEr =>
    exact encodeEvex_eq_append _ _ _ _ _ _ _ _ (Nat.zero_le _)

/-- Settles O8: the fetch gives the encoding and what follows it, which decodes to the instruction. -/
theorem stepExecutesTheBytesAtRip : Obligations.StepExecutesTheBytesAtRip := by
  unfold Obligations.StepExecutesTheBytesAtRip
  intro s i hmode henc htext hbytes
  have hlen := encode_length_of_encodable i henc
  have hcome : ∀ n < (encode i).length,
      accessByte s .fetch .cs (s.rip + BitVec.ofNat 64 n) = .ok ((encode i).getD n 0) := fun n hn => by
    obtain ⟨hcanonical, hmemory⟩ := htext n (hlen ▸ hn)
    exact (accessByte_ok_iff _ _ _ _ _).2 ⟨hcanonical, hmemory, (hbytes n (hlen ▸ hn)).symm⟩
  obtain ⟨tail, htail, hshort⟩ := encode_eq_append i
  have hlimit := length_le_fetchLimit s _ s.rip _ tail htail hcome
  have hfetch := fetchBytes_append s (encode i) (fetchLimit s - (encode i).length) s.rip hcome
  rw [Nat.add_sub_cancel' (by omega)] at hfetch
  exact step_of_instr hmode (by rw [hfetch]; exact decodeEncodeAgree i _ henc)

/-! ## The byte that does not come -/

/-- Bytes that come and want more, and then one that does not: that one ends the step. -/
theorem step_of_failing_byte (s : State) (bs : List Byte) (q : Stop) (hmode : pMode s)
    (hcome : ∀ n < bs.length, accessByte s .fetch .cs (s.rip + BitVec.ofNat 64 n) = .ok (bs.getD n 0))
    (hmore : decode bs = .needMore)
    (hfail : accessByte s .fetch .cs (s.rip + BitVec.ofNat 64 bs.length) = .error q) : step s = q.result s := by
  have hlimit := length_le_fetchLimit s bs s.rip _ _ (map_byte_splitLegacy bs).symm hcome
  have hbody := decodeBody_needMore _ _ hmore
  rw [maxLength] at hlimit
  have hfetch := fetchBytes_append s bs (fetchLimit s - (bs.length + 1) + 1) s.rip hcome
  have hone : fetchBytes s (fetchLimit s - (bs.length + 1) + 1) (s.rip + BitVec.ofNat 64 bs.length) = ([], some q) := by
    rw [fetchBytes, hfail]
  rw [hone, show bs.length + (fetchLimit s - (bs.length + 1) + 1) = fetchLimit s by omega, List.append_nil] at hfetch
  exact step_of_needMore hmode (by rw [hfetch]; exact hmore) (by rw [hfetch])

/-- A byte at a canonical address that paging refuses (60_exceptions.md R228). -/
theorem accessByte_pageFault (s : State) (kind : Config.AccessKind) (r : Segment) (a : Addr) (c : Config.PageFaultCause)
    (hc : canonical s.xlat.la57 a = true) (h : translate s.xlat kind a = .pageFault c) :
    accessByte s kind r a = .error (.exc (.pf (pageFaultCode c kind s.cpl) a)) := by
  simp only [accessByte, hc, h, if_true]

/-- A byte at a canonical address in memory whose reads have side effects (20_memory.md R61). -/
theorem accessByte_sideEffects (s : State) (kind : Config.AccessKind) (r : Segment) (a : Addr)
    (hc : canonical s.xlat.la57 a = true) (h : translate s.xlat kind a = .sideEffects) :
    accessByte s kind r a = .error (.refuse .sideEffectMemory) := by
  simp only [accessByte, hc, h, if_true]

/-- Settles O9: the byte that does not come, by the reason why it does not. -/
theorem fetchStopsAtTheFirstFailingByte : Obligations.FetchStopsAtTheFirstFailingByte := by
  unfold Obligations.FetchStopsAtTheFirstFailingByte
  intro s bs hmode hcome hmore
  refine ⟨fun hc => ?_, fun c hc hpf => ?_, fun hc hside => ?_⟩
  · exact step_of_failing_byte s bs _ hmode hcome hmore (accessByte_not_canonical s .fetch .cs _ hc)
  · exact step_of_failing_byte s bs _ hmode hcome hmore (accessByte_pageFault s .fetch .cs _ c hc hpf)
  · exact step_of_failing_byte s bs _ hmode hcome hmore (accessByte_sideEffects s .fetch .cs _ hc hside)

end Sys2Proof.Machine
end

section
/-! The flag of a denormal operand, lanes without a result, and the swap of the multiplicands: the statements O13, O23 and O24
(40_fnmsub_lane_arithmetic.md R139, R133, R150). -/

namespace Sys2Proof.Machine

open Sys2Proof.Safety

/-! ## DE -/

/-- Whether DE stands among the flags of a lane of numbers. -/
theorem getLsbD_denormalFlag_dazOperand (daz : Bool) (x y z : F32) :
    (denormalFlag (dazOperand daz x) (dazOperand daz y) (dazOperand daz z)).getLsbD 1 = true ↔
      daz = false ∧ (isDenormal x = true ∨ isDenormal y = true ∨ isDenormal z = true) := by
  rw [denormalFlag, getLsbD_flagIf, show flagDE.getLsbD 1 = true from rfl]
  cases daz <;> simp [or_assoc]

/-- Settles O13: a NaN and an invalid lane signal IE or nothing, and any other lane DE as its denormal operands say. -/
theorem denormalFlagExactlyWhenDenormalOperand : Obligations.DenormalFlagExactlyWhenDenormalOperand := by
  unfold Obligations.DenormalFlagExactlyWhenDenormalOperand
  intro x y z c
  cases hnan : isNaN x || isNaN y || isNaN z
  · rw [fnmsub32_of_not_nan x y z c hnan]
    simp only [Bool.or_eq_false_iff] at hnan
    obtain ⟨⟨hx, hy⟩, hz⟩ := hnan
    by_cases hi : invalidNumbers (dazOperand c.daz x) (dazOperand c.daz y) (dazOperand c.daz z)
    · rw [fnmsubNumber_invalid _ _ _ _ hi]
      simp [flagIE]
    · rw [fnmsubNumber_low (by omega) _ _ _ _ hi, fnmsubNumber_low (by omega) _ _ _ _ hi,
        denormalFlag_ne_de _ _ _ 0 (by omega), getLsbD_denormalFlag_dazOperand]
      simp [hx, hy, hz]
  · have hsilent : (fnmsub32 x y z c).fl.getLsbD 1 = false := by
      rw [fnmsub32_of_nan x y z c hnan, nanResult]
      dsimp only
      split <;> rfl
    rw [hsilent]
    refine iff_of_false Bool.false_ne_true ?_
    rintro ⟨-, hx, hy, hz, -⟩
    simp [hx, hy, hz] at hnan

/-! ## Lanes without a result -/

/-- Flags among which one stands for certain. -/
theorem getLsbD_or_or {f g h : FlagSet} {j : Nat} (hg : g.getLsbD j = true) : (f ||| g ||| h).getLsbD j = true := by
  rw [BitVec.getLsbD_or, BitVec.getLsbD_or, hg, Bool.or_true, Bool.true_or]

/-- The rounding withholds its result only where underflow or overflow is signalled and unmasked. -/
theorem roundFinite_none (s : Bool) (a : Nat) (c : FpControl) (fl : FlagSet) (h : (roundFinite s a c fl).r = none) :
    (c.um = false ∧ (roundFinite s a c fl).fl.getLsbD 4 = true) ∨
      (c.om = false ∧ (roundFinite s a c fl).fl.getLsbD 3 = true) := by
  obtain ⟨-, e⟩ | ⟨-, e⟩ | ⟨-, -, e⟩ := roundFinite_cases s a c fl _ rfl
  · rw [e] at h ⊢
    obtain ⟨hum, e⟩ | ⟨-, -, e⟩ | ⟨-, -, e⟩ :=
      tinyResult_cases s a (roundUnbounded s a c.rm).2.2 c fl _ rfl
    · rw [e]
      exact .inl ⟨hum, getLsbD_or_or rfl⟩
    · rw [e] at h; cases h
    · rw [e] at h; cases h
  · rw [e] at h ⊢
    obtain ⟨hom, e⟩ | ⟨-, r, -, e⟩ := overflowResult_cases s (roundUnbounded s a c.rm).2.2 c fl
    · rw [e]
      exact .inr ⟨hom, getLsbD_or_or rfl⟩
    · rw [e] at h; cases h
  · rw [e] at h; cases h

/-- Settles O23: only the rounding of a finite value withholds a result. -/
theorem lanesWithoutResultTrap : Obligations.LanesWithoutResultTrap := by
  unfold Obligations.LanesWithoutResultTrap
  intro x y z c h
  cases hnan : isNaN x || isNaN y || isNaN z
  · rw [fnmsub32_of_not_nan x y z c hnan] at h ⊢
    obtain ⟨-, e⟩ | ⟨-, ⟨-, e⟩ | ⟨-, -, e⟩ | ⟨-, -, -, e⟩⟩ :=
      fnmsubNumber_cases (dazOperand c.daz x) (dazOperand c.daz y) (dazOperand c.daz z) c
    · rw [e] at h; cases h
    · rw [e] at h; cases h
    · rw [e] at h; cases h
    · rw [e, finiteResult] at h ⊢
      split at h
      · cases h
      · next hne =>
        rw [if_neg hne]
        exact roundFinite_none _ _ _ _ h
  · rw [fnmsub32_of_nan x y z c hnan] at h
    cases h

/-! ## The multiplicands -/

theorem productSign_comm (x y : F32) : productSign y x = productSign x y := by
  rw [productSign, productSign, Bool.xor_comm]

theorem exactValue_comm (x y z : F32) : exactValue y x z = exactValue x y z := by
  rw [exactValue, exactValue, mul_comm]

theorem finiteResult_comm (x y z : F32) (c : FpControl) (fl : FlagSet) : finiteResult y x z c fl = finiteResult x y z c fl := by
  simp only [finiteResult, exactValue_comm x y z, zeroResult, productSign_comm x y, Bool.or_comm (isZero y)]

theorem fnmsubNumber_comm (x y z : F32) (c : FpControl) : fnmsubNumber y x z c = fnmsubNumber x y z c := by
  simp only [fnmsubNumber, finiteResult_comm x y, productSign_comm x y, Bool.or_comm (isInf y), Bool.or_comm (isDenormal y),
    Bool.and_comm (isInf y), Bool.and_comm (isZero y), Bool.or_comm (isZero x && isInf y)]

/-- The first NaN is another one only if both multiplicands are NaNs (40_fnmsub_lane_arithmetic.md R136). -/
theorem nanResult_comm (x y z : F32) (h : ¬(isNaN x = true ∧ isNaN y = true)) : nanResult y x z = nanResult x y z := by
  rw [nanResult, nanResult, Bool.or_comm (isSNaN y)]
  cases hx : isNaN x
  · rfl
  · have hy : isNaN y = false := Bool.eq_false_iff.2 fun hy => h ⟨hx, hy⟩
    rw [hy]
    rfl

/-- Settles O24: every step of the lane is symmetric in the multiplicands, but for the choice among two NaNs. -/
theorem multiplicandsCommuteUnlessNans : Obligations.MultiplicandsCommuteUnlessNans := by
  unfold Obligations.MultiplicandsCommuteUnlessNans
  intro x y z c h
  rw [fnmsub32, fnmsub32, Bool.or_comm (isNaN y), nanResult_comm x y z h, fnmsubNumber_comm]

end Sys2Proof.Machine
end

section
/-! What every next state is: the destination written, flags OR-ed into MXCSR and `rip` moved on. The statements O52, O53, O54,
O59 and O60. -/

namespace Sys2Proof.Machine

open Sys2Proof.Safety

/-! ## A next state of the step -/

theorem fetchInstr_ne_next (s t : State) : fetchInstr s ≠ .stop (.next t) := by
  intro h
  unfold fetchInstr at h
  split at h
  · cases h
  · split at h
    · cases h
    · exact raise_ne_next _ s t (Fetched.stop.inj h)
    · cases h
    · split at h
      · exact Stop.result_ne_next _ s t (Fetched.stop.inj h)
      · exact raise_ne_next _ s t (Fetched.stop.inj h)

/-- The step gives a next state only by executing an instruction. -/
theorem exec_of_step_next (s t : State) (h : step s = .next t) : ∃ i, exec i s = .next t := by
  unfold step at h
  split at h
  · exact ⟨_, h⟩
  · next r hr =>
    subst h
    exact absurd hr (fetchInstr_ne_next s t)

/-! ## The vector that is written -/

theorem lanesNew_length (l : Lanes) (act : List Bool) (z : Bool) : (l.new act z).length = act.length := by
  simp [Lanes.new]

theorem maxvl_ge (f : Config.Features) : 256 ≤ f.maxvl := by
  unfold Config.Features.maxvl
  split <;> omega

theorem nvreg_ge (f : Config.Features) : 16 ≤ f.nvreg := by
  unfold Config.Features.nvreg
  split <;> omega

/-- The vector an instruction writes is no wider than its lanes. -/
theorem packLanes_new_lt (l : Lanes) (act : List Bool) (z : Bool) {n : Nat} (h : 32 * act.length ≤ n) :
    (packLanes (l.new act z)).toNat < 2 ^ n := by
  have hlt := packLanes_lt (l.new act z)
  rw [lanesNew_length] at hlt
  exact hlt.trans_le (Nat.pow_le_pow_right (by omega) h)

theorem lanes_of_mem_vexForms {p : List LegacyPrefix} {d s2 : BitVec 4} {o : VexOp3} {q : Nat × Instr}
    (hq : q ∈ vexForms p d s2 o) : q.1 ≤ 8 := by
  simp only [vexForms, List.mem_cons, List.not_mem_nil, or_false] at hq
  obtain rfl | rfl | rfl | rfl | rfl | rfl := hq <;> simp

theorem lanes_of_mem_evexForms {p : List LegacyPrefix} {k : Masking} {d s2 : BitVec 5} {o : EvexOp3} {q : Nat × Instr}
    (hq : q ∈ evexForms p k d s2 o) : q.1 ≤ 16 := by
  simp only [evexForms, List.mem_cons, List.not_mem_nil, or_false] at hq
  obtain rfl | rfl | rfl | rfl | rfl | rfl | rfl | rfl | rfl := hq <;> simp

theorem avx512f_of_evexUd (s : State) (p : List LegacyPrefix) (k : Masking) (kl : Nat) (h : evexUd s p k kl = false) :
    s.feat.avx512f = true := by
  simp only [evexUd, Bool.or_eq_false_iff, Bool.not_eq_false'] at h
  obtain ⟨⟨⟨⟨⟨⟨⟨h, -⟩, -⟩, -⟩, -⟩, -⟩, -⟩, -⟩ := h
  exact h

/-- The vector register `d`, and a value for it, that the processor has (10_state.md R20). -/
def FitsVectorFile (s : State) (d : BitVec 5) (v : Vec) : Prop := v.toNat < 2 ^ s.feat.maxvl ∧ d.toNat < s.feat.nvreg

/-- With AVX512F the vector file has all registers in full width. -/
theorem fitsVectorFile_of_avx512f (s : State) (d : BitVec 5) (v : Vec) (h : s.feat.avx512f = true) :
    FitsVectorFile s d v := by
  have hmaxvl : 512 ≤ s.feat.maxvl := by simp [Config.Features.maxvl, h]
  have hnvreg : s.feat.nvreg = 32 := by simp [Config.Features.nvreg, h]
  exact ⟨BitVec.toNat_lt_twoPow_of_le hmaxvl, hnvreg ▸ d.isLt⟩

/-- All that an instruction does when it gives a next state (41_vfnmsub_vex.md R170, 42_vfnmsub_evex.md R190): it OR-s flags
other than ZE into MXCSR, writes one vector register in all its bits, and moves `rip` by its length. -/
theorem exec_next (i : Instr) (s t : State) (h : exec i s = .next t) :
    ∃ (d : BitVec 5) (g : FlagSet) (v : Vec), t = writeBack (s.orFlags g) d v i.length ∧ g.getLsbD 2 = false ∧
      FitsVectorFile s d v ∧ i.length ≤ maxLength := by
  obtain ⟨kl, p, d, s2, o, hi⟩ | ⟨kl, p, k, d, s2, o, hi⟩ | ⟨p, k, d, s2, s3, rc, hi⟩ := mem_forms i
  · obtain ⟨f, hexec⟩ := exec_of_mem_vexForms hi
    obtain ⟨-, hlen, -, -, src3, -, -, ht⟩ := execVex_next f kl p d s2 o s t (hexec s ▸ h)
    have hkl : kl ≤ 8 := lanes_of_mem_vexForms hi
    have hfits := packLanes_new_lt (vexLanes f d s2 src3 s) (List.replicate kl true) false (n := s.feat.maxvl)
      (by have := maxvl_ge s.feat; simp; omega)
    have hd : (vexReg d).toNat < s.feat.nvreg := by
      have := nvreg_ge s.feat
      have := d.isLt
      simp [vexReg]
      omega
    rw [length_of_mem_vexForms _ hi]
    exact ⟨vexReg d, _, _, ht, unionFlags_flags_ze _ _, ⟨hfits, hd⟩, hlen⟩
  · obtain ⟨f, hexec⟩ := exec_of_mem_evexForms hi
    obtain ⟨-, hlen, hud, -, src3, -, -, ht⟩ := execEvex_next f kl p k d s2 o s t (hexec s ▸ h)
    rw [length_of_mem_evexForms _ hi]
    exact ⟨d, _, _, ht, unionFlags_flags_ze _ _, fitsVectorFile_of_avx512f s d _ (avx512f_of_evexUd s p k kl hud), hlen⟩
  · obtain ⟨f, hexec⟩ := exec_of_mem_erForms hi
    obtain ⟨-, hlen, hud, -, ht⟩ := execEr_next f p k d s2 s3 rc s t (hexec s ▸ h)
    rw [length_of_mem_erForms _ hi]
    refine ⟨d, 0, packLanes ((erLanes f d s2 s3 rc s).new (activeLanes s k 16) k.z), ?_, rfl, fitsVectorFile_of_avx512f s d _ (avx512f_of_evexUd s p k 16 hud), hlen⟩
    rw [State.orFlags_zero]
    exact ht

/-! ## The frame -/

/-- What the end of an instruction leaves unchanged (41_vfnmsub_vex.md R174, 42_vfnmsub_evex.md R197). -/
theorem writeBack_onlyDestination (s : State) (g : FlagSet) (d : BitVec 5) (v : Vec) (len : Nat) (hg : g.getLsbD 2 = false) :
    OnlyDestination d s (writeBack (s.orFlags g) d v len) where
  zmm r hr := by simp [writeBack, State.getZmm_setZmm_other _ _ _ _ hr]
  mxcsrControl := by
    apply BitVec.eq_of_getLsbD_eq
    intro j hj
    show (BitVec.extractLsb' 6 26 (s.orFlags g).mxcsr).getLsbD j = _
    rw [BitVec.getLsbD_extractLsb', BitVec.getLsbD_extractLsb', State.orFlags_mxcsr_bit,
      BitVec.getLsbD_of_ge g (6 + j) (by omega), Bool.or_false]
  mxcsrZe := (State.orFlags_mxcsr_bit s g 2).trans (by rw [hg, Bool.or_false])
  mxcsrSticky j hj := (State.orFlags_mxcsr_bit s g j).trans (by rw [hj, Bool.true_or])
  k := rfl
  gpr := rfl
  rflags := rfl
  cr0 := rfl
  cr4 := rfl
  xcr0 := rfl
  mode := rfl
  cs := rfl
  csBase := rfl
  fsBase := rfl
  gsBase := rfl
  other := rfl
  feat := rfl
  xlat := rfl
  memory _ := rfl

/-- Every instruction has an opcode byte, a ModRM byte and three bytes at least before them (30_encoding.md R110). -/
theorem five_le_length (i : Instr) : 5 ≤ i.length := by
  obtain ⟨_, _, p, _, _, o, hlen, -⟩ | ⟨_, _, p, _, _, _, o, hlen, -⟩ | ⟨_, p, _, _, _, _, _, hlen, -⟩ := exec_eq_template i
  · rw [hlen, vexLength]; omega
  · rw [hlen, evexLength]; omega
  · rw [hlen, evexLength]; omega

/-- Settles O54, by what an instruction does when it gives a next state. -/
theorem stepChangesOnlyDestinationFlagsRip : Obligations.StepChangesOnlyDestinationFlagsRip := by
  unfold Obligations.StepChangesOnlyDestinationFlagsRip
  intro s t h
  obtain ⟨i, hi⟩ := exec_of_step_next s t h
  obtain ⟨d, g, v, rfl, hg, -, hlen⟩ := exec_next i s t hi
  exact ⟨d, i.length, writeBack_onlyDestination s g d v i.length hg, five_le_length i, hlen, rfl⟩

/-! ## The invariant -/

/-- The end of an instruction keeps the invariant when the register written is one that the processor has. -/
theorem writeBack_inv (s : State) (g : FlagSet) (d : BitVec 5) (v : Vec) (len : Nat) (h : Inv s)
    (hfits : FitsVectorFile s d v) : Inv (writeBack (s.orFlags g) d v len) := by
  obtain ⟨hmem, hmxcsr, hvector, hopmask⟩ := h
  obtain ⟨hv, hd⟩ := hfits
  refine ⟨hmem, ?_, fun r => ?_, hopmask⟩
  · apply BitVec.eq_of_getLsbD_eq
    intro j hj
    have hbit := congrArg (fun m => BitVec.getLsbD m j) hmxcsr
    simp only [BitVec.getLsbD_extractLsb', hj, decide_true, Bool.true_and] at hbit
    show (BitVec.extractLsb' 16 16 (s.orFlags g).mxcsr).getLsbD j = _
    rw [BitVec.getLsbD_extractLsb', State.orFlags_mxcsr_bit, hbit, BitVec.getLsbD_of_ge g (16 + j) (by omega)]
    simp
  · have hread : (writeBack (s.orFlags g) d v len).getZmm r = if r = d then v else s.getZmm r :=
      State.getZmm_setZmm (s.orFlags g) d r v
    show ((writeBack (s.orFlags g) d v len).getZmm r).toNat < 2 ^ s.feat.maxvl ∧ (s.feat.nvreg ≤ r.toNat → _)
    rw [hread]
    split
    · next hr =>
      subst hr
      exact ⟨hv, fun hge => absurd hd (Nat.not_lt.2 hge)⟩
    · exact hvector r

/-- Settles O52, by what an instruction does when it gives a next state. -/
theorem stepKeepsTheInvariant : Obligations.StepKeepsTheInvariant := by
  unfold Obligations.StepKeepsTheInvariant
  intro s t hs h
  obtain ⟨i, hi⟩ := exec_of_step_next s t h
  obtain ⟨d, g, v, rfl, -, hfits, -⟩ := exec_next i s t hi
  exact writeBack_inv s g d v i.length hs hfits

/-! ## Reset -/

theorem reset_getZmm (r : BitVec 5) : State.reset.getZmm r = 0 := by
  simp [State.getZmm, State.reset]

theorem reset_getK (r : BitVec 3) : State.reset.getK r = 0 := by
  simp [State.getK, State.reset]

/-- All general registers but RDX are 0 after reset (10_state.md R38). -/
theorem reset_getGpr (r : BitVec 4) (h : r ≠ 2) : State.reset.getGpr r = 0 := by
  have all : ∀ r : BitVec 4, r ≠ 2 → State.reset.getGpr r = 0 := by decide +kernel
  exact all r h

theorem toNat_zero_lt (w n : Nat) : (0 : BitVec w).toNat < 2 ^ n := by simp

/-- Settles O53: memory lists nothing and every register of the two files is 0. -/
theorem resetMeetsTheInvariant : Obligations.ResetMeetsTheInvariant := by
  unfold Obligations.ResetMeetsTheInvariant
  refine ⟨State.reset_mem_wf, rfl, fun r => ⟨?_, fun _ => reset_getZmm r⟩, fun r => ?_⟩
  · rw [reset_getZmm]
    exact toNat_zero_lt 512 _
  · rw [reset_getK]
    exact toNat_zero_lt 64 _

/-- Settles O59: the fields of the reset state, and INIT's, which has those of reset but for the ones it leaves. -/
theorem resetHasTheStatedValues : Obligations.ResetHasTheStatedValues := by
  unfold Obligations.ResetHasTheStatedValues
  have hcpl : State.reset.cpl = 0 := by decide
  have hif : State.reset.rflags.getLsbD 9 = false := by decide
  exact ⟨reset_getZmm, reset_getK, reset_getGpr, rfl, rfl, rfl, rfl, rfl, hcpl, hif, rfl, rfl, by decide,
    fun s => ⟨rfl, rfl, rfl, reset_getK, reset_getGpr, rfl, rfl, rfl, hcpl, hif, rfl, rfl⟩⟩

/-! ## Nothing executes at reset -/

theorem modeRefused_eq_true (s : State) (h : ¬pMode s) : modeRefused s = true := by
  simpa [modeRefused, pMode] using h

theorem exec_of_modeRefused (i : Instr) (s : State) (h : ¬pMode s) : exec i s = .refused .modeOutOfScope := by
  obtain ⟨ud, go, hexec⟩ := exec_eq_guarded i s
  rw [hexec, guarded, if_pos (modeRefused_eq_true s h)]

theorem step_of_modeRefused (s : State) (h : ¬pMode s) : step s = .refused .modeOutOfScope := by
  rw [step, fetchInstr, if_pos (modeRefused_eq_true s h)]

/-- The #UD conditions are tested after mode and length and before all else (60_exceptions.md R231 step 3). -/
theorem guarded_of_ud (s : State) (len : Nat) (ud : Bool) (go : Result) (hmode : pMode s) (hlen : len ≤ maxLength)
    (hud : ud = true) : guarded s len ud go = .fault (.invalidOpcode s) := by
  simp [guarded, modeRefused_eq_false s hmode, Nat.not_lt.2 hlen, hud, raise]

/-- CR4.OSXSAVE = 0 is a #UD condition of every form (60_exceptions.md R224, R225). -/
theorem exec_of_not_osxsave (i : Instr) (s : State) (hmode : pMode s) (hlen : i.length ≤ maxLength)
    (hos : crOsxsave s = false) : exec i s = .fault (.invalidOpcode s) := by
  obtain ⟨f, kl, p, d, s2, o, hl, hexec⟩ | ⟨f, kl, p, k, d, s2, o, hl, hexec⟩ |
    ⟨f, p, k, d, s2, s3, rc, hl, hexec⟩ := exec_eq_template i
  · rw [hexec]
    exact guarded_of_ud s _ _ _ hmode (hl ▸ hlen) (by simp [vexUd, hos])
  · rw [hexec]
    exact guarded_of_ud s _ _ _ hmode (hl ▸ hlen) (by simp [evexUd, hos])
  · rw [hexec]
    exact guarded_of_ud s _ _ _ hmode (hl ▸ hlen) (by simp [evexUd, hos])

/-- Settles O60, by the mode of the reset state and, in 64-bit mode, by its CR4. -/
theorem nothingExecutesAtReset : Obligations.NothingExecutesAtReset := by
  unfold Obligations.NothingExecutesAtReset
  have hmode : ∀ m : Memory, ¬pMode (State.reset.setMem m) := fun m h => by cases h
  exact ⟨fun i => exec_of_modeRefused i _ (hmode []), fun m => step_of_modeRefused _ (hmode m),
    fun i hlen => exec_of_not_osxsave i _ rfl hlen (by decide), by decide, by decide⟩

end Sys2Proof.Machine
end

section
/-! SUPPORT. Operand 3 in memory: which byte ends its read, and what is read when every byte comes. -/

namespace Sys2Proof.Machine

open Sys2Proof.Safety

/-! ## Little-endian data -/

/-- Byte `i` of a datum is the one read at offset `i` (20_memory.md R53). -/
theorem extractLsb'_leWord (bs : List Byte) (hbs : bs.length = 4) (i : Nat) (hi : i < 4) :
    (leWord 32 bs).extractLsb' (8 * i) 8 = bs.getD i 0 := by
  match bs, hbs with
  | [b0, b1, b2, b3], _ =>
    have h0 := b0.isLt
    have h1 := b1.isLt
    have h2 := b2.isLt
    have h3 := b3.isLt
    apply BitVec.eq_of_toNat_eq
    simp only [leWord, leNat, BitVec.extractLsb'_toNat, BitVec.toNat_ofNat, Nat.shiftRight_eq_div_pow]
    interval_cases i <;> simp <;> omega

/-! ## Which byte ends the read -/

/-- The byte at `a` ends the read of the addresses `as` with `r`: it does not come, and every one at a lower address does. -/
def EndsRead (s : State) (seg : Segment) (as : List Addr) (a : Addr) (r : Stop) : Prop :=
  a ∈ as ∧ accessByte s .read seg a = .error r ∧ ∀ b ∈ as, b < a → ∃ v, accessByte s .read seg b = .ok v

/-- Of two bytes that end the read neither has the lower address. -/
theorem EndsRead.unique {s : State} {seg : Segment} {as : List Addr} {a b : Addr} {r q : Stop}
    (ha : EndsRead s seg as a r) (hb : EndsRead s seg as b q) : a = b ∧ r = q := by
  obtain ⟨ham, har, hlowa⟩ := ha
  obtain ⟨hbm, hbq, hlowb⟩ := hb
  have hab : ¬a < b := fun h => by
    obtain ⟨v, hv⟩ := hlowb a ham h
    rw [har] at hv
    cases hv
  have hba : ¬b < a := fun h => by
    obtain ⟨v, hv⟩ := hlowa b hbm h
    rw [hbq] at hv
    cases hv
  obtain rfl : a = b := BitVec.le_antisymm (BitVec.not_lt.1 hba) (BitVec.not_lt.1 hab)
  exact ⟨rfl, Except.error.inj (har.symm.trans hbq)⟩

/-- `lowestStop` finds the byte that ends the read. -/
theorem lowestStop_eq_some_iff (s : State) (seg : Segment) (as : List Addr) (a : Addr) (r : Stop) :
    lowestStop s seg as = some (a, r) ↔ EndsRead s seg as a r := by
  refine ⟨lowestStop_some s seg as a r, fun h => ?_⟩
  cases hs : lowestStop s seg as with
  | none =>
    obtain ⟨v, hv⟩ := (lowestStop_none s seg as).1 hs a h.1
    rw [h.2.1] at hv
    cases hv
  | some x =>
    obtain ⟨b, q⟩ := x
    obtain ⟨rfl, rfl⟩ := h.unique (lowestStop_some s seg as b q hs)
    rfl

/-! ## The lanes of a full vector -/

/-- Every byte of an active lane comes. -/
def LanesCome (s : State) (seg : Segment) (act : List Bool) (a : Addr) : Prop :=
  ∀ j < act.length, act.getD j false = true → ∀ i < 4, ∃ b, accessByte s .read seg (a + BitVec.ofNat 64 (4 * j + i)) = .ok b

theorem add_ofNat_add (a : Addr) (m n : Nat) : a + BitVec.ofNat 64 (m + n) = a + BitVec.ofNat 64 m + BitVec.ofNat 64 n := by
  rw [BitVec.ofNat_add, BitVec.add_assoc]

/-- The bytes read of a full vector all come exactly when those of the active lanes do. -/
theorem lowestStop_bytesRead_none (s : State) (seg : Segment) (act : List Bool) (a : Addr) :
    lowestStop s seg (bytesRead act a) = none ↔ LanesCome s seg act a := by
  rw [lowestStop_none]
  constructor
  · intro h j hj hon i hi
    have hdiv : (4 * j + i) / 4 = j := by omega
    exact h _ ((mem_bytesRead act a _).2 ⟨4 * j + i, by omega, by rw [hdiv, hon]; rfl, rfl⟩)
  · intro h b hb
    obtain ⟨i, hi, hon, rfl⟩ := (mem_bytesRead act a b).1 hb
    have := h (i / 4) (by omega) (by simpa [faultSuppression] using hon) (i % 4) (by omega)
    rwa [Nat.div_add_mod] at this

/-- Four bytes that come are a datum of memory (20_memory.md R53, R54). -/
theorem memRead_datum (s : State) (seg : Segment) (a : Addr)
    (h : ∀ i < 4, ∃ b, accessByte s .read seg (a + BitVec.ofNat 64 i) = .ok b) :
    ∃ bs, memRead s seg 4 a = .ok bs ∧
      ∀ i < 4, (leWord 32 bs).extractLsb' (8 * i) 8 = s.mem.read (a + BitVec.ofNat 64 i).toNat := by
  cases hread : memRead s seg 4 a with
  | error q =>
    obtain ⟨i, hi, hq, -⟩ := memRead_error s seg 4 a q hread
    obtain ⟨b, hb⟩ := h i hi
    rw [hq] at hb
    cases hb
  | ok bs =>
    obtain ⟨hlen, hall⟩ := (memRead_ok_iff s seg 4 a bs).1 hread
    refine ⟨bs, rfl, fun i hi => ?_⟩
    rw [extractLsb'_leWord bs hlen i hi]
    exact ((accessByte_ok_iff _ _ _ _ _).1 (hall i hi)).2.2

/-- When the bytes of the active lanes come, each of these lanes is the datum at its place. -/
theorem readLanes_ok (s : State) (seg : Segment) (act : List Bool) (a : Addr) (h : LanesCome s seg act a) :
    ∃ ls, readLanes s seg act a = .ok ls ∧ ls.length = act.length ∧
      ∀ j < act.length, act.getD j false = true → ∀ i < 4,
        (ls.getD j 0).extractLsb' (8 * i) 8 = s.mem.read (a + BitVec.ofNat 64 (4 * j + i)).toNat := by
  induction act generalizing a with
  | nil => exact ⟨[], rfl, rfl, fun j hj => absurd hj (Nat.not_lt_zero j)⟩
  | cons on act ih =>
    have hplace : ∀ j i, a + BitVec.ofNat 64 (4 * (j + 1) + i) = a + 4 + BitVec.ofNat 64 (4 * j + i) := fun j i => by
      rw [show 4 * (j + 1) + i = 4 + (4 * j + i) by omega, add_ofNat_add]
      rfl
    obtain ⟨ls, hls, hlen, hall⟩ := ih (a + 4) fun j hj hon i hi => by
      rw [← hplace]
      exact h (j + 1) (Nat.succ_lt_succ hj) hon i hi
    cases on with
    | false =>
      refine ⟨0 :: ls, by rw [readLanes, hls]; rfl, by simp [hlen], fun j hj hon i hi => ?_⟩
      cases j with
      | zero => cases hon
      | succ j =>
        rw [hplace]
        exact hall j (Nat.lt_of_succ_lt_succ hj) hon i hi
    | true =>
      obtain ⟨bs, hbs, hbytes⟩ := memRead_datum s seg a fun i hi => by
        simpa using h 0 (Nat.succ_pos _) rfl i hi
      refine ⟨leWord 32 bs :: ls, by rw [readLanes, hbs, hls]; rfl, by simp [hlen], fun j hj hon i hi => ?_⟩
      cases j with
      | zero => simpa using hbytes i hi
      | succ j =>
        rw [hplace]
        exact hall j (Nat.lt_of_succ_lt_succ hj) hon i hi

/-! ## A full vector -/

/-- With alignment checking off, or an aligned address, no read is refused for its alignment (20_memory.md R55, R56). -/
theorem misaligned_eq_false (s : State) (size : Nat) (a : Addr) (h : alignmentChecking s = false ∨ a.toNat % size = 0) :
    misaligned s size a = false := by
  obtain h | h := h <;> simp [misaligned, h]

theorem misaligned_eq_true (s : State) (size : Nat) (a : Addr) (hac : alignmentChecking s = true)
    (h : a.toNat % size ≠ 0) : misaligned s size a = true := by
  simp [misaligned, hac, h]

theorem anyRead_eq_true_iff (act : List Bool) : anyRead act = true ↔ ∃ j < act.length, act.getD j false = true := by
  have hany : anyRead act = act.any id := by simp [anyRead, faultSuppression]
  rw [hany, List.any_eq_true]
  constructor
  · rintro ⟨b, hb, rfl⟩
    obtain ⟨j, hj, e⟩ := List.getElem_of_mem hb
    exact ⟨j, hj, by rw [List.getD_eq_getElem _ _ hj]; exact e⟩
  · rintro ⟨j, hj, e⟩
    rw [List.getD_eq_getElem _ _ hj] at e
    exact ⟨_, List.getElem_mem hj, e⟩

section Full
variable {s : State} {seg : Segment} {act : List Bool} {a : Addr}

/-- An aligned vector whose active lanes' bytes come is read (20_memory.md R58, R59). -/
theorem readFull_ok (hal : (anyRead act && misaligned s (4 * act.length) a) = false) (h : LanesCome s seg act a) :
    ∃ ls, readFull s seg act a = .ok ls ∧ ls.length = act.length ∧
      ∀ j < act.length, act.getD j false = true → ∀ i < 4,
        (ls.getD j 0).extractLsb' (8 * i) 8 = s.mem.read (a + BitVec.ofNat 64 (4 * j + i)).toNat := by
  obtain ⟨ls, hls, hspec⟩ := readLanes_ok s seg act a h
  refine ⟨ls, ?_, hspec⟩
  simp only [readFull, hal, Bool.false_eq_true, if_false, (lowestStop_bytesRead_none s seg act a).2 h, hls]

/-- The read of an aligned vector ends as the byte says that ends it (42_vfnmsub_evex.md R195). -/
theorem readFull_error_iff (hal : (anyRead act && misaligned s (4 * act.length) a) = false) (r : Stop) :
    readFull s seg act a = .error r ↔ ∃ b, EndsRead s seg (bytesRead act a) b r := by
  cases hs : lowestStop s seg (bytesRead act a) with
  | none =>
    obtain ⟨ls, hls, -⟩ := readFull_ok hal ((lowestStop_bytesRead_none s seg act a).1 hs)
    simp only [hls, ← lowestStop_eq_some_iff, hs, reduceCtorEq, exists_false]
  | some x =>
    obtain ⟨b, q⟩ := x
    have hread : readFull s seg act a = .error q := by
      simp only [readFull, hal, Bool.false_eq_true, if_false, hs]
    rw [hread]
    simp only [← lowestStop_eq_some_iff, hs, Except.error.injEq, Option.some.injEq, Prod.mk.injEq, exists_eq_left']

/-- A misaligned vector of which some byte is read is refused (20_memory.md R56; log 14). -/
theorem readFull_misaligned (hal : (anyRead act && misaligned s (4 * act.length) a) = true) :
    readFull s seg act a = .error (.refuse .alignmentCheckOpen) := by
  simp only [readFull, hal, if_true]

/-! ## A broadcast datum -/

/-- No byte of a broadcast datum is read when no lane is active (20_memory.md R59). -/
theorem readBroadcast_inactive (hany : anyRead act = false) :
    readBroadcast s seg act a = .ok (List.replicate act.length 0) := by
  simp only [readBroadcast, hany, Bool.false_eq_true, if_false]

/-- An aligned datum whose bytes come stands in every lane (42_vfnmsub_evex.md R193). -/
theorem readBroadcast_ok (hany : anyRead act = true) (hal : misaligned s 4 a = false) (h : LanesCome s seg [true] a) :
    ∃ v : F32, (∀ i < 4, v.extractLsb' (8 * i) 8 = s.mem.read (a + BitVec.ofNat 64 i).toNat) ∧
      readBroadcast s seg act a = .ok (List.replicate act.length v) := by
  obtain ⟨bs, hbs, hbytes⟩ := memRead_datum s seg a fun i hi => by simpa using h 0 Nat.one_pos rfl i hi
  refine ⟨leWord 32 bs, hbytes, ?_⟩
  simp only [readBroadcast, hany, hal, Bool.false_eq_true, if_true, if_false, (lowestStop_bytesRead_none s seg [true] a).2 h,
    hbs]

/-- The read of an aligned broadcast datum ends as the byte says that ends it (60_exceptions.md R231 step 5). -/
theorem readBroadcast_error_iff (hal : misaligned s 4 a = false) (r : Stop) :
    readBroadcast s seg act a = .error r ↔ anyRead act = true ∧ ∃ b, EndsRead s seg (bytesRead [true] a) b r := by
  cases hany : anyRead act with
  | false => simp only [readBroadcast_inactive hany, reduceCtorEq, Bool.false_eq_true, false_and]
  | true =>
    cases hs : lowestStop s seg (bytesRead [true] a) with
    | none =>
      obtain ⟨v, -, hread⟩ := readBroadcast_ok hany hal ((lowestStop_bytesRead_none s seg [true] a).1 hs)
      simp only [hread, ← lowestStop_eq_some_iff, hs, reduceCtorEq, exists_false, and_false]
    | some x =>
      obtain ⟨b, q⟩ := x
      have hread : readBroadcast s seg act a = .error q := by
        simp only [readBroadcast, hany, hal, Bool.false_eq_true, if_true, if_false, hs]
      rw [hread]
      simp only [← lowestStop_eq_some_iff, hs, Except.error.injEq, Option.some.injEq, Prod.mk.injEq, exists_eq_left',
        true_and]

/-- A misaligned broadcast datum that is read is refused (20_memory.md R56; log 14). -/
theorem readBroadcast_misaligned (hany : anyRead act = true) (hal : misaligned s 4 a = true) :
    readBroadcast s seg act a = .error (.refuse .alignmentCheckOpen) := by
  simp only [readBroadcast, hany, hal, if_true]

/-! ## Every failure of a read -/

theorem stopOutcome_of_refuse (s : State) (why : Refusal) : stopOutcome (.refuse why) s ((Stop.refuse why).result s) :=
  .inr (.inr (.inr ⟨why, rfl, rfl⟩))

/-- The read of a vector that fails says what `stopOutcome` lists. -/
theorem readFull_stopOutcome {r : Stop} (h : readFull s seg act a = .error r) : stopOutcome r s (r.result s) := by
  cases hal : anyRead act && misaligned s (4 * act.length) a with
  | false =>
    obtain ⟨b, -, hb, -⟩ := (readFull_error_iff hal r).1 h
    exact stopOutcome_of_accessByte s .read seg b r hb
  | true =>
    obtain rfl := Except.error.inj ((readFull_misaligned hal).symm.trans h)
    exact stopOutcome_of_refuse s _

/-- So does the read of a broadcast datum that fails. -/
theorem readBroadcast_stopOutcome {r : Stop} (h : readBroadcast s seg act a = .error r) : stopOutcome r s (r.result s) := by
  cases hal : misaligned s 4 a with
  | false =>
    obtain ⟨-, b, -, hb, -⟩ := (readBroadcast_error_iff hal r).1 h
    exact stopOutcome_of_accessByte s .read seg b r hb
  | true =>
    cases hany : anyRead act with
    | false =>
      rw [readBroadcast_inactive hany] at h
      cases h
    | true =>
      obtain rfl := Except.error.inj ((readBroadcast_misaligned hany hal).symm.trans h)
      exact stopOutcome_of_refuse s _

end Full

theorem readVexOp3_stopOutcome {s : State} {p : List LegacyPrefix} {kl : Nat} {o : VexOp3} {r : Stop}
    (h : readVexOp3 s p kl o = .error r) : stopOutcome r s (r.result s) := by
  cases o with
  | reg n => cases h
  | mem m => exact readFull_stopOutcome h

theorem readEvexOp3_stopOutcome {s : State} {p : List LegacyPrefix} {act : List Bool} {o : EvexOp3} {r : Stop}
    (h : readEvexOp3 s p act o = .error r) : stopOutcome r s (r.result s) := by
  cases o with
  | reg n => cases h
  | mem m => exact readFull_stopOutcome h
  | bcst m => exact readBroadcast_stopOutcome h

end Sys2Proof.Machine
end

section
/-! Operand 3 and its address, what ends a read, and what an exception records: the statements O39, O40, O43 to O49
and O51. -/

namespace Sys2Proof.Machine

open Sys2Proof.Safety

/-! ## Operand 3 -/

theorem readVexOp3_reg (s : State) (p : List LegacyPrefix) (kl : Nat) (n : BitVec 4) :
    readVexOp3 s p kl (.reg n) = .ok (registerLanes s (vexReg n) kl) := rfl

theorem registerLanes_length (s : State) (r : BitVec 5) (kl : Nat) : (registerLanes s r kl).length = kl := by
  simp [registerLanes]

/-- Lane `j` of a register operand is lane `j` of the register (30_encoding.md R92, R93). -/
theorem registerLanes_getD (s : State) (r : BitVec 5) {kl j : Nat} (hj : j < kl) :
    (registerLanes s r kl).getD j 0 = lane (s.getZmm r) j := by
  simp [registerLanes, List.getD_eq_getElem?_getD, hj]

theorem activeLanes_getD_eq_active (s : State) (k : Masking) {kl j : Nat} (hj : j < kl) :
    (activeLanes s k kl).getD j false = active s k j := activeLanes_getD s k kl j hj

theorem replicate_getD {kl j : Nat} (hj : j < kl) : (List.replicate kl true).getD j false = true := by
  simp [List.getD_eq_getElem?_getD, hj]

/-- A byte that is accessible comes. -/
theorem accessByte_of_accessible {s : State} {kind : Config.AccessKind} (seg : Segment) {a : Addr}
    (h : accessible s kind a) : ∃ b, accessByte s kind seg a = .ok b :=
  ⟨_, (accessByte_ok_iff s kind seg a _).2 ⟨h.1, h.2, rfl⟩⟩

/-- Settles O44, by the lanes of a register and the read of a full vector all of whose bytes come. -/
theorem vexOperand3IsRead : Obligations.VexOperand3IsRead := by
  unfold Obligations.VexOperand3IsRead
  constructor
  · intro s p n kl
    refine ⟨_, readVexOp3_reg s p kl n, registerLanes_length s _ kl, fun j hj => ?_⟩
    rw [registerLanes_getD s _ hj, vexReg, BitVec.ofNat_toNat]
  · intro s p m kl _ a hal hcome
    obtain ⟨ls, hread, hlen, hbytes⟩ := readFull_ok (s := s) (seg := operandSegment p m) (act := List.replicate kl true) (a := a)
      (by rw [List.length_replicate, misaligned_eq_false s _ a hal, Bool.and_false])
      fun j hj _ i hi => accessByte_of_accessible _ (hcome _ (by rw [List.length_replicate] at hj; omega))
    rw [List.length_replicate] at hlen hbytes
    exact ⟨ls, hread, hlen, fun j hj => hbytes j hj (replicate_getD hj)⟩

/-- Settles O45, by the lanes of a register and the read of a full vector whose active lanes' bytes come. -/
theorem evexOperand3IsRead : Obligations.EvexOperand3IsRead := by
  unfold Obligations.EvexOperand3IsRead
  constructor
  · intro s p k n kl
    refine ⟨registerLanes s n kl, ?_, registerLanes_length s n kl, fun j hj => registerLanes_getD s n hj⟩
    rw [readEvexOp3, activeLanes_length]
  · intro s p k m kl _ a hal hcome
    obtain ⟨ls, hread, hlen, hbytes⟩ := readFull_ok (s := s) (seg := operandSegment p m) (act := activeLanes s k kl) (a := a)
      (by rw [activeLanes_length, misaligned_eq_false s _ a hal, Bool.and_false])
      fun j hj hon i hi => by
        rw [activeLanes_length] at hj
        exact accessByte_of_accessible _ (hcome j hj (activeLanes_getD_eq_active s k hj ▸ hon) i hi)
    rw [activeLanes_length] at hlen hbytes
    refine ⟨ls, ?_, hlen, fun j hj hon => hbytes j hj (activeLanes_getD_eq_active s k hj ▸ hon)⟩
    rw [readEvexOp3, activeLanes_length]
    exact hread

/-- Some lane is read exactly when some lane is active. -/
theorem anyRead_activeLanes (s : State) (k : Masking) (kl : Nat) :
    anyRead (activeLanes s k kl) = true ↔ ∃ j < kl, active s k j = true := by
  rw [anyRead_eq_true_iff, activeLanes_length]
  exact exists_congr fun j => and_congr_right fun hj => by rw [activeLanes_getD_eq_active s k hj]

/-- Settles O46, by the read of a broadcast datum with and without an active lane. -/
theorem broadcastIsOneDatumInEveryLane : Obligations.BroadcastIsOneDatumInEveryLane := by
  unfold Obligations.BroadcastIsOneDatumInEveryLane
  intro s p k m kl _ a
  refine ⟨fun hactive hal hcome => ?_, fun hinactive => ?_⟩
  · obtain ⟨v, hv, hread⟩ := readBroadcast_ok (seg := operandSegment p m) ((anyRead_activeLanes s k kl).2 hactive)
      (misaligned_eq_false s 4 a hal) fun j hj _ i hi => accessByte_of_accessible _ (by
        obtain rfl : j = 0 := Nat.lt_one_iff.1 hj
        simpa using hcome i hi)
    rw [activeLanes_length] at hread
    exact ⟨v, hv, hread⟩
  · have hany : anyRead (activeLanes s k kl) = false := Bool.eq_false_iff.2 fun h => by
      obtain ⟨j, hj, hon⟩ := (anyRead_activeLanes s k kl).1 h
      rw [hinactive j hj] at hon
      cases hon
    exact ⟨_, readBroadcast_inactive hany⟩

/-! ## What ends a read -/

/-- The byte that ends a read, by its offset in the operand. -/
theorem exists_endsRead_iff (s : State) (seg : Segment) (act : List Bool) (a : Addr) (r : Stop) (kl : Nat) (on : Nat → Bool)
    (hlen : act.length = kl) (hon : ∀ j < kl, act.getD j false = on j) :
    (∃ b, EndsRead s seg (bytesRead act a) b r) ↔
      ∃ i < 4 * kl, on (i / 4) = true ∧ accessByte s .read seg (a + BitVec.ofNat 64 i) = .error r ∧
        ∀ j < 4 * kl, on (j / 4) = true → a + BitVec.ofNat 64 j < a + BitVec.ofNat 64 i →
          ∃ b, accessByte s .read seg (a + BitVec.ofNat 64 j) = .ok b := by
  have hmem : ∀ b, b ∈ bytesRead act a ↔ ∃ i < 4 * kl, on (i / 4) = true ∧ a + BitVec.ofNat 64 i = b := fun b => by
    rw [mem_bytesRead, hlen]
    refine exists_congr fun i => and_congr_right fun hi => ?_
    rw [hon (i / 4) (by omega), faultSuppression, Bool.not_true, Bool.or_false]
  constructor
  · rintro ⟨b, hb, hr, hlow⟩
    obtain ⟨i, hi, hact, rfl⟩ := (hmem b).1 hb
    exact ⟨i, hi, hact, hr, fun j hj hact' => hlow _ ((hmem _).2 ⟨j, hj, hact', rfl⟩)⟩
  · rintro ⟨i, hi, hact, hr, hlow⟩
    refine ⟨_, (hmem _).2 ⟨i, hi, hact, rfl⟩, hr, fun b hb hlt => ?_⟩
    obtain ⟨j, hj, hact', rfl⟩ := (hmem b).1 hb
    exact hlow j hj hact' hlt

/-- Settles O47, by the byte that ends a read and its offset, for each of the three kinds of operand. -/
theorem lowestFaultingByteDecides : Obligations.LowestFaultingByteDecides := by
  unfold Obligations.LowestFaultingByteDecides
  intro s p k m kl r av ae ab addr byte
  refine ⟨fun hal => ?vex, fun hal => ?evex, fun hal => ?broadcast⟩
  case vex =>
    have hal' : (anyRead (List.replicate kl true) && misaligned s (4 * (List.replicate kl true).length) av) = false := by
      rw [List.length_replicate, misaligned_eq_false s _ av hal, Bool.and_false]
    refine (readFull_error_iff (seg := operandSegment p m) hal' r).trans ?_
    simpa using exists_endsRead_iff s (operandSegment p m) (List.replicate kl true) av r kl (fun _ => true)
      List.length_replicate fun j hj => replicate_getD hj
  case evex =>
    have hal' : (anyRead (activeLanes s k kl) && misaligned s (4 * (activeLanes s k kl).length) ae) = false := by
      rw [activeLanes_length, misaligned_eq_false s _ ae hal, Bool.and_false]
    have hread := readFull_error_iff (seg := operandSegment p m) hal' r
    rw [readEvexOp3, activeLanes_length]
    exact hread.trans (exists_endsRead_iff s (operandSegment p m) (activeLanes s k kl) ae r kl (active s k)
      (activeLanes_length s k kl) fun j hj => activeLanes_getD_eq_active s k hj)
  case broadcast =>
    refine (readBroadcast_error_iff (seg := operandSegment p m) (misaligned_eq_false s 4 ab hal) r).trans ?_
    rw [anyRead_activeLanes]
    refine and_congr_right fun _ => ?_
    simpa using exists_endsRead_iff s (operandSegment p m) [true] ab r 1 (fun _ => true) rfl fun j hj => by
      obtain rfl : j = 0 := Nat.lt_one_iff.1 hj
      rfl

/-! ## Refusals -/

/-- Settles O48: the mode by the checks, a byte with side effects by its access, alignment by the read. -/
theorem outsideTheSpecIsRefusedByName : Obligations.OutsideTheSpecIsRefusedByName := by
  unfold Obligations.OutsideTheSpecIsRefusedByName
  refine ⟨fun s h => ⟨step_of_modeRefused s h, fun i => exec_of_modeRefused i s h⟩,
    fun s kind r a hc h => accessByte_sideEffects s kind r a hc h, ?alignment⟩
  case alignment =>
    intro s p k m kl hac
    refine ⟨fun hkl hal => ?_, fun hactive => ⟨fun hal => ?_, fun hal => ?_⟩⟩
    · have hany : anyRead (List.replicate kl true) = true :=
        (anyRead_eq_true_iff _).2 ⟨0, by simpa using hkl, replicate_getD hkl⟩
      exact readFull_misaligned (by rw [hany, List.length_replicate, misaligned_eq_true s _ _ hac hal, Bool.and_self])
    · have hany := (anyRead_activeLanes s k kl).2 hactive
      rw [readEvexOp3, activeLanes_length]
      exact readFull_misaligned (by rw [hany, activeLanes_length, misaligned_eq_true s _ _ hac hal, Bool.and_self])
    · exact readBroadcast_misaligned ((anyRead_activeLanes s k kl).2 hactive) (misaligned_eq_true s _ _ hac hal)

/-! ## The effective address -/

theorem addressSize32_eq_true_iff (p : List LegacyPrefix) : addressSize32 p = true ↔ LegacyPrefix.addr32 ∈ p := by
  simp [addressSize32]

/-- The scaled index is the index times a power of two (30_encoding.md R100). -/
theorem indexValue_some (s : State) (i : Index) :
    indexValue 64 s (some i) = s.getGpr i.reg * BitVec.ofNat 64 (2 ^ i.scale.toNat) := by
  rw [indexValue, BitVec.setWidth_eq, BitVec.shiftLeft_eq_mul_twoPow]
  congr 1
  apply BitVec.eq_of_toNat_eq
  simp

/-- The scaled index in 32-bit arithmetic is the low half of that in 64-bit arithmetic (30_encoding.md R106). -/
theorem setWidth_indexValue (s : State) (i : Option Index) : (indexValue 64 s i).setWidth 32 = indexValue 32 s i := by
  cases i with
  | none => rfl
  | some i =>
    simp only [indexValue, BitVec.setWidth_eq]
    rw [BitVec.shiftLeft_eq_mul_twoPow, BitVec.shiftLeft_eq_mul_twoPow, BitVec.setWidth_mul _ _ (by omega)]
    congr 1
    apply BitVec.eq_of_toNat_eq
    have hscale : i.scale.toNat < 4 := i.scale.isLt
    simp only [BitVec.toNat_setWidth, BitVec.toNat_twoPow]
    interval_cases i.scale.toNat <;> rfl

/-- The effective address under 67H is the low half of the other (30_encoding.md R106). -/
theorem setWidth_addressSum (s : State) (len n : Nat) (m : MemForm) :
    (addressSum 64 s len n m).setWidth 32 = addressSum 32 s len n m := by
  cases m with
  | ripRel v => simp only [addressSum, BitVec.setWidth_add _ _ (show 32 ≤ 64 by omega), BitVec.setWidth_eq]
  | base b d => simp only [addressSum, BitVec.setWidth_add _ _ (show 32 ≤ 64 by omega), BitVec.setWidth_eq]
  | sib b i d =>
    simp only [addressSum, BitVec.setWidth_add _ _ (show 32 ≤ 64 by omega), BitVec.setWidth_eq, setWidth_indexValue]
  | sibNoBase i v =>
    simp only [addressSum, BitVec.setWidth_add _ _ (show 32 ≤ 64 by omega), BitVec.setWidth_eq, setWidth_indexValue]

/-- Settles O49: the sum of each memory form in 64-bit arithmetic, and the low half of it under 67H. -/
theorem effectiveAddressIsTheSum : Obligations.EffectiveAddressIsTheSum := by
  unfold Obligations.EffectiveAddressIsTheSum
  intro s p p' len n m hp hp'
  have h64 : effectiveAddress s p' len n m = addressSum 64 s len n m :=
    if_neg (mt (addressSize32_eq_true_iff p').1 hp')
  have h32 : effectiveAddress s p len n m = (addressSum 32 s len n m).setWidth 64 :=
    if_pos ((addressSize32_eq_true_iff p).2 hp)
  have hnone : indexValue 64 s none = 0#64 := rfl
  dsimp only
  rw [h32, h64, setWidth_addressSum]
  refine ⟨?_, rfl⟩
  cases m with
  | ripRel v => simp only [addressSum, BitVec.setWidth_eq]
  | base b d =>
    simp only [addressSum, BitVec.setWidth_eq]
    rfl
  | sib b i d =>
    cases i with
    | none =>
      simp only [addressSum, BitVec.setWidth_eq, hnone, BitVec.add_zero]
      rfl
    | some x =>
      simp only [addressSum, BitVec.setWidth_eq, indexValue_some]
      rfl
  | sibNoBase i v =>
    cases i with
    | none => simp only [addressSum, BitVec.setWidth_eq, hnone, BitVec.zero_add]
    | some x => simp only [addressSum, BitVec.setWidth_eq, indexValue_some]

/-! ## Exceptions -/

/-- The page-fault error code from its lowest bit on (60_exceptions.md R228). -/
theorem getLsbD_pageFaultCode (c : Config.PageFaultCause) (kind : Config.AccessKind) (cpl : BitVec 2) (i : Nat) :
    (pageFaultCode c kind cpl).getLsbD i =
      [c.protection, false, decide (cpl = 3), c.reservedBit, decide (kind = .fetch), c.protectionKey, false, false, false,
        false, false, false, false, false, false, c.sgx].getD i false := by
  have low : ∀ (p u r f k x : Bool), ∀ i < 16,
      (BitVec.ofBool x ++ 0#9 ++ BitVec.ofBool k ++ BitVec.ofBool f ++ BitVec.ofBool r ++ BitVec.ofBool u ++ 0#1 ++
        BitVec.ofBool p : BitVec 16).getLsbD i =
      [p, false, u, r, f, k, false, false, false, false, false, false, false, false, false, x].getD i false := by
    decide +kernel
  rw [pageFaultCode, BitVec.getLsbD_setWidth]
  by_cases hi : i < 16
  · rw [low _ _ _ _ _ _ i hi, decide_eq_true (by omega), Bool.true_and]
  · rw [BitVec.getLsbD_of_ge _ i (by omega), List.getD_eq_default _ _ (by simpa using hi), Bool.and_false]

/-- Settles O51: each fault's record, the code bit by bit, and the access of a byte that does not come. -/
theorem exceptionsRecordTheirCause : Obligations.ExceptionsRecordTheirCause := by
  unfold Obligations.ExceptionsRecordTheirCause
  refine ⟨fun s code a => ?records, fun c kind cpl i => ?code,
    fun s r a => ⟨fun kind c hc h => accessByte_pageFault s kind r a c hc h, fun hc => accessByte_not_canonical s .fetch r a hc⟩⟩
  case records =>
    simp [Fault.vector, Fault.errorCode, Fault.faultAddress, Fault.state]
  case code =>
    rw [getLsbD_pageFaultCode]
    by_cases hi : i < 16
    · interval_cases i <;> rfl
    · obtain ⟨n, rfl⟩ := Nat.exists_eq_add_of_le' (Nat.not_lt.1 hi)
      rfl

/-! ## An operand that cannot be read -/

/-- The premises pass every check before the operand of a VEX form. -/
theorem vexUd_of_vexEnabled {s : State} {p : List LegacyPrefix} (h : vexEnabled s) (hp : prefixesAllowed p = true) :
    modeRefused s = false ∧ vexUd s p = false ∧ crTs s = false := by
  obtain ⟨hmode, hfma, hos, hts⟩ := h
  exact ⟨modeRefused_eq_false s hmode, vexUd_eq_false s p hmode hfma hos hp, hts⟩

/-- The premises pass every check before the operand of an EVEX form. -/
theorem evexUd_of_evexEnabled {s : State} {p : List LegacyPrefix} {k : Masking} {kl : Nat} (h : evexEnabled s kl)
    (hp : prefixesAllowed p = true) (hk : k.legal = true) :
    modeRefused s = false ∧ evexUd s p k kl = false ∧ crTs s = false := by
  obtain ⟨hmode, hcpuid, hos, hts⟩ := h
  exact ⟨modeRefused_eq_false s hmode, evexUd_eq_false s p k kl hmode hcpuid hos hp hk, hts⟩

theorem execVex_of_read_error {f : Form} {kl : Nat} {p : List LegacyPrefix} {d s2 : BitVec 4} {o : VexOp3} {s : State}
    {r : Stop} (h : vexEnabled s) (hp : prefixesAllowed p = true) (hlen : vexLength p o ≤ 15)
    (hr : readVexOp3 s p kl o = .error r) : execVex f kl p d s2 o s = r.result s := by
  obtain ⟨h1, h3, h4⟩ := vexUd_of_vexEnabled h hp
  rw [execVex, guarded_pass _ _ _ _ h1 hlen h3 h4, hr]

theorem execEvex_of_read_error {f : Form} {kl : Nat} {p : List LegacyPrefix} {k : Masking} {d s2 : BitVec 5} {o : EvexOp3}
    {s : State} {r : Stop} (h : evexEnabled s kl) (hp : prefixesAllowed p = true) (hk : k.legal = true)
    (hlen : evexLength p o ≤ 15) (hr : readEvexOp3 s p (activeLanes s k kl) o = .error r) :
    execEvex f kl p k d s2 o s = r.result s := by
  obtain ⟨h1, h3, h4⟩ := evexUd_of_evexEnabled h hp hk
  rw [execEvex, guarded_pass _ _ _ _ h1 hlen h3 h4, hr]

/-- Settles O43: an enabled instruction goes on to its operand, whose read says how it ends. -/
theorem operandFaultLeavesTheState : Obligations.OperandFaultLeavesTheState := by
  unfold Obligations.OperandFaultLeavesTheState
  intro s p k e e2 d s2 o o' r hp
  refine ⟨fun q hq hen hlen hr => ?vex, fun q hq hen hk hlen hr => ?evex⟩
  case vex =>
    obtain ⟨f, hexec⟩ := exec_of_mem_vexForms hq
    rw [hexec, execVex_of_read_error hen hp hlen hr]
    exact readVexOp3_stopOutcome hr
  case evex =>
    obtain ⟨f, hexec⟩ := exec_of_mem_evexForms hq
    rw [hexec, execEvex_of_read_error hen hp hk hlen hr]
    exact readEvexOp3_stopOutcome hr

/-! ## The #UD conditions -/

theorem xcrAvx_eq_false {s : State} (h : s.xcr0.extractLsb' 1 2 ≠ 3) : xcrAvx s = false := decide_eq_false h

theorem xcrAvx512_eq_false {s : State} (h : s.xcr0.extractLsb' 5 3 ≠ 7) : xcrAvx512 s = false := decide_eq_false h

theorem legal_eq_false {k : Masking} (h : k.z = true ∧ k.aaa = 0) : k.legal = false := by
  simp [Masking.legal, h.1, h.2]

/-- Each condition of 60_exceptions.md R224 that is tested before execution. -/
theorem vexUd_eq_true {s : State} {p : List LegacyPrefix}
    (h : s.feat.fma = false ∨ s.cr4.getLsbD 18 = false ∨ s.xcr0.extractLsb' 1 2 ≠ 3 ∨ prefixesAllowed p = false) :
    vexUd s p = true := by
  obtain h | h | h | h := h
  · simp [vexUd, h]
  · simp [vexUd, show crOsxsave s = false from h]
  · simp [vexUd, xcrAvx_eq_false h]
  · simp [vexUd, h]

/-- Each condition of 60_exceptions.md R225 that is tested before execution. -/
theorem evexUd_eq_true {s : State} {p : List LegacyPrefix} {k : Masking} {kl : Nat}
    (h : s.feat.avx512f = false ∨ (kl < 16 ∧ s.feat.avx512vl = false) ∨ s.cr4.getLsbD 18 = false ∨
      s.xcr0.extractLsb' 1 2 ≠ 3 ∨ s.xcr0.extractLsb' 5 3 ≠ 7 ∨ prefixesAllowed p = false ∨ (k.z = true ∧ k.aaa = 0)) :
    evexUd s p k kl = true := by
  obtain h | ⟨hkl, h⟩ | h | h | h | h | h := h
  · simp [evexUd, h]
  · simp [evexUd, hkl, h]
  · simp [evexUd, show crOsxsave s = false from h]
  · simp [evexUd, xcrAvx_eq_false h]
  · simp [evexUd, xcrAvx512_eq_false h]
  · simp [evexUd, h]
  · simp [evexUd, legal_eq_false h]

/-- Settles O39: each condition is one of those tested before execution. -/
theorem vexUdConditionsRaiseUd : Obligations.VexUdConditionsRaiseUd := by
  unfold Obligations.VexUdConditionsRaiseUd
  intro s p d s2 o q hq hmode hlen hcond
  obtain ⟨f, hexec⟩ := exec_of_mem_vexForms hq
  rw [hexec]
  exact guarded_of_ud s _ _ _ hmode hlen (vexUd_eq_true hcond)

/-- Settles O40: each condition is one of those tested before execution; AVX512VL is none at sixteen lanes. -/
theorem evexUdConditionsRaiseUd : Obligations.EvexUdConditionsRaiseUd := by
  unfold Obligations.EvexUdConditionsRaiseUd
  intro s p k d s2 s3 o rc hmode
  refine ⟨fun q hq hlen hcond => ?evex, fun i hi hlen hcond => ?er⟩
  case evex =>
    obtain ⟨f, hexec⟩ := exec_of_mem_evexForms hq
    rw [hexec]
    exact guarded_of_ud s _ _ _ hmode hlen (evexUd_eq_true hcond)
  case er =>
    obtain ⟨f, hexec⟩ := exec_of_mem_erForms hi
    rw [hexec]
    exact guarded_of_ud s _ _ _ hmode hlen (evexUd_eq_true (hcond.imp_right .inr))

end Sys2Proof.Machine
end

section
/-! The flags of the lanes and the trap (60_exceptions.md R222, R223): the statements O25, O26 and O27. -/

namespace Sys2Proof.Machine

open Sys2Proof.Safety

/-! ## Two phases -/

/-- Some flag is unmasked exactly when one of the six bits is set in the flags and clear in the masks. -/
theorem someUnmasked_eq_true_iff (f m : FlagSet) :
    someUnmasked f m = true ↔ ∃ i < 6, f.getLsbD i = true ∧ m.getLsbD i = false := by
  have hzeros : ∀ i, (0 : FlagSet).getLsbD i = false := fun _ => BitVec.getLsbD_zero
  have hbit : ∀ i < 6, (f &&& ~~~m).getLsbD i = (f.getLsbD i && !m.getLsbD i) := fun i hi => by
    rw [BitVec.getLsbD_and, BitVec.getLsbD_not, decide_eq_true hi, Bool.true_and]
  rw [someUnmasked, decide_eq_true_eq]
  constructor
  · intro hne
    by_contra hno
    refine hne (BitVec.eq_of_getLsbD_eq fun i hi => ?_)
    rw [hbit i hi, hzeros, Bool.eq_false_iff, Ne, Bool.and_eq_true, Bool.not_eq_true']
    exact fun h => hno ⟨i, hi, h⟩
  · rintro ⟨i, hi, hf, hm⟩ hzero
    have := hbit i hi
    rw [hzero, hf, hm, hzeros] at this
    cases this

theorem someUnmasked_eq_false_iff (f m : FlagSet) : someUnmasked f m = false ↔ f &&& ~~~m = 0 := by
  simp [someUnmasked]

theorem getLsbD_preFlags (i : Nat) : preFlags.getLsbD i = decide (i < 2) := by
  by_cases hi : i < 6
  · interval_cases i <;> rfl
  · rw [BitVec.getLsbD_of_ge _ i (by omega)]
    exact (decide_eq_false (by omega)).symm

theorem getLsbD_pre_unionFlags (fs : List FlagSet) (i : Nat) :
    (unionFlags fs &&& preFlags).getLsbD i = true ↔ i < 2 ∧ ∃ f ∈ fs, f.getLsbD i = true := by
  rw [BitVec.getLsbD_and, Bool.and_eq_true, getLsbD_unionFlags, getLsbD_preFlags, decide_eq_true_eq, and_comm]

/-- Some pre-computation flag of the union is unmasked exactly when one of some lane is. -/
theorem someUnmasked_pre_iff (fs : List FlagSet) (m : FlagSet) :
    someUnmasked (unionFlags fs &&& preFlags) m = true ↔ ∃ f ∈ fs, ∃ i < 2, f.getLsbD i = true ∧ m.getLsbD i = false := by
  simp only [someUnmasked_eq_true_iff, getLsbD_pre_unionFlags]
  constructor
  · rintro ⟨i, -, ⟨hi, f, hf, hset⟩, hm⟩
    exact ⟨f, hf, i, hi, hset, hm⟩
  · rintro ⟨f, hf, i, hi, hset, hm⟩
    exact ⟨i, by omega, ⟨hi, f, hf, hset⟩, hm⟩

/-- Some flag of the union is unmasked exactly when one of some lane is. -/
theorem someUnmasked_union_iff (fs : List FlagSet) (m : FlagSet) :
    someUnmasked (unionFlags fs) m = true ↔ ∃ f ∈ fs, ∃ i < 6, f.getLsbD i = true ∧ m.getLsbD i = false := by
  simp only [someUnmasked_eq_true_iff, getLsbD_unionFlags]
  constructor
  · rintro ⟨i, hi, ⟨f, hf, hset⟩, hm⟩
    exact ⟨f, hf, i, hi, hset, hm⟩
  · rintro ⟨f, hf, i, hi, hset, hm⟩
    exact ⟨i, hi, ⟨f, hf, hset⟩, hm⟩

/-- Settles O25, by the phase that is reached and the flags of the union, bit by bit. -/
theorem simdOutcomeHasTwoPhases : Obligations.SimdOutcomeHasTwoPhases := by
  unfold Obligations.SimdOutcomeHasTwoPhases
  intro fs m
  simp only [← someUnmasked_pre_iff, ← someUnmasked_union_iff]
  refine ⟨fun hpre => ⟨_, if_pos hpre, getLsbD_pre_unionFlags fs⟩,
    fun hpre hall => ⟨_, (if_neg hpre).trans (if_pos hall), getLsbD_unionFlags fs⟩,
    fun hall => ⟨_, (if_neg fun hpre => hall ?_).trans (if_neg hall), getLsbD_unionFlags fs⟩⟩
  rw [someUnmasked_pre_iff] at hpre
  obtain ⟨f, hf, i, hi, hbits⟩ := hpre
  exact (someUnmasked_union_iff fs m).2 ⟨f, hf, i, by omega, hbits⟩

/-! ## The trap -/

/-- Only the union of the lanes' flags counts. -/
theorem simdFpOutcome_congr {fs fs' : List FlagSet} (m : FlagSet) (h : unionFlags fs = unionFlags fs') :
    simdFpOutcome fs m = simdFpOutcome fs' m := by
  rw [simdFpOutcome, simdFpOutcome, h]

/-- A trap: flags OR-ed into MXCSR and #XM, or #UD without OSXMMEXCPT (60_exceptions.md R223). -/
theorem complete_trap {s : State} {d : BitVec 5} {fs : List FlagSet} {v : Vec} {len : Nat} {g : FlagSet}
    (h : simdFpOutcome fs (mxMasks s.mxcsr) = .trap g) :
    complete s d fs v len =
      if crOsxmmexcpt s then .fault (.simdFloatingPoint (s.orFlags g)) else .fault (.invalidOpcode (s.orFlags g)) := by
  rw [complete, h]
  show raise _ _ = _
  cases crOsxmmexcpt s <;> rfl

/-- A flag of the union is one of a lane that is computed (42_vfnmsub_evex.md R191). -/
theorem getLsbD_unionFlags_flags (l : Lanes) (act : List Bool) {kl : Nat} {on : Nat → Bool} (hlen : act.length = kl)
    (hon : ∀ j < kl, act.getD j false = on j) (i : Nat) :
    (unionFlags (l.flags act)).getLsbD i = true ↔ ∃ j < kl, on j = true ∧ (l.out j).fl.getLsbD i = true := by
  rw [getLsbD_unionFlags]
  constructor
  · rintro ⟨g, hg, hset⟩
    obtain ⟨j, hj, rfl⟩ := (l.mem_flags act g).1 hg
    rw [hlen] at hj
    rw [hon j hj] at hset
    cases hact : on j with
    | false => rw [hact] at hset; simp at hset
    | true => exact ⟨j, hj, hact, by simpa [hact] using hset⟩
  · rintro ⟨j, hj, hact, hset⟩
    exact ⟨_, (l.mem_flags act _).2 ⟨j, hlen ▸ hj, rfl⟩, by rwa [hon j hj, hact, if_pos rfl]⟩

/-- The lanes that are not computed may be left out of the union. -/
theorem unionFlags_flags_eq (l : Lanes) (act : List Bool) {kl : Nat} {on : Nat → Bool} (hlen : act.length = kl)
    (hon : ∀ j < kl, act.getD j false = on j) :
    unionFlags (l.flags act) = unionFlags (((List.range kl).filter on).map fun j => (l.out j).fl) := by
  apply BitVec.eq_of_getLsbD_eq
  intro i _
  rw [Bool.eq_iff_iff, getLsbD_unionFlags_flags l act hlen hon, getLsbD_unionFlags]
  simp [and_assoc]

/-- Settles O26: the operand is read and the lanes' flags trap. -/
theorem vexTrapRaisesXmOrUd : Obligations.VexTrapRaisesXmOrUd := by
  unfold Obligations.VexTrapRaisesXmOrUd
  intro s f kl i p d s2 o src3 g hen hp hlen hread hi htrap
  obtain ⟨h1, h3, h4⟩ := vexUd_of_vexEnabled hen hp
  have hexec : exec i s = execVex f kl p d s2 o s := by
    simp only [List.mem_cons, List.not_mem_nil, or_false, Prod.mk.injEq] at hi
    obtain ⟨rfl, rfl, rfl⟩ | ⟨rfl, rfl, rfl⟩ | ⟨rfl, rfl, rfl⟩ | ⟨rfl, rfl, rfl⟩ | ⟨rfl, rfl, rfl⟩ | ⟨rfl, rfl, rfl⟩ := hi <;>
      rfl
  have hflags := unionFlags_flags_eq (vexLanes f d s2 src3 s) (List.replicate kl true) (kl := kl) (on := fun _ => true)
    List.length_replicate fun j hj => replicate_getD hj
  rw [List.filter_true] at hflags
  rw [hexec, execVex, guarded_pass _ _ _ _ h1 hlen h3 h4, hread]
  exact complete_trap ((simdFpOutcome_congr _ hflags).trans htrap)

/-- Settles O27: the operand is read and the active lanes' flags trap. -/
theorem evexTrapRaisesXmOrUd : Obligations.EvexTrapRaisesXmOrUd := by
  unfold Obligations.EvexTrapRaisesXmOrUd
  intro s f kl i p k d s2 o src3 g hen hp hk hlen hread hi htrap
  obtain ⟨h1, h3, h4⟩ := evexUd_of_evexEnabled hen hp hk
  have hexec : exec i s = execEvex f kl p k d s2 o s := by
    simp only [List.mem_cons, List.not_mem_nil, or_false, Prod.mk.injEq] at hi
    obtain ⟨rfl, rfl, rfl⟩ | ⟨rfl, rfl, rfl⟩ | ⟨rfl, rfl, rfl⟩ | ⟨rfl, rfl, rfl⟩ | ⟨rfl, rfl, rfl⟩ | ⟨rfl, rfl, rfl⟩ |
      ⟨rfl, rfl, rfl⟩ | ⟨rfl, rfl, rfl⟩ | ⟨rfl, rfl, rfl⟩ := hi <;> rfl
  have hflags := unionFlags_flags_eq (evexLanes f d s2 src3 s) (activeLanes s k kl) (activeLanes_length s k kl)
    fun j hj => activeLanes_getD_eq_active s k hj
  rw [hexec, execEvex, guarded_pass _ _ _ _ h1 hlen h3 h4, hread]
  exact complete_trap ((simdFpOutcome_congr _ hflags).trans htrap)

end Sys2Proof.Machine
end

section
/-! What each instruction computes where it completes, and its frame: the statements O28 to O38. -/

namespace Sys2Proof.Machine

open Sys2Proof.Safety

/-! ## A computed lane has a result (40_fnmsub_lane_arithmetic.md R150 P6) -/

theorem formLane_none (f : Form) (dest src2 src3 : F32) (c : FpControl) (h : (formLane f dest src2 src3 c).r = none) :
    (c.um = false ∧ (formLane f dest src2 src3 c).fl.getLsbD 4 = true) ∨
      (c.om = false ∧ (formLane f dest src2 src3 c).fl.getLsbD 3 = true) := by
  cases f <;> exact lanesWithoutResultTrap _ _ _ _ h

/-- The masks of UE and OE are those that the lanes read. -/
theorem mxControl_masks (m : BitVec 32) :
    (mxControl m).um = (mxMasks m).getLsbD 4 ∧ (mxControl m).om = (mxMasks m).getLsbD 3 := by
  simp [mxControl, mxUm, mxOm, mxMasks]

/-- A lane that signals no unmasked flag has a result. -/
theorem Lanes.out_isSome_of_masked {l : Lanes} {m : BitVec 32} (hc : l.c = mxControl m) {j : Nat}
    (h : (l.out j).fl &&& ~~~(mxMasks m) = 0) : (l.out j).r.isSome = true := by
  have hno : ∀ i < 6, ¬((l.out j).fl.getLsbD i = true ∧ (mxMasks m).getLsbD i = false) := fun i hi hbits => by
    have := (someUnmasked_eq_true_iff _ _).2 ⟨i, hi, hbits⟩
    rw [(someUnmasked_eq_false_iff _ _).2 h] at this
    cases this
  obtain ⟨hum, hom⟩ := mxControl_masks m
  rw [Option.isSome_iff_ne_none]
  intro hnone
  obtain ⟨hmask, hset⟩ | ⟨hmask, hset⟩ := formLane_none _ _ _ _ _ hnone
  · exact hno 4 (by omega) ⟨hset, by rw [← hum, ← hc, hmask]⟩
  · exact hno 3 (by omega) ⟨hset, by rw [← hom, ← hc, hmask]⟩

/-- With UE and OE masked every lane has a result. -/
theorem Lanes.out_isSome_of_um_om {l : Lanes} (hum : l.c.um = true) (hom : l.c.om = true) (j : Nat) :
    (l.out j).r.isSome = true := by
  rw [Option.isSome_iff_ne_none]
  intro hnone
  obtain ⟨h, -⟩ | ⟨h, -⟩ := formLane_none _ _ _ _ _ hnone
  · rw [hum] at h; cases h
  · rw [hom] at h; cases h

/-! ## The effect of the end of an instruction -/

section Effect
variable {s : State} {d : BitVec 5} {l : Lanes} {act : List Bool} {kl : Nat} {on : Nat → Bool} (z : Bool) (len : Nat)
  (hlen : act.length = kl) (hkl : kl ≤ 16) (hon : ∀ j < kl, act.getD j false = on j) (hdest : l.dest = s.getZmm d)
include hlen hkl hon hdest

/-- The lanes delivered: computed, kept or zero, and zero above the vector length (42_vfnmsub_evex.md R190 step 6, R192,
R196). -/
theorem writeBack_packedEffect {g : FlagSet} (hg : g.getLsbD 2 = false)
    (hsome : ∀ j < kl, on j = true → (l.out j).r.isSome = true) :
    PackedEffect kl on z l.out d len s (writeBack (s.orFlags g) d (packLanes (l.new act z)) len) := by
  have hread : (writeBack (s.orFlags g) d (packLanes (l.new act z)) len).getZmm d = packLanes (l.new act z) :=
    (writeBack_spec _ _ _ _).1
  have hlane : ∀ j < kl, lane (packLanes (l.new act z)) j =
      if on j then (l.out j).r.getD 0 else if z then 0 else lane (s.getZmm d) j := fun j hj => by
    rw [lane_packLanes_new l act z j (hlen ▸ hkl) (hlen ▸ hj), hon j hj, hdest]
  refine ⟨fun j hj hact => ?_, fun j hj hact hz => ?_, fun j hj hact hz => ?_, fun j hj h16 => ?_, rfl,
    writeBack_onlyDestination s g d _ len hg⟩
  · rw [hread, hlane j hj, hact, if_pos rfl]
    exact (Option.getD_of_ne_none (Option.isSome_iff_ne_none.1 (hsome j hj hact)) 0).symm ▸ rfl
  · rw [hread, hlane j hj, hact, hz, if_neg Bool.false_ne_true, if_neg Bool.false_ne_true]
  · rw [hread, hlane j hj, hact, hz, if_neg Bool.false_ne_true, if_pos rfl]
  · rw [hread, lane_packLanes_above l act z j (hlen ▸ hj) h16]

/-- No unmasked flag: the lanes are delivered and their flags OR-ed into MXCSR (60_exceptions.md R222). -/
theorem complete_effect (hc : l.c = mxControl s.mxcsr) (hno : NoUnmasked kl on l.out s) :
    ∃ t, complete s d (l.flags act) (packLanes (l.new act z)) len = .next t ∧ PackedEffect kl on z l.out d len s t ∧
      FlagsAccumulated kl on l.out s t := by
  have hmasked : unionFlags (l.flags act) &&& ~~~(mxMasks s.mxcsr) = 0 := by
    rw [← someUnmasked_eq_false_iff, Bool.eq_false_iff, Ne, someUnmasked_eq_true_iff]
    rintro ⟨i, hi, hset, hm⟩
    obtain ⟨j, hj, hact, hset⟩ := (getLsbD_unionFlags_flags l act hlen hon i).1 hset
    have := (someUnmasked_eq_true_iff _ _).2 ⟨i, hi, hset, hm⟩
    rw [(someUnmasked_eq_false_iff _ _).2 (hno j hj hact)] at this
    cases this
  refine ⟨_, complete_deliver s d _ _ len hmasked, writeBack_packedEffect z len hlen hkl hon hdest (unionFlags_flags_ze l act)
    fun j hj hact => Lanes.out_isSome_of_masked hc (hno j hj hact), fun i => ?_⟩
  rw [← getLsbD_unionFlags_flags l act hlen hon, ← Bool.or_eq_true, ← State.orFlags_mxcsr_bit]
  rfl

end Effect

/-! ## The three templates -/

/-- A VEX form whose lanes signal no unmasked flag completes (41_vfnmsub_vex.md R170). -/
theorem execVex_effect {f : Form} {kl : Nat} {p : List LegacyPrefix} {d s2 : BitVec 4} {o : VexOp3} {s : State}
    {src3 : List F32} (hkl : kl ≤ 16) (hen : vexEnabled s) (hp : prefixesAllowed p = true) (hlen : vexLength p o ≤ 15)
    (hread : readVexOp3 s p kl o = .ok src3) (hno : NoUnmasked kl (fun _ => true) (vexLanes f d s2 src3 s).out s) :
    ∃ t, execVex f kl p d s2 o s = .next t ∧
      PackedEffect kl (fun _ => true) false (vexLanes f d s2 src3 s).out (vexReg d) (vexLength p o) s t ∧
      FlagsAccumulated kl (fun _ => true) (vexLanes f d s2 src3 s).out s t := by
  obtain ⟨h1, h3, h4⟩ := vexUd_of_vexEnabled hen hp
  rw [execVex, guarded_pass _ _ _ _ h1 hlen h3 h4, hread]
  exact complete_effect false (vexLength p o) List.length_replicate hkl (fun j hj => replicate_getD hj) rfl rfl hno

/-- An EVEX form whose active lanes signal no unmasked flag completes (42_vfnmsub_evex.md R190). -/
theorem execEvex_effect {f : Form} {kl : Nat} {p : List LegacyPrefix} {k : Masking} {d s2 : BitVec 5} {o : EvexOp3}
    {s : State} {src3 : List F32} (hkl : kl ≤ 16) (hen : evexEnabled s kl) (hp : prefixesAllowed p = true)
    (hk : k.legal = true) (hlen : evexLength p o ≤ 15) (hread : readEvexOp3 s p (activeLanes s k kl) o = .ok src3)
    (hno : NoUnmasked kl (active s k) (evexLanes f d s2 src3 s).out s) :
    ∃ t, execEvex f kl p k d s2 o s = .next t ∧
      PackedEffect kl (active s k) k.z (evexLanes f d s2 src3 s).out d (evexLength p o) s t ∧
      FlagsAccumulated kl (active s k) (evexLanes f d s2 src3 s).out s t := by
  obtain ⟨h1, h3, h4⟩ := evexUd_of_evexEnabled hen hp hk
  rw [execEvex, guarded_pass _ _ _ _ h1 hlen h3 h4, hread]
  exact complete_effect k.z (evexLength p o) (activeLanes_length s k kl) hkl
    (fun j hj => activeLanes_getD_eq_active s k hj) rfl rfl hno

/-- An embedded-rounding form completes under every MXCSR (42_vfnmsub_evex.md R190, R194); its third operand is a
register. -/
theorem execEr_effect {f : Form} {p : List LegacyPrefix} {k : Masking} {d s2 s3 : BitVec 5} {rc : RoundMode} {s : State}
    (hen : evexEnabled s 16) (hp : prefixesAllowed p = true) (hk : k.legal = true) (hlen : evexLength p (.reg s3) ≤ 15) :
    ∃ t, execEr f p k d s2 s3 rc s = .next t ∧ t.mxcsr = s.mxcsr ∧
      PackedEffect 16 (active s k) k.z
        (fun j => formLane f (lane (s.getZmm d) j) (lane (s.getZmm s2) j) (lane (s.getZmm s3) j) (erControl rc s.mxcsr))
        d (evexLength p (.reg s3)) s t := by
  obtain ⟨h1, h3, h4⟩ := evexUd_of_evexEnabled hen hp hk
  have heffect := writeBack_packedEffect (s := s) (d := d) (l := erLanes f d s2 s3 rc s) k.z (evexLength p (.reg s3))
    (activeLanes_length s k 16) le_rfl (fun j hj => activeLanes_getD_eq_active s k hj) rfl (g := 0) rfl
    fun j _ _ => Lanes.out_isSome_of_um_om rfl rfl j
  rw [State.orFlags_zero] at heffect
  refine ⟨_, execEr_completes f p k d s2 s3 rc s h1 hlen h3 h4, rfl, { heffect with computed := fun j hj hact => ?_ }⟩
  rw [← registerLanes_getD s s3 hj]
  exact heffect.computed j hj hact

/-! ## The instructions -/

/-- Settles O28: the VEX template with the roles of form 132. -/
theorem vfnmsub132VexCompletes : Obligations.Vfnmsub132VexCompletes := by
  unfold Obligations.Vfnmsub132VexCompletes
  intro s p d s2 o src3 hen hp hlen out
  exact ⟨execVex_effect (f := .f132) (by omega) hen hp hlen, execVex_effect (f := .f132) (by omega) hen hp hlen⟩

/-- Settles O29: the VEX template with the roles of form 213. -/
theorem vfnmsub213VexCompletes : Obligations.Vfnmsub213VexCompletes := by
  unfold Obligations.Vfnmsub213VexCompletes
  intro s p d s2 o src3 hen hp hlen out
  exact ⟨execVex_effect (f := .f213) (by omega) hen hp hlen, execVex_effect (f := .f213) (by omega) hen hp hlen⟩

/-- Settles O30: the VEX template with the roles of form 231. -/
theorem vfnmsub231VexCompletes : Obligations.Vfnmsub231VexCompletes := by
  unfold Obligations.Vfnmsub231VexCompletes
  intro s p d s2 o src3 hen hp hlen out
  exact ⟨execVex_effect (f := .f231) (by omega) hen hp hlen, execVex_effect (f := .f231) (by omega) hen hp hlen⟩

/-- Settles O31: the EVEX template with the roles of form 132, for each vector length. -/
theorem vfnmsub132EvexCompletes : Obligations.Vfnmsub132EvexCompletes := by
  unfold Obligations.Vfnmsub132EvexCompletes
  intro s p k d s2 o src3 kl i hi hen hp hk hlen hread out hno
  simp only [List.mem_cons, List.not_mem_nil, or_false, Prod.mk.injEq] at hi
  obtain ⟨rfl, rfl⟩ | ⟨rfl, rfl⟩ | ⟨rfl, rfl⟩ := hi <;>
    exact execEvex_effect (f := .f132) (by omega) hen hp hk hlen hread hno

/-- Settles O32: the EVEX template with the roles of form 213, for each vector length. -/
theorem vfnmsub213EvexCompletes : Obligations.Vfnmsub213EvexCompletes := by
  unfold Obligations.Vfnmsub213EvexCompletes
  intro s p k d s2 o src3 kl i hi hen hp hk hlen hread out hno
  simp only [List.mem_cons, List.not_mem_nil, or_false, Prod.mk.injEq] at hi
  obtain ⟨rfl, rfl⟩ | ⟨rfl, rfl⟩ | ⟨rfl, rfl⟩ := hi <;>
    exact execEvex_effect (f := .f213) (by omega) hen hp hk hlen hread hno

/-- Settles O33: the EVEX template with the roles of form 231, for each vector length. -/
theorem vfnmsub231EvexCompletes : Obligations.Vfnmsub231EvexCompletes := by
  unfold Obligations.Vfnmsub231EvexCompletes
  intro s p k d s2 o src3 kl i hi hen hp hk hlen hread out hno
  simp only [List.mem_cons, List.not_mem_nil, or_false, Prod.mk.injEq] at hi
  obtain ⟨rfl, rfl⟩ | ⟨rfl, rfl⟩ | ⟨rfl, rfl⟩ := hi <;>
    exact execEvex_effect (f := .f231) (by omega) hen hp hk hlen hread hno

/-- Settles O34: the embedded-rounding template with the roles of form 132. -/
theorem vfnmsub132ErCompletes : Obligations.Vfnmsub132ErCompletes := by
  unfold Obligations.Vfnmsub132ErCompletes
  exact fun s p k d s2 s3 rc hen hp hk hlen => execEr_effect (f := .f132) hen hp hk hlen

/-- Settles O35: the embedded-rounding template with the roles of form 213. -/
theorem vfnmsub213ErCompletes : Obligations.Vfnmsub213ErCompletes := by
  unfold Obligations.Vfnmsub213ErCompletes
  exact fun s p k d s2 s3 rc hen hp hk hlen => execEr_effect (f := .f213) hen hp hk hlen

/-- Settles O36: the embedded-rounding template with the roles of form 231. -/
theorem vfnmsub231ErCompletes : Obligations.Vfnmsub231ErCompletes := by
  unfold Obligations.Vfnmsub231ErCompletes
  exact fun s p k d s2 s3 rc hen hp hk hlen => execEr_effect (f := .f231) hen hp hk hlen

/-! ## An empty write mask -/

/-- Without an active lane every operand 3 is read, whatever memory holds or fails to hold (42_vfnmsub_evex.md R209). -/
theorem readEvexOp3_of_inactive (s : State) (p : List LegacyPrefix) (k : Masking) (kl : Nat) (o : EvexOp3)
    (h : ∀ j < kl, active s k j = false) : ∃ src3, readEvexOp3 s p (activeLanes s k kl) o = .ok src3 := by
  have hany : anyRead (activeLanes s k kl) = false := Bool.eq_false_iff.2 fun hany => by
    obtain ⟨j, hj, hon⟩ := (anyRead_activeLanes s k kl).1 hany
    rw [h j hj] at hon
    cases hon
  cases o with
  | reg n => exact ⟨_, rfl⟩
  | bcst m => exact ⟨_, readBroadcast_inactive hany⟩
  | mem m =>
    obtain ⟨ls, hls, -⟩ := readFull_ok (s := s) (seg := operandSegment p m) (act := activeLanes s k kl)
      (a := linearAddress s p (evexLength p (.mem m)) (4 * (activeLanes s k kl).length) m) (by rw [hany, Bool.false_and])
      fun j hj hon => by
        rw [activeLanes_length] at hj
        rw [activeLanes_getD_eq_active s k hj, h j hj] at hon
        cases hon
    exact ⟨ls, hls⟩

/-- Settles O37: no lane is active, so nothing is read, nothing signalled and no lane computed. -/
theorem emptyMaskReadsAndSignalsNothing : Obligations.EmptyMaskReadsAndSignalsNothing := by
  unfold Obligations.EmptyMaskReadsAndSignalsNothing
  intro s p k d s2 o kl i hi hen hp hlen hk hempty
  have hinactive : ∀ j < kl, active s k j = false := fun j hj => by
    rw [active, decide_eq_false hk, hempty j hj, Bool.or_self]
  have hno : ∀ {j : Nat} {P : Prop}, j < kl → active s k j = true → P := fun hj hact => by
    rw [hinactive _ hj] at hact
    cases hact
  have hlegal : k.legal = true := by rw [Masking.legal, decide_eq_false hk, Bool.and_false]; rfl
  obtain ⟨f, hexec⟩ := exec_of_mem_evexForms hi
  obtain ⟨src3, hread⟩ := readEvexOp3_of_inactive s p k kl o hinactive
  obtain ⟨t, ht, heffect, hflags⟩ := execEvex_effect (f := f) (d := d) (s2 := s2) (lanes_of_mem_evexForms hi) hen hp hlegal
    hlen hread fun j hj hact => hno hj hact
  refine ⟨t, (hexec s).trans ht, BitVec.eq_of_getLsbD_eq fun n _ => ?_, heffect.rip, fun j hj => ?_, heffect.above,
    heffect.frame⟩
  · rw [Bool.eq_iff_iff, hflags n]
    exact ⟨fun h => h.elim id fun ⟨j, hj, hact, _⟩ => hno hj hact, .inl⟩
  · cases hz : k.z with
    | false => exact heffect.kept j hj (hinactive j hj) hz
    | true => exact heffect.zeroed j hj (hinactive j hj) hz

/-! ## VEX and EVEX -/

/-- Without a write mask every lane is active (42_vfnmsub_evex.md R191). -/
theorem activeLanes_unmasked (s : State) (kl : Nat) : activeLanes s ⟨0, false⟩ kl = List.replicate kl true := by
  simp [activeLanes, List.map_const']

/-- The end of an instruction depends on its length by `rip` alone. -/
theorem complete_length (s : State) (d : BitVec 5) (fs : List FlagSet) (v : Vec) (len len' : Nat) :
    (∃ t, complete s d fs v len = .next t ∧ complete s d fs v len' = .next (t.setRip (s.rip + BitVec.ofNat 64 len'))) ∨
      ∃ f, complete s d fs v len = .fault f ∧ complete s d fs v len' = .fault f := by
  cases h : simdFpOutcome fs (mxMasks s.mxcsr) with
  | deliver g => exact .inl ⟨_, by rw [complete, h], by rw [complete, h]; rfl⟩
  | trap g =>
    obtain ⟨f, hf, -⟩ := raise_spec (if crOsxmmexcpt s then .xm else .ud) (s.orFlags g)
    exact .inr ⟨f, by rw [complete, h]; exact hf, by rw [complete, h]; exact hf⟩

/-- Settles O38: both templates go on with the same lanes and end alike but for the length. -/
theorem vexAndEvexFormsAgree : Obligations.VexAndEvexFormsAgree := by
  unfold Obligations.VexAndEvexFormsAgree
  intro s p d s2 o o' kl i i' hi hen hen' hp hlen hlen' hread
  obtain ⟨h1, h3, h4⟩ := vexUd_of_vexEnabled hen hp
  obtain ⟨-, h3', -⟩ := evexUd_of_evexEnabled (k := ⟨0, false⟩) hen' hp rfl
  obtain ⟨f, hexec, hexec'⟩ : ∃ f, exec i s = execVex f kl p d s2 o s ∧
      exec i' s = execEvex f kl p ⟨0, false⟩ (vexReg d) (vexReg s2) o' s := by
    simp only [List.mem_cons, List.not_mem_nil, or_false, Prod.mk.injEq] at hi
    obtain ⟨rfl, rfl, rfl⟩ | ⟨rfl, rfl, rfl⟩ | ⟨rfl, rfl, rfl⟩ | ⟨rfl, rfl, rfl⟩ | ⟨rfl, rfl, rfl⟩ | ⟨rfl, rfl, rfl⟩ := hi
    exacts [⟨.f132, rfl, rfl⟩, ⟨.f213, rfl, rfl⟩, ⟨.f231, rfl, rfl⟩, ⟨.f132, rfl, rfl⟩, ⟨.f213, rfl, rfl⟩, ⟨.f231, rfl, rfl⟩]
  rw [hexec, hexec', execVex, execEvex, guarded_pass _ _ _ _ h1 hlen h3 h4, guarded_pass _ _ _ _ h1 hlen' h3' h4,
    activeLanes_unmasked, ← hread]
  cases readVexOp3 s p kl o with
  | error r =>
    cases r with
    | exc e =>
      obtain ⟨g, hg, -⟩ := raise_spec e s
      exact .inr (.inl ⟨g, hg, hg⟩)
    | refuse why => exact .inr (.inr ⟨why, rfl, rfl⟩)
  | ok src3 => exact (complete_length _ _ _ _ _ _).imp_right .inl

end Sys2Proof.Machine
end

section
/-! No #XM with all exceptions masked, and completion under the launch premises (70_reset_and_hazards.md R263): the statement O56. -/

namespace Sys2Proof.Machine

open Sys2Proof.Safety

/-! ## No #XM with all exceptions masked -/

/-- The outcome is #XM. -/
def IsXm (r : Result) : Prop := ∃ s, r = .fault (.simdFloatingPoint s)

theorem stopOutcome_not_xm {q : Stop} {s : State} {r : Result} (h : stopOutcome q s r) : ¬IsXm r := by
  rintro ⟨s', rfl⟩
  obtain ⟨-, h⟩ | ⟨-, h⟩ | ⟨code, a, -, h⟩ | ⟨why, -, h⟩ := h <;> cases h

theorem guarded_not_xm {s : State} {len : Nat} {ud : Bool} {go : Result} (h : ¬IsXm go) : ¬IsXm (guarded s len ud go) := by
  obtain e | e | e | e | ⟨e, -⟩ := guarded_cases s len ud go
  · rw [e]; rintro ⟨s', h⟩; cases h
  · rw [e]; rintro ⟨s', h⟩; cases h
  · rw [e]; rintro ⟨s', h⟩; cases h
  · rw [e]; rintro ⟨s', h⟩; cases h
  · rwa [e]

theorem unmasked_of_pMasked {s : State} (h : pMasked s) (f : FlagSet) : f &&& ~~~(mxMasks s.mxcsr) = 0 := by
  rw [show mxMasks s.mxcsr = 0x3F from h]
  exact BitVec.and_zero

theorem complete_not_xm {s : State} (h : pMasked s) (d : BitVec 5) (fs : List FlagSet) (v : Vec) (len : Nat) :
    ¬IsXm (complete s d fs v len) := by
  rw [complete_deliver s d fs v len (unmasked_of_pMasked h _)]
  rintro ⟨s', h⟩
  cases h

theorem exec_not_xm (i : Instr) {s : State} (h : pMasked s) : ¬IsXm (exec i s) := by
  obtain ⟨f, kl, p, d, s2, o, -, hexec⟩ | ⟨f, kl, p, k, d, s2, o, -, hexec⟩ | ⟨f, p, k, d, s2, s3, rc, -, hexec⟩ :=
    exec_eq_template i
  · rw [hexec]
    refine guarded_not_xm ?_
    cases hread : readVexOp3 s p kl o with
    | error q => exact stopOutcome_not_xm (readVexOp3_stopOutcome hread)
    | ok src3 => exact complete_not_xm h _ _ _ _
  · rw [hexec]
    refine guarded_not_xm ?_
    cases hread : readEvexOp3 s p (activeLanes s k kl) o with
    | error q => exact stopOutcome_not_xm (readEvexOp3_stopOutcome hread)
    | ok src3 => exact complete_not_xm h _ _ _ _
  · rw [hexec]
    refine guarded_not_xm ?_
    rintro ⟨s', h⟩
    cases h

theorem step_not_xm {s : State} (h : pMasked s) : ¬IsXm (step s) := by
  by_cases hmode : pMode s
  · obtain ⟨hrun, hundefined, hnot, hmore⟩ := stepRunsTheDecodedInstruction s hmode
    cases hd : decode (fetchBytes s (fetchLimit s) s.rip).1 with
    | instr i rest =>
      rw [hrun i rest hd]
      exact exec_not_xm i h
    | undefined rest =>
      obtain ⟨hud, hgp⟩ := hundefined rest hd
      by_cases hlen : (fetchBytes s (fetchLimit s) s.rip).1.length - rest.length ≤ 15
      · rw [hud hlen]; rintro ⟨s', h⟩; cases h
      · rw [hgp (by omega)]; rintro ⟨s', h⟩; cases h
    | needMore =>
      obtain ⟨q, -, hq⟩ := hmore hd
      exact stopOutcome_not_xm hq
    | notInScope why =>
      rw [hnot why hd]
      rintro ⟨s', h⟩
      cases h
  · rw [step_of_modeRefused s hmode]
    rintro ⟨s', h⟩
    cases h

/-! ## Every well-formed instruction completes -/

theorem wellFormed_parts {i : Instr} (h : i.wellFormed = true) :
    prefixesAllowed i.prefixes = true ∧ i.masking.legal = true ∧ i.length ≤ 15 := by
  simp only [Instr.wellFormed, Bool.and_eq_true, decide_eq_true_eq] at h
  obtain ⟨⟨⟨-, hp⟩, hk⟩, hlen⟩ := h
  exact ⟨hp, hk, hlen⟩

section Parts
variable {p : List LegacyPrefix}

/-- What the statements about every instruction read of a VEX form. -/
theorem parts_of_mem_vexForms {d s2 : BitVec 4} {o : VexOp3} {q : Nat × Instr} (hq : q ∈ vexForms p d s2 o) :
    q.2.prefixes = p ∧ isVex q.2 = true ∧ ∀ s, operandBytes s q.2 = vexOperandBytes s p q.1 o := by
  simp only [vexForms, List.mem_cons, List.not_mem_nil, or_false] at hq
  obtain rfl | rfl | rfl | rfl | rfl | rfl := hq <;> exact ⟨rfl, rfl, fun _ => rfl⟩

/-- What the statements about every instruction read of an EVEX form. -/
theorem parts_of_mem_evexForms {k : Masking} {d s2 : BitVec 5} {o : EvexOp3} {q : Nat × Instr}
    (hq : q ∈ evexForms p k d s2 o) :
    q.2.prefixes = p ∧ q.2.masking = k ∧ isVex q.2 = false ∧ lanesOf q.2 = q.1 ∧
      ∀ s, operandBytes s q.2 = evexOperandBytes s p k q.1 o := by
  simp only [evexForms, List.mem_cons, List.not_mem_nil, or_false] at hq
  obtain rfl | rfl | rfl | rfl | rfl | rfl | rfl | rfl | rfl := hq <;> exact ⟨rfl, rfl, rfl, rfl, fun _ => rfl⟩

/-- What the statements about every instruction read of an embedded-rounding form. -/
theorem parts_of_mem_erForms {k : Masking} {d s2 s3 : BitVec 5} {rc : RoundMode} {i : Instr}
    (hi : i ∈ erForms p k d s2 s3 rc) :
    i.prefixes = p ∧ i.masking = k ∧ isVex i = false ∧ lanesOf i = 16 := by
  simp only [erForms, List.mem_cons, List.not_mem_nil, or_false] at hi
  obtain rfl | rfl | rfl := hi <;> exact ⟨rfl, rfl, rfl, rfl⟩

end Parts

/-- With alignment checking off and its bytes accessible operand 3 of a VEX form is read (20_memory.md R55). -/
theorem readVexOp3_ok {s : State} {p : List LegacyPrefix} {kl : Nat} {o : VexOp3} (hac : pAc s)
    (h : ∀ a ∈ vexOperandBytes s p kl o, accessible s .read a) : ∃ src3, readVexOp3 s p kl o = .ok src3 := by
  cases o with
  | reg n => exact ⟨_, rfl⟩
  | mem m =>
    obtain ⟨ls, hls, -⟩ := readFull_ok (s := s) (seg := operandSegment p m) (act := List.replicate kl true)
      (a := linearAddress s p (vexLength p (.mem m)) 1 m)
      (by rw [misaligned_eq_false s _ _ (.inl hac), Bool.and_false]) fun j hj _ i hi =>
        accessByte_of_accessible _ (h _ (List.mem_map.2 ⟨4 * j + i, by
          rw [List.length_replicate] at hj
          exact List.mem_range.2 (by omega), rfl⟩))
    exact ⟨ls, hls⟩

/-- With alignment checking off and the bytes it reads accessible operand 3 of an EVEX form is read (20_memory.md R59). -/
theorem readEvexOp3_ok {s : State} {p : List LegacyPrefix} {k : Masking} {kl : Nat} {o : EvexOp3} (hac : pAc s)
    (h : ∀ a ∈ evexOperandBytes s p k kl o, accessible s .read a) :
    ∃ src3, readEvexOp3 s p (activeLanes s k kl) o = .ok src3 := by
  cases o with
  | reg n => exact ⟨_, rfl⟩
  | mem m =>
    have hlanes : LanesCome s (operandSegment p m) (activeLanes s k kl)
        (linearAddress s p (evexLength p (.mem m)) (4 * kl) m) := fun j hj hon i hi => by
      rw [activeLanes_length] at hj
      rw [activeLanes_getD_eq_active s k hj] at hon
      refine accessByte_of_accessible _ (h _ (List.mem_map.2 ⟨4 * j + i, List.mem_filter.2 ⟨?_, ?_⟩, rfl⟩))
      · exact List.mem_range.2 (by omega)
      · rw [show (4 * j + i) / 4 = j by omega, hon]
    obtain ⟨ls, hls, -⟩ := readFull_ok (by rw [misaligned_eq_false s _ _ (.inl hac), Bool.and_false]) hlanes
    exact ⟨ls, by rw [readEvexOp3, activeLanes_length]; exact hls⟩
  | bcst m =>
    cases hany : anyRead (activeLanes s k kl) with
    | false => exact ⟨_, readBroadcast_inactive hany⟩
    | true =>
      have hsome : ((List.range kl).any fun j => active s k j) = true := by
        obtain ⟨j, hj, hon⟩ := (anyRead_activeLanes s k kl).1 hany
        exact List.any_eq_true.2 ⟨j, List.mem_range.2 hj, hon⟩
      simp only [evexOperandBytes, hsome, if_true] at h
      obtain ⟨v, -, hv⟩ := readBroadcast_ok (s := s) (seg := operandSegment p m) hany
        (misaligned_eq_false s 4 (linearAddress s p (evexLength p (.bcst m)) 4 m) (.inl hac)) fun j hj _ i hi =>
          accessByte_of_accessible _ (h _ (List.mem_map.2 ⟨4 * j + i, List.mem_range.2 (by simp at hj; omega), rfl⟩))
      exact ⟨_, hv⟩

/-- Under the launch premises an instruction passes the checks, reads its operand and delivers its lanes (R263). -/
theorem exec_completes {i : Instr} {s : State} (hwf : i.wellFormed = true) (hen : enabled s i) (hac : pAc s) (hmem : pMem s i)
    (hmasked : pMasked s) : ∃ t, exec i s = .next t := by
  obtain ⟨hp, hk, hlen⟩ := wellFormed_parts hwf
  obtain ⟨kl, p, d, s2, o, hi⟩ | ⟨kl, p, k, d, s2, o, hi⟩ | ⟨p, k, d, s2, s3, rc, hi⟩ := mem_forms i
  · obtain ⟨f, hexec⟩ := exec_of_mem_vexForms hi
    obtain ⟨rfl, hvex, hbytes⟩ := parts_of_mem_vexForms hi
    rw [length_of_mem_vexForms _ hi] at hlen
    rw [enabled, if_pos hvex] at hen
    rw [pMem, hbytes] at hmem
    obtain ⟨src3, hread⟩ := readVexOp3_ok hac hmem
    obtain ⟨h1, h3, h4⟩ := vexUd_of_vexEnabled hen hp
    exact ⟨_, (hexec s).trans (execVex_completes f kl _ d s2 o s src3 h1 hlen h3 h4 hread (unmasked_of_pMasked hmasked _))⟩
  · obtain ⟨f, hexec⟩ := exec_of_mem_evexForms hi
    obtain ⟨rfl, rfl, hvex, hlanes, hbytes⟩ := parts_of_mem_evexForms hi
    rw [length_of_mem_evexForms _ hi] at hlen
    rw [enabled, if_neg (ne_true_of_eq_false hvex), hlanes] at hen
    rw [pMem, hbytes] at hmem
    obtain ⟨src3, hread⟩ := readEvexOp3_ok hac hmem
    obtain ⟨h1, h3, h4⟩ := evexUd_of_evexEnabled hen hp hk
    exact ⟨_, (hexec s).trans (execEvex_completes f kl _ _ d s2 o s src3 h1 hlen h3 h4 hread (unmasked_of_pMasked hmasked _))⟩
  · obtain ⟨f, hexec⟩ := exec_of_mem_erForms hi
    obtain ⟨rfl, rfl, hvex, hlanes⟩ := parts_of_mem_erForms hi
    rw [length_of_mem_erForms _ hi] at hlen
    rw [enabled, if_neg (ne_true_of_eq_false hvex), hlanes] at hen
    obtain ⟨h1, h3, h4⟩ := evexUd_of_evexEnabled hen hp hk
    exact ⟨_, (hexec s).trans (execEr_completes f _ _ d s2 s3 rc s h1 hlen h3 h4)⟩

/-- Settles O56: no template traps when every exception is masked, and the premises pass every check. -/
theorem maskedStateCompletesWithoutXm : Obligations.MaskedStateCompletesWithoutXm := by
  unfold Obligations.MaskedStateCompletesWithoutXm
  exact ⟨fun s s' h hx => step_not_xm h ⟨s', hx⟩, fun s i hwf hen hac hmem hmasked => exec_completes hwf hen hac hmem hmasked⟩

end Sys2Proof.Machine
end

section
/-! Sticky flags, and opmask bits at and above KL, do not influence an instruction: the statements O57 and O58. -/

namespace Sys2Proof.Machine

open Sys2Proof.Safety

/-- The state with more sticky flags and another opmask file. -/
def State.disturb (f : FlagSet) (κ : Vector (BitVec 64) 8 → Vector (BitVec 64) 8) (s : State) : State :=
  { s.orFlags f with k := κ s.k }

/-- An outcome with `u` applied to the state it carries. -/
def mapState (u : State → State) (r : Result) : Result :=
  match r with
  | .next t => .next (u t)
  | .fault g => .fault (withState g (u g.state))
  | .refused why => .refused why

theorem raise_eq_mapState (u : State → State) (e : Exc) (s : State) : raise e (u s) = mapState u (raise e s) := by
  cases e <;> rfl

theorem stopResult_eq_mapState (u : State → State) (q : Stop) (s : State) : q.result (u s) = mapState u (q.result s) := by
  cases q with
  | exc e => exact raise_eq_mapState u e s
  | refuse why => rfl

section Disturb
variable (f : FlagSet) (κ : Vector (BitVec 64) 8 → Vector (BitVec 64) 8) (s : State)

/-! ## Reads -/

theorem accessByte_disturb (kind : Config.AccessKind) (seg : Segment) (a : Addr) :
    accessByte (s.disturb f κ) kind seg a = accessByte s kind seg a := rfl

theorem memRead_disturb (seg : Segment) (n : Nat) (a : Addr) : memRead (s.disturb f κ) seg n a = memRead s seg n a := by
  induction n generalizing a with
  | zero => rfl
  | succ n ih => simp only [memRead, accessByte_disturb, ih]

theorem lowestStop_disturb (seg : Segment) (as : List Addr) : lowestStop (s.disturb f κ) seg as = lowestStop s seg as := by
  induction as with
  | nil => rfl
  | cons a as ih => simp only [lowestStop, accessByte_disturb, ih]

theorem readLanes_disturb (seg : Segment) (act : List Bool) (a : Addr) :
    readLanes (s.disturb f κ) seg act a = readLanes s seg act a := by
  induction act generalizing a with
  | nil => rfl
  | cons on act ih => simp only [readLanes, memRead_disturb, ih]

theorem misaligned_disturb (size : Nat) (a : Addr) : misaligned (s.disturb f κ) size a = misaligned s size a := rfl

theorem readFull_disturb (seg : Segment) (act : List Bool) (a : Addr) :
    readFull (s.disturb f κ) seg act a = readFull s seg act a := by
  simp only [readFull, misaligned_disturb, lowestStop_disturb, readLanes_disturb]

theorem readBroadcast_disturb (seg : Segment) (act : List Bool) (a : Addr) :
    readBroadcast (s.disturb f κ) seg act a = readBroadcast s seg act a := by
  simp only [readBroadcast, misaligned_disturb, lowestStop_disturb, memRead_disturb]

theorem linearAddress_disturb (p : List LegacyPrefix) (len n : Nat) (m : MemForm) :
    linearAddress (s.disturb f κ) p len n m = linearAddress s p len n m := by
  cases m with
  | ripRel v => rfl
  | base b d => rfl
  | sib b i d => cases i <;> rfl
  | sibNoBase i v => cases i <;> rfl

theorem readVexOp3_disturb (p : List LegacyPrefix) (kl : Nat) (o : VexOp3) :
    readVexOp3 (s.disturb f κ) p kl o = readVexOp3 s p kl o := by
  cases o with
  | reg n => rfl
  | mem m => simp only [readVexOp3, linearAddress_disturb, readFull_disturb]

theorem readEvexOp3_disturb (p : List LegacyPrefix) (act : List Bool) (o : EvexOp3) :
    readEvexOp3 (s.disturb f κ) p act o = readEvexOp3 s p act o := by
  cases o with
  | reg n => rfl
  | mem m => simp only [readEvexOp3, linearAddress_disturb, readFull_disturb]
  | bcst m => simp only [readEvexOp3, linearAddress_disturb, readBroadcast_disturb]

/-! ## MXCSR -/

/-- A bit of MXCSR above the flags is as before. -/
theorem getLsbD_or_flags (m : BitVec 32) {j : Nat} (hj : 6 ≤ j) : (m ||| f.setWidth 32).getLsbD j = m.getLsbD j := by
  rw [BitVec.getLsbD_or, BitVec.getLsbD_setWidth, BitVec.getLsbD_of_ge f j hj, Bool.and_false, Bool.or_false]

/-- A field of MXCSR above the flags is as before. -/
theorem extractLsb'_or_flags (m : BitVec 32) {j : Nat} (n : Nat) (hj : 6 ≤ j) :
    (m ||| f.setWidth 32).extractLsb' j n = m.extractLsb' j n := by
  apply BitVec.eq_of_getLsbD_eq
  intro i _
  rw [BitVec.getLsbD_extractLsb', BitVec.getLsbD_extractLsb', getLsbD_or_flags f m (by omega)]

theorem mxMasks_disturb : mxMasks (s.disturb f κ).mxcsr = mxMasks s.mxcsr := extractLsb'_or_flags f s.mxcsr 6 (by omega)

theorem mxDaz_disturb : mxDaz (s.disturb f κ).mxcsr = mxDaz s.mxcsr := getLsbD_or_flags f s.mxcsr (by omega)

theorem mxFtz_disturb : mxFtz (s.disturb f κ).mxcsr = mxFtz s.mxcsr := getLsbD_or_flags f s.mxcsr (by omega)

theorem mxControl_disturb : mxControl (s.disturb f κ).mxcsr = mxControl s.mxcsr := by
  have hrc : mxRc (s.disturb f κ).mxcsr = mxRc s.mxcsr :=
    congrArg RoundMode.ofBits (extractLsb'_or_flags f s.mxcsr 2 (by omega))
  have hom : mxOm (s.disturb f κ).mxcsr = mxOm s.mxcsr := getLsbD_or_flags f s.mxcsr (by omega)
  have hum : mxUm (s.disturb f κ).mxcsr = mxUm s.mxcsr := getLsbD_or_flags f s.mxcsr (by omega)
  rw [mxControl, mxControl, hrc, mxDaz_disturb, mxFtz_disturb, hom, hum]

theorem erControl_disturb (rc : RoundMode) : erControl rc (s.disturb f κ).mxcsr = erControl rc s.mxcsr := by
  rw [erControl, erControl, mxDaz_disturb, mxFtz_disturb]

/-! ## The end of an instruction -/

theorem orFlags_disturb (g : FlagSet) : (s.disturb f κ).orFlags g = (s.orFlags g).disturb f κ := by
  have hmx : (s.mxcsr ||| f.setWidth 32) ||| g.setWidth 32 = (s.mxcsr ||| g.setWidth 32) ||| f.setWidth 32 := by
    rw [BitVec.or_assoc, BitVec.or_comm (f.setWidth 32), ← BitVec.or_assoc]
  simp only [State.disturb, State.orFlags, hmx]

theorem writeBack_disturb (d : BitVec 5) (v : Vec) (len : Nat) :
    writeBack (s.disturb f κ) d v len = (writeBack s d v len).disturb f κ := rfl

theorem complete_disturb (d : BitVec 5) (fs : List FlagSet) (v : Vec) (len : Nat) :
    complete (s.disturb f κ) d fs v len = mapState (State.disturb f κ) (complete s d fs v len) := by
  rw [complete, complete, mxMasks_disturb]
  cases simdFpOutcome fs (mxMasks s.mxcsr) with
  | deliver g =>
    show Host.Outcome.next (writeBack ((s.disturb f κ).orFlags g) d v len) = _
    rw [orFlags_disturb, writeBack_disturb]
    rfl
  | trap g =>
    show raise _ ((s.disturb f κ).orFlags g) = _
    rw [orFlags_disturb]
    exact raise_eq_mapState (State.disturb f κ) _ (s.orFlags g)

theorem guarded_disturb (len : Nat) (ud : Bool) {go go' : Result} (h : go' = mapState (State.disturb f κ) go) :
    guarded (s.disturb f κ) len ud go' = mapState (State.disturb f κ) (guarded s len ud go) := by
  have hmode : modeRefused (s.disturb f κ) = modeRefused s := rfl
  have hts : crTs (s.disturb f κ) = crTs s := rfl
  rw [guarded, guarded, hmode, hts, h]
  split_ifs
  · rfl
  · exact raise_eq_mapState _ _ s
  · exact raise_eq_mapState _ _ s
  · exact raise_eq_mapState _ _ s
  · rfl

/-! ## The instructions -/

theorem execVex_disturb (fm : Form) (kl : Nat) (p : List LegacyPrefix) (d s2 : BitVec 4) (o : VexOp3) :
    execVex fm kl p d s2 o (s.disturb f κ) = mapState (State.disturb f κ) (execVex fm kl p d s2 o s) := by
  refine guarded_disturb f κ s _ _ ?_
  rw [readVexOp3_disturb, mxControl_disturb]
  cases readVexOp3 s p kl o with
  | error q => exact stopResult_eq_mapState _ q s
  | ok src3 => exact complete_disturb f κ s _ _ _ _

/-- The same lanes are active when the opmask file agrees below KL. -/
theorem activeLanes_disturb {k : Masking} {kl : Nat}
    (hk : ∀ j < kl, ((s.disturb f κ).getK k.aaa).getLsbD j = (s.getK k.aaa).getLsbD j) :
    activeLanes (s.disturb f κ) k kl = activeLanes s k kl :=
  List.map_congr_left fun j hj => by rw [hk j (List.mem_range.1 hj)]

theorem execEvex_disturb (fm : Form) (kl : Nat) (p : List LegacyPrefix) (k : Masking) (d s2 : BitVec 5) (o : EvexOp3)
    (hk : ∀ j < kl, ((s.disturb f κ).getK k.aaa).getLsbD j = (s.getK k.aaa).getLsbD j) :
    execEvex fm kl p k d s2 o (s.disturb f κ) = mapState (State.disturb f κ) (execEvex fm kl p k d s2 o s) := by
  refine guarded_disturb f κ s _ _ ?_
  rw [activeLanes_disturb f κ s hk, readEvexOp3_disturb, mxControl_disturb]
  cases readEvexOp3 s p (activeLanes s k kl) o with
  | error q => exact stopResult_eq_mapState _ q s
  | ok src3 => exact complete_disturb f κ s _ _ _ _

theorem execEr_disturb (fm : Form) (p : List LegacyPrefix) (k : Masking) (d s2 s3 : BitVec 5) (rc : RoundMode)
    (hk : ∀ j < 16, ((s.disturb f κ).getK k.aaa).getLsbD j = (s.getK k.aaa).getLsbD j) :
    execEr fm p k d s2 s3 rc (s.disturb f κ) = mapState (State.disturb f κ) (execEr fm p k d s2 s3 rc s) := by
  refine guarded_disturb f κ s _ _ ?_
  rw [activeLanes_disturb f κ s hk, erControl_disturb]
  rfl

/-- More sticky flags, and an opmask file that agrees below KL, change an instruction's outcome by themselves alone. -/
theorem exec_disturb (i : Instr)
    (hk : ∀ (r : BitVec 3), ∀ j < lanesOf i, ((s.disturb f κ).getK r).getLsbD j = (s.getK r).getLsbD j) :
    exec i (s.disturb f κ) = mapState (State.disturb f κ) (exec i s) := by
  obtain ⟨kl, p, d, s2, o, hi⟩ | ⟨kl, p, k, d, s2, o, hi⟩ | ⟨p, k, d, s2, s3, rc, hi⟩ := mem_forms i
  · obtain ⟨fm, hexec⟩ := exec_of_mem_vexForms hi
    rw [hexec, hexec]
    exact execVex_disturb f κ s fm kl p d s2 o
  · obtain ⟨fm, hexec⟩ := exec_of_mem_evexForms hi
    obtain ⟨-, -, -, hlanes, -⟩ := parts_of_mem_evexForms hi
    rw [hlanes] at hk
    rw [hexec, hexec]
    exact execEvex_disturb f κ s fm kl p k d s2 o (hk k.aaa)
  · obtain ⟨fm, hexec⟩ := exec_of_mem_erForms hi
    obtain ⟨-, -, -, hlanes⟩ := parts_of_mem_erForms hi
    rw [hlanes] at hk
    rw [hexec, hexec]
    exact execEr_disturb f κ s fm p k d s2 s3 rc (hk k.aaa)

end Disturb

/-! ## The step -/

theorem fetchBytes_disturb (f : FlagSet) (κ : Vector (BitVec 64) 8 → Vector (BitVec 64) 8) (s : State) (n : Nat) (a : Addr) :
    fetchBytes (s.disturb f κ) n a = fetchBytes s n a := by
  induction n generalizing a with
  | zero => rfl
  | succ n ih => simp only [fetchBytes, accessByte_disturb, ih]

/-- The same bytes are fetched and decoded, and the instruction runs alike. -/
theorem step_orFlags (s : State) (f : FlagSet) : step (s.orFlags f) = mapState (fun t => t.orFlags f) (step s) := by
  show step (s.disturb f id) = mapState (State.disturb f id) (step s)
  by_cases hmode : pMode s
  · have hmode' : pMode (s.disturb f id) := hmode
    have hbytes : fetchBytes (s.disturb f id) (fetchLimit (s.disturb f id)) (s.disturb f id).rip =
        fetchBytes s (fetchLimit s) s.rip := fetchBytes_disturb f id s _ _
    cases hd : decode (fetchBytes s (fetchLimit s) s.rip).1 with
    | instr i rest =>
      rw [step_of_instr hmode hd, step_of_instr hmode' (by rw [hbytes]; exact hd)]
      exact exec_disturb f id s i fun _ _ _ => rfl
    | undefined rest =>
      rw [step_of_undefined hmode hd, step_of_undefined hmode' (by rw [hbytes]; exact hd), hbytes]
      exact raise_eq_mapState _ _ s
    | notInScope why =>
      rw [step_of_notInScope hmode hd, step_of_notInScope hmode' (by rw [hbytes]; exact hd)]
      rfl
    | needMore =>
      obtain ⟨q, hq⟩ := fetchLimit_suffices s s.rip hd
      rw [step_of_needMore hmode hd hq, step_of_needMore hmode' (by rw [hbytes]; exact hd) (by rw [hbytes]; exact hq)]
      exact stopResult_eq_mapState _ q s
  · rw [step_of_modeRefused s hmode, step_of_modeRefused (s.disturb f id) hmode]
    rfl

/-- Settles O57, by the step under more sticky flags, outcome by outcome. -/
theorem stickyFlagsDoNotInfluence : Obligations.StickyFlagsDoNotInfluence := by
  unfold Obligations.StickyFlagsDoNotInfluence
  intro s f
  rw [step_orFlags]
  exact ⟨fun t h => by rw [h]; rfl, fun g h => by rw [h]; rfl, fun r h => by rw [h]; rfl⟩

/-- Settles O58, by the instruction under another opmask file, outcome by outcome. -/
theorem highOpmaskBitsAreIgnored : Obligations.HighOpmaskBitsAreIgnored := by
  unfold Obligations.HighOpmaskBitsAreIgnored
  intro i s k' hk
  have hdisturb : ∀ t : State, t.disturb 0 (fun _ => k') = { t with k := k' } := fun t => by
    rw [State.disturb, State.orFlags_zero]
  have hexec := exec_disturb 0 (fun _ => k') s i (by rw [hdisturb]; exact hk)
  rw [hdisturb] at hexec
  rw [hexec]
  refine ⟨fun t h => ?_, fun g h => ?_, fun r h => by rw [h]; rfl⟩
  · rw [h, ← hdisturb t]
    rfl
  · rw [h, ← hdisturb g.state]
    rfl

end Sys2Proof.Machine
end

section
/-! SUPPORT. Where the two roundings end: the exponent after the rounding with unbounded exponent, by a bound on the exact
magnitude, and the classes of tiny and overflowing values of 40_fnmsub_lane_arithmetic.md R143 and R144. -/

namespace Sys2Proof.Machine

open Sys2Proof.Safety

/-! ## One step of rounding -/

/-- A quotient between `low` and the next multiple of `den`, an odd number of times `den` below it, is rounded up. -/
def RoundsUp (side : RoundingSide) (num low den : Nat) : Prop :=
  match side with
  | .nearest => 2 * low + den ≤ 2 * num
  | .away => low < num
  | .toward => False

section RoundInt
variable {num den k : Nat} {s : Bool} {rm : RoundMode}

/-- Toward zero the quotient stays (40_fnmsub_lane_arithmetic.md R142). -/
theorem roundInt_of_toward (h : roundingSide rm s = .toward) : (roundInt num den s rm).1 = num / den := by
  unfold roundInt
  split
  · rfl
  · cases rm <;> cases s <;> simp [roundingSide] at h ⊢

/-- Away from zero a quotient that is not exact goes up (40_fnmsub_lane_arithmetic.md R142). -/
theorem roundInt_of_away (h : roundingSide rm s = .away) :
    (roundInt num den s rm).1 = if num % den = 0 then num / den else num / den + 1 := by
  unfold roundInt
  split
  · rfl
  · cases rm <;> cases s <;> simp [roundingSide] at h ⊢

/-- To nearest a quotient goes up past the half, and at the half when it is odd (40_fnmsub_lane_arithmetic.md R142). -/
theorem roundInt_of_nearest (h : roundingSide rm s = .nearest) :
    (roundInt num den s rm).1 =
      if den < 2 * (num % den) ∨ (2 * (num % den) = den ∧ num / den % 2 = 1 ∧ num % den ≠ 0) then num / den + 1
      else num / den := by
  obtain rfl : rm = .rn := by cases rm <;> cases s <;> simp_all [roundingSide]
  unfold roundInt
  by_cases h0 : num % den = 0
  · simp [h0]
  · simp [h0]

/-- Whether a quotient below an even number is rounded up to it. -/
theorem roundInt_eq_succ_iff (hlow : k * den ≤ num) (hhigh : num < (k + 1) * den) (hodd : k % 2 = 1) :
    (roundInt num den s rm).1 = k + 1 ↔ RoundsUp (roundingSide rm s) num (k * den) den := by
  have hdiv : num / den = k := Nat.div_eq_of_lt_le hlow hhigh
  have hmod : num % den = num - k * den := by
    have := Nat.div_add_mod num den
    rw [hdiv, Nat.mul_comm] at this
    omega
  rw [Nat.add_mul, Nat.one_mul] at hhigh
  cases hside : roundingSide rm s with
  | nearest =>
    rw [roundInt_of_nearest hside, hdiv, hmod, RoundsUp]
    split <;> omega
  | away =>
    rw [roundInt_of_away hside, hdiv, hmod, RoundsUp]
    split <;> omega
  | toward =>
    rw [roundInt_of_toward hside, hdiv, RoundsUp]
    exact iff_of_false (by omega) id

end RoundInt

/-! ## The exponent after the rounding with unbounded exponent -/

/-- Rounded to 24 bits, a magnitude `a` reaches `2^n`. -/
def Reaches (side : RoundingSide) (a n : Nat) : Prop :=
  match side with
  | .nearest => (2 ^ 25 - 1) * 2 ^ n ≤ a * 2 ^ 25
  | .away => (2 ^ 24 - 1) * 2 ^ n < a * 2 ^ 24
  | .toward => 2 ^ n ≤ a

theorem reaches_of_le {a n : Nat} (side : RoundingSide) (h : 2 ^ n ≤ a) : Reaches side a n := by
  have hpos := Nat.two_pow_pos n
  cases side
  · rw [Reaches]; omega
  · rw [Reaches]; omega
  · exact h

/-- A magnitude that reaches `2^n` is more than half of it. -/
theorem lt_of_reaches {side : RoundingSide} {a n : Nat} (h : Reaches side a n) : 2 ^ n < 2 * a := by
  have hpos := Nat.two_pow_pos n
  cases side
  · rw [Reaches] at h; omega
  · rw [Reaches] at h; omega
  · rw [Reaches] at h; omega

/-- The significand carries exactly when the magnitude reaches the next power of two. -/
theorem carry_iff (s : Bool) (rm : RoundMode) {a n : Nat} (hhigh : a < 2 ^ (n + 1)) :
    (roundInt (a * 2 ^ 23) (2 ^ n) s rm).1 = 2 ^ 24 ↔ Reaches (roundingSide rm s) a (n + 1) := by
  rw [pow_succ] at hhigh
  have hreach : Reaches (roundingSide rm s) a (n + 1) ↔
      RoundsUp (roundingSide rm s) (a * 2 ^ 23) ((2 ^ 24 - 1) * 2 ^ n) (2 ^ n) := by
    cases roundingSide rm s
    · rw [Reaches, RoundsUp, pow_succ 2 n]; omega
    · rw [Reaches, RoundsUp, pow_succ 2 n]; omega
    · rw [Reaches, RoundsUp, pow_succ 2 n]
      exact iff_of_false (by omega) id
  rw [hreach]
  by_cases htop : (2 ^ 24 - 1) * 2 ^ n ≤ a * 2 ^ 23
  · exact roundInt_eq_succ_iff (k := 2 ^ 24 - 1) htop (by omega) (by norm_num)
  · have hle := roundInt_le s rm (num := a * 2 ^ 23) (k := 2 ^ 24 - 1) (Nat.two_pow_pos n) (by omega)
    refine iff_of_false (by omega) ?_
    cases roundingSide rm s
    · rw [RoundsUp]; omega
    · rw [RoundsUp]; omega
    · exact id

/-- The exponent of the rounded value is at least `n` exactly when the magnitude reaches `2^n`. -/
theorem le_exponent_iff (s : Bool) (rm : RoundMode) {a : Nat} (ha : a ≠ 0) (n : Nat) :
    (n : Int) - 298 ≤ (roundUnbounded s a rm).2.1 ↔ Reaches (roundingSide rm s) a n := by
  have hlow : 2 ^ Nat.log2 a ≤ a := Nat.log2_self_le ha
  have hhigh : a < 2 ^ (Nat.log2 a + 1) := Nat.lt_log2_self
  have hcarry := carry_iff s rm hhigh
  have hcases := roundUnbounded_cases s a rm _ rfl
  generalize Nat.log2 a = l at *
  obtain hn | rfl | hn : n ≤ l ∨ n = l + 1 ∨ l + 1 < n := by omega
  · have hreach := reaches_of_le (roundingSide rm s) ((Nat.pow_le_pow_right (by omega) hn).trans hlow)
    refine iff_of_true ?_ hreach
    obtain ⟨-, e⟩ | ⟨-, e⟩ := hcases <;> rw [e] <;> dsimp only <;> omega
  · rw [← hcarry]
    obtain ⟨hc, e⟩ | ⟨hc, e⟩ := hcases
    · exact iff_of_true (by rw [e]; push_cast; omega) hc
    · exact iff_of_false (by rw [e]; push_cast; omega) hc
  · have hreach : ¬Reaches (roundingSide rm s) a n := fun h => by
      have hlt := lt_of_reaches h
      have hpow : 2 ^ (l + 1 + 1) ≤ 2 ^ n := Nat.pow_le_pow_right (by omega) hn
      rw [pow_succ 2 (l + 1)] at hpow
      omega
    refine iff_of_false ?_ hreach
    obtain ⟨-, e⟩ | ⟨-, e⟩ := hcases <;> rw [e] <;> dsimp only <;> omega

/-! ## Tiny and overflowing values -/

theorem not_reaches_zero (side : RoundingSide) (n : Nat) : ¬Reaches side 0 n := fun h => by
  have := lt_of_reaches h
  have := Nat.two_pow_pos n
  omega

/-- A value overflows exactly when its magnitude reaches 2^128. -/
theorem overflows_iff_reaches (rm : RoundMode) (e : Int) :
    overflows rm e ↔ Reaches (roundingSide rm (decide (e < 0))) e.natAbs 426 := by
  obtain ⟨n, hn⟩ : ∃ n, n = 426 := ⟨_, rfl⟩
  have hpow : 2 ^ n = 2 ^ 128 * 2 ^ 298 := by rw [hn, ← pow_add]
  unfold overflows
  rw [← hn]
  generalize 2 ^ 298 = P at *
  cases roundingSide rm (decide (e < 0))
  · rw [Reaches, hpow]
    dsimp only
    omega
  · rw [Reaches, hpow]
    dsimp only
    omega
  · rw [Reaches, hpow]

/-- A value other than zero is tiny exactly when its magnitude does not reach 2^-126. -/
theorem tiny_iff_not_reaches (rm : RoundMode) (e : Int) (he : e ≠ 0) :
    tiny rm e ↔ ¬Reaches (roundingSide rm (decide (e < 0))) e.natAbs 172 := by
  unfold tiny
  rw [and_iff_right he]
  cases roundingSide rm (decide (e < 0))
  · rw [Reaches]; dsimp only; omega
  · rw [Reaches]; dsimp only; omega
  · rw [Reaches, Nat.not_le]

/-- The three ways of step 7 on, by what the exact value is (40_fnmsub_lane_arithmetic.md R143 to R145). -/
theorem roundFinite_classes (e : Int) (c : FpControl) (fl : FlagSet) (he : e ≠ 0) (m : Nat × Int × Bool)
    (hm : roundUnbounded (decide (e < 0)) e.natAbs c.rm = m) :
    (tiny c.rm e ∧ ¬overflows c.rm e ∧
      roundFinite (decide (e < 0)) e.natAbs c fl = tinyResult (decide (e < 0)) e.natAbs m.2.2 c fl) ∨
    (¬tiny c.rm e ∧ overflows c.rm e ∧
      roundFinite (decide (e < 0)) e.natAbs c fl = overflowResult (decide (e < 0)) m.2.2 c fl) ∨
    (¬tiny c.rm e ∧ ¬overflows c.rm e ∧ -126 ≤ m.2.1 ∧ m.2.1 ≤ 127 ∧
      roundFinite (decide (e < 0)) e.natAbs c fl =
        ⟨some (f32Make (decide (e < 0)) (m.2.1 + 127).toNat m.1), fl ||| flagIf m.2.2 flagPE⟩) := by
  have ha : e.natAbs ≠ 0 := Int.natAbs_ne_zero.2 he
  have htiny : -126 ≤ m.2.1 ↔ _ := hm ▸ le_exponent_iff (decide (e < 0)) c.rm ha 172
  have hover : 128 ≤ m.2.1 ↔ _ := hm ▸ le_exponent_iff (decide (e < 0)) c.rm ha 426
  rw [tiny_iff_not_reaches c.rm e he, overflows_iff_reaches, ← htiny, ← hover]
  obtain ⟨h, eq⟩ | ⟨h, eq⟩ | ⟨h, h', eq⟩ := roundFinite_cases (decide (e < 0)) e.natAbs c fl m hm
  · exact .inl ⟨by omega, by omega, eq⟩
  · exact .inr (.inl ⟨by omega, by omega, eq⟩)
  · exact .inr (.inr ⟨by omega, by omega, h, h', eq⟩)

end Sys2Proof.Machine
end

section
/-! Overflow and tiny results (40_fnmsub_lane_arithmetic.md R143, R144): the statements O20 and O21. -/

namespace Sys2Proof.Machine

open Sys2Proof.Safety

/-! ## A lane of finite operands, by what its exact value is -/

theorem ne_zero_of_overflows {rm : RoundMode} {e : Int} (h : overflows rm e) : e ≠ 0 := fun h0 => by
  rw [overflows_iff_reaches, Int.natAbs_eq_zero.2 h0] at h
  exact not_reaches_zero _ _ h

/-- The rounding with unbounded exponent is inexact exactly when the 24 bits of the significand are not all there are. -/
theorem roundUnbounded_inexact (s : Bool) (a : Nat) (rm : RoundMode) :
    (roundUnbounded s a rm).2.2 = true ↔ a * 2 ^ 23 % 2 ^ Nat.log2 a ≠ 0 := by
  refine Iff.trans ?_ (roundInt_inexact _ _ s rm)
  obtain ⟨m, hm⟩ : ∃ m, roundInt (a * 2 ^ 23) (2 ^ Nat.log2 a) s rm = m := ⟨_, rfl⟩
  rw [hm]
  obtain ⟨-, e⟩ | ⟨-, e⟩ := roundUnbounded_cases s a rm m hm
  · rw [e]
  · rw [e]

/-- Steps 6 to 10 of a lane of finite operands with exact value `e`: a zero, a tiny result, an overflowing one, or a normal
datum; no flag but DE is signalled before. -/
theorem fnmsub32_classes (x y z : F32) (c : FpControl) (hfin : allFinite x y z) (e : Int) (he : laneExact x y z c = e)
    (m : Nat × Int × Bool) (hm : roundUnbounded (decide (e < 0)) e.natAbs c.rm = m) :
    ∃ fl : FlagSet, (∀ j ≠ 1, fl.getLsbD j = false) ∧
      ((e = 0 ∧ ∃ s, fnmsub32 x y z c = ⟨some (f32Zero s), fl⟩) ∨
       (tiny c.rm e ∧ ¬overflows c.rm e ∧ fnmsub32 x y z c = tinyResult (decide (e < 0)) e.natAbs m.2.2 c fl) ∨
       (¬tiny c.rm e ∧ overflows c.rm e ∧ fnmsub32 x y z c = overflowResult (decide (e < 0)) m.2.2 c fl) ∨
       (e ≠ 0 ∧ ¬tiny c.rm e ∧ ¬overflows c.rm e ∧ -126 ≤ m.2.1 ∧ m.2.1 ≤ 127 ∧
          fnmsub32 x y z c =
            ⟨some (f32Make (decide (e < 0)) (m.2.1 + 127).toNat m.1), fl ||| flagIf m.2.2 flagPE⟩)) := by
  subst he
  refine ⟨_, denormalFlag_ne_de (dazOperand c.daz x) (dazOperand c.daz y) (dazOperand c.daz z), ?_⟩
  by_cases h0 : laneExact x y z c = 0
  · obtain ⟨s, hs⟩ := zeroResult_eq_zero (dazOperand c.daz x) (dazOperand c.daz y) (dazOperand c.daz z) c.rm
    exact .inl ⟨h0, s, by rw [fnmsub32_of_laneExact_zero x y z c hfin h0, hs]⟩
  · rw [fnmsub32_of_laneExact_ne_zero x y z c hfin h0]
    generalize denormalFlag (dazOperand c.daz x) (dazOperand c.daz y) (dazOperand c.daz z) = fl
    obtain h | h | h := roundFinite_classes _ c fl h0 m hm
    · exact .inr (.inl h)
    · exact .inr (.inr (.inl h))
    · exact .inr (.inr (.inr ⟨h0, h⟩))

/-! ## The flags of the rounding, bit by bit -/

theorem getLsbD_flagOE (j : Nat) : flagOE.getLsbD j = decide (3 = j) := by
  rw [show flagOE = BitVec.twoPow 6 3 from rfl, BitVec.getLsbD_twoPow]
  simp

theorem getLsbD_flagUE (j : Nat) : flagUE.getLsbD j = decide (4 = j) := by
  rw [show flagUE = BitVec.twoPow 6 4 from rfl, BitVec.getLsbD_twoPow]
  simp

theorem getLsbD_flagPE (j : Nat) : flagPE.getLsbD j = decide (5 = j) := by
  rw [show flagPE = BitVec.twoPow 6 5 from rfl, BitVec.getLsbD_twoPow]
  simp

/-- PE after a step that signals another flag first. -/
theorem getLsbD_five_of_flagIf {fl f : FlagSet} (inex : Bool) (hfl : fl.getLsbD 5 = false) (hf : f.getLsbD 5 = false) :
    (fl ||| f ||| flagIf inex flagPE).getLsbD 5 = inex := by
  rw [BitVec.getLsbD_or, BitVec.getLsbD_or, getLsbD_flagIf, hfl, hf, getLsbD_flagPE, decide_eq_true rfl, Bool.and_true,
    Bool.or_false, Bool.false_or]

/-- The rounding of a normal result signals PE only. -/
theorem getLsbD_or_flagIf_flagPE {fl : FlagSet} {inex : Bool} {j : Nat} (hj : j ≠ 5) :
    (fl ||| flagIf inex flagPE).getLsbD j = fl.getLsbD j := by
  rw [BitVec.getLsbD_or, getLsbD_flagIf, getLsbD_flagPE, decide_eq_false hj.symm, Bool.and_false, Bool.or_false]

/-! ## Overflow -/

/-- The masked answer to an overflow, by the direction of the rounding (40_fnmsub_lane_arithmetic.md R144). -/
theorem overflowResult_of_masked (s inex : Bool) (c : FpControl) (fl : FlagSet) (hom : c.om = true) :
    overflowResult s inex c fl =
      ⟨some (if roundingSide c.rm s = .toward then f32Max s else f32Inf s), fl ||| flagOE ||| flagPE⟩ := by
  unfold overflowResult
  rw [hom]
  cases c.rm <;> cases s <;> rfl

theorem overflowResult_of_unmasked (s inex : Bool) (c : FpControl) (fl : FlagSet) (hom : c.om = false) :
    overflowResult s inex c fl = ⟨none, fl ||| flagOE ||| flagIf inex flagPE⟩ := by
  unfold overflowResult
  rw [hom]
  rfl

/-- An overflow, and nothing else, signals OE. -/
theorem overflowResult_oe (s inex : Bool) (c : FpControl) (fl : FlagSet) :
    (overflowResult s inex c fl).fl.getLsbD 3 = true := by
  cases hom : c.om
  · rw [overflowResult_of_unmasked s inex c fl hom]
    exact getLsbD_or_or rfl
  · rw [overflowResult_of_masked s inex c fl hom]
    exact getLsbD_or_or rfl

/-- The rounding of a tiny value signals UE and PE only. -/
theorem tinyResult_oe (s : Bool) (a : Nat) (inex : Bool) (c : FpControl) (fl : FlagSet) :
    (tinyResult s a inex c fl).fl.getLsbD 3 = fl.getLsbD 3 := by
  obtain ⟨-, e⟩ | ⟨-, -, e⟩ | ⟨-, -, e⟩ := tinyResult_cases s a inex c fl _ rfl
  · simp [e, getLsbD_flagIf, getLsbD_flagUE, getLsbD_flagPE, -BitVec.getLsbD_eq_getElem]
  · simp [e, getLsbD_flagUE, getLsbD_flagPE, -BitVec.getLsbD_eq_getElem]
  · simp [e, getLsbD_flagIf, getLsbD_flagUE, getLsbD_flagPE, -BitVec.getLsbD_eq_getElem]

/-- Settles O20, by the classes of the exact value and the two answers to an overflow. -/
theorem overflowExactlyAtTheThreshold : Obligations.OverflowExactlyAtTheThreshold := by
  unfold Obligations.OverflowExactlyAtTheThreshold
  intro x y z c hfin
  obtain ⟨e, he⟩ : ∃ e, laneExact x y z c = e := ⟨_, rfl⟩
  rw [he]
  have hinex := roundUnbounded_inexact (decide (e < 0)) e.natAbs c.rm
  obtain ⟨m, hm⟩ : ∃ m, roundUnbounded (decide (e < 0)) e.natAbs c.rm = m := ⟨_, rfl⟩
  rw [hm] at hinex
  obtain ⟨fl, hfl, hcases⟩ := fnmsub32_classes x y z c hfin e he m hm
  have hfl3 := hfl 3 (by omega)
  obtain ⟨rfl, s, eq⟩ | ⟨-, hover, eq⟩ | ⟨-, hover, eq⟩ | ⟨-, -, hover, -, -, eq⟩ := hcases
  case inl =>
    have hover : ¬overflows c.rm 0 := fun h => ne_zero_of_overflows h rfl
    exact ⟨iff_of_false (by rw [eq, hfl3]; exact Bool.false_ne_true) hover,
      fun h => absurd h hover, fun h => absurd h hover⟩
  case inr.inl =>
    exact ⟨iff_of_false (by rw [eq, tinyResult_oe, hfl3]; exact Bool.false_ne_true) hover,
      fun h => absurd h hover, fun h => absurd h hover⟩
  case inr.inr.inr =>
    exact ⟨iff_of_false (by rw [eq, getLsbD_or_flagIf_flagPE (by omega), hfl3]; exact Bool.false_ne_true) hover,
      fun h => absurd h hover, fun h => absurd h hover⟩
  case inr.inr.inl =>
    rw [eq]
    refine ⟨iff_of_true (overflowResult_oe ..) hover, fun _ hom => ?masked, fun _ hom => ?unmasked⟩
    case masked =>
      rw [overflowResult_of_masked _ _ c fl hom]
      refine ⟨by simp [getLsbD_flagPE, -BitVec.getLsbD_eq_getElem], ?_⟩
      cases roundingSide c.rm (decide (e < 0)) <;> cases decide (e < 0) <;> rfl
    case unmasked =>
      rw [overflowResult_of_unmasked _ _ c fl hom]
      exact ⟨rfl, by rw [getLsbD_five_of_flagIf _ (hfl 5 (by omega)) rfl, hinex]⟩

/-! ## Tiny results -/

/-- An overflow does not signal UE. -/
theorem overflowResult_ue (s inex : Bool) (c : FpControl) (fl : FlagSet) :
    (overflowResult s inex c fl).fl.getLsbD 4 = fl.getLsbD 4 := by
  cases hom : c.om
  · simp [overflowResult_of_unmasked s inex c fl hom, getLsbD_flagIf, getLsbD_flagOE, getLsbD_flagPE,
      -BitVec.getLsbD_eq_getElem]
  · simp [overflowResult_of_masked s inex c fl hom, getLsbD_flagOE, getLsbD_flagPE, -BitVec.getLsbD_eq_getElem]

/-- A tiny exact value is at most 2^-126 in magnitude. -/
theorem natAbs_le_of_tiny {rm : RoundMode} {e : Int} (h : tiny rm e) : e.natAbs ≤ 2 ^ 172 := by
  rw [tiny_iff_not_reaches rm e h.1] at h
  by_contra hn
  exact h (reaches_of_le _ (by omega))

/-- Settles O21, by the classes of the exact value and the three answers to a tiny one; that PE tells of a delivered denormal
whether it is the exact value is O17. -/
theorem tinyResultsUnderflow : Obligations.TinyResultsUnderflow := by
  unfold Obligations.TinyResultsUnderflow
  intro x y z c hfin
  have hprecision := precisionFlagExactlyWhenInexact x y z
  obtain ⟨e, he⟩ : ∃ e, laneExact x y z c = e := ⟨_, rfl⟩
  have hinex := roundUnbounded_inexact (decide (e < 0)) e.natAbs c.rm
  obtain ⟨m, hm⟩ : ∃ m, roundUnbounded (decide (e < 0)) e.natAbs c.rm = m := ⟨_, rfl⟩
  rw [hm] at hinex
  obtain ⟨fl, hfl, hcases⟩ := fnmsub32_classes x y z c hfin e he m hm
  rw [he]
  have hfl4 := hfl 4 (by omega)
  have hfl5 := hfl 5 (by omega)
  obtain ⟨rfl, s, eq⟩ | ⟨htiny, -, eq⟩ | ⟨htiny, -, eq⟩ | ⟨-, htiny, -, -, -, eq⟩ := hcases
  case inl =>
    have htiny : ¬tiny c.rm 0 := fun h => h.1 rfl
    exact ⟨fun _ => by rw [eq, hfl4], fun h => absurd h htiny, fun h => absurd h htiny, fun h => absurd h htiny⟩
  case inr.inr.inl =>
    exact ⟨fun _ => by rw [eq, overflowResult_ue, hfl4], fun h => absurd h htiny,
      fun h => absurd h htiny, fun h => absurd h htiny⟩
  case inr.inr.inr =>
    exact ⟨fun _ => by rw [eq, getLsbD_or_flagIf_flagPE (by omega), hfl4], fun h => absurd h htiny,
      fun h => absurd h htiny, fun h => absurd h htiny⟩
  case inr.inl =>
    have hle := roundInt_le (decide (e < 0)) c.rm (num := e.natAbs) (den := 2 ^ 149) (k := 2 ^ 23) (by norm_num)
      (natAbs_le_of_tiny htiny)
    have hanswers := tinyResult_cases (decide (e < 0)) e.natAbs m.2.2 c fl _ rfl
    generalize roundInt e.natAbs (2 ^ 149) (decide (e < 0)) c.rm = d at hle hanswers
    refine ⟨fun h => absurd htiny h, fun _ hum hftz => ?denormal, fun _ hum hftz => ?flushed, fun _ hum => ?unmasked⟩
    case denormal =>
      obtain ⟨h, -⟩ | ⟨-, h, -⟩ | ⟨-, -, answer⟩ := hanswers
      · simp [hum] at h
      · simp [hftz] at h
      rw [ofBool_append_ofNat] at answer
      rw [← eq] at answer
      have hfinite := isFinite_make (decide (e < 0)) (e := d.1 / 2 ^ 23) (d.1 % 2 ^ 23) (by omega)
      have hpe := hprecision _ c hfin (by rw [answer])
      have hue : (fnmsub32 x y z c).fl.getLsbD 5 = (fnmsub32 x y z c).fl.getLsbD 4 := by
        simp [answer, getLsbD_flagIf, getLsbD_flagUE, getLsbD_flagPE, hfl4, hfl5, -BitVec.getLsbD_eq_getElem]
      rw [hfinite, he, eq_self, true_and, hue] at hpe
      exact ⟨_, by rw [answer], hfinite, hpe, hue⟩
    case flushed =>
      obtain ⟨h, -⟩ | ⟨-, -, answer⟩ | ⟨-, h, -⟩ := hanswers
      · simp [hum] at h
      · rw [eq, answer, f32Zero_eq]
        exact ⟨by simp only [decide_eq_true_eq], getLsbD_or_or rfl, by simp [getLsbD_flagPE, -BitVec.getLsbD_eq_getElem]⟩
      · simp [hftz] at h
    case unmasked =>
      obtain ⟨-, answer⟩ | ⟨h, -⟩ | ⟨h, -⟩ := hanswers
      · rw [eq, answer]
        exact ⟨rfl, getLsbD_or_or rfl, by rw [getLsbD_five_of_flagIf _ hfl5 rfl, hinex]⟩
      · simp [hum] at h
      · simp [hum] at h

end Sys2Proof.Machine
end

section
/-! The exactly representable normal value (40_fnmsub_lane_arithmetic.md R150 P4): the statement O16. -/

namespace Sys2Proof.Machine

open Sys2Proof.Safety

/-- A datum is its sign, exponent and fraction. -/
theorem f32Make_parts (v : F32) : f32Make (f32Sign v) (f32Exp v) (f32Frac v) = v := by
  apply BitVec.eq_of_getLsbD_eq
  intro i hi
  rw [getLsbD_f32Make, f32Exp, f32Frac, BitVec.ofNat_toNat, BitVec.ofNat_toNat, f32Sign]
  by_cases hfrac : i < 23
  · simp [hfrac]
  by_cases hexp : i < 31
  · simp [hfrac, show i - 23 < 8 by omega, show 23 + (i - 23) = i by omega]
  · obtain rfl : i = 31 := by omega
    simp

/-- A normal datum is made of its significand with the leading bit. -/
theorem f32Make_significand (v : F32) : f32Make (f32Sign v) (f32Exp v) (2 ^ 23 + f32Frac v) = v := by
  have hfrac : (2 ^ 23 + f32Frac v) % 2 ^ 23 = f32Frac v := by have := f32Frac_lt v; omega
  rw [← f32Make_mod, hfrac, f32Make_parts]

/-- Sign and magnitude of a value other than zero, in units of 2^-298. -/
theorem f32Val_sign_abs (r : F32) (h : f32Mag r ≠ 0) :
    decide (f32Val r * 2 ^ 149 < 0) = f32Sign r ∧ (f32Val r * 2 ^ 149).natAbs = f32Mag r * 2 ^ 149 := by
  rw [f32Val]
  cases f32Sign r
  · rw [if_neg Bool.false_ne_true]
    exact ⟨decide_eq_false (by omega), by omega⟩
  · rw [if_pos rfl]
    exact ⟨decide_eq_true (by omega), by omega⟩

theorem dazOperand_of_not_denormal {v : F32} (daz : Bool) (h : isDenormal v = false) : dazOperand daz v = v := by
  rw [dazOperand, h, Bool.and_false]
  rfl

/-- A magnitude of 24 bits is its own rounding. -/
theorem roundUnbounded_of_significand (s : Bool) (rm : RoundMode) {m l : Nat} (hm : 2 ^ 23 ≤ m) (hm' : m < 2 ^ 24) :
    roundUnbounded s (m * 2 ^ l) rm = (m, ((l + 23 : Nat) : Int) - 298, false) := by
  have hpos := Nat.two_pow_pos l
  have hlog : Nat.log2 (m * 2 ^ l) = l + 23 := by
    rw [Nat.log2_eq_iff (Nat.mul_ne_zero (by omega) hpos.ne'), pow_add 2 l 23, pow_add 2 (l + 23) 1, pow_add 2 l 23]
    constructor
    · rw [Nat.mul_comm]
      exact Nat.mul_le_mul_right _ hm
    · have := Nat.mul_lt_mul_of_pos_right hm' hpos
      omega
  have hnum : m * 2 ^ l * 2 ^ 23 = m * 2 ^ (l + 23) := by rw [pow_add, Nat.mul_assoc]
  have hexact : roundInt (m * 2 ^ l * 2 ^ 23) (2 ^ (l + 23)) s rm = (m, false) := by
    rw [hnum]
    obtain ⟨-, e⟩ | ⟨hr, -⟩ := roundInt_cases (m * 2 ^ (l + 23)) (2 ^ (l + 23)) s rm
    · rw [e, Nat.mul_div_cancel _ (Nat.two_pow_pos _)]
    · exact absurd (Nat.mul_mod_left ..) hr
  obtain ⟨hcarry, -⟩ | ⟨-, e⟩ := roundUnbounded_cases s (m * 2 ^ l) rm (m, false) (by rw [hlog, hexact])
  · exact absurd hcarry hm'.ne
  · rw [e, hlog]

/-- The value of a normal datum goes through steps 7 to 10 as it is. -/
theorem roundFinite_of_normal (r : F32) (c : FpControl) (hlow : 1 ≤ f32Exp r) (hhigh : f32Exp r ≤ 254) :
    roundFinite (f32Sign r) (f32Mag r * 2 ^ 149) c 0 = ⟨some r, 0⟩ := by
  have hfrac := f32Frac_lt r
  have hmag : f32Mag r * 2 ^ 149 = (2 ^ 23 + f32Frac r) * 2 ^ (f32Exp r + 148) := by
    rw [f32Mag, if_neg (by omega), Nat.mul_assoc, ← pow_add]
    congr 2
    omega
  have hround := roundUnbounded_of_significand (f32Sign r) c.rm (m := 2 ^ 23 + f32Frac r) (l := f32Exp r + 148)
    (by omega) (by omega)
  rw [← hmag] at hround
  obtain ⟨h, -⟩ | ⟨h, -⟩ | ⟨-, -, e⟩ := roundFinite_cases (f32Sign r) (f32Mag r * 2 ^ 149) c 0 _ hround
  · push_cast at h; omega
  · push_cast at h; omega
  · have hexp : (((f32Exp r + 148 + 23 : Nat) : Int) - 298 + 127).toNat = f32Exp r := by omega
    rw [e, hexp, f32Make_significand]
    simp [flagIf]

/-- Settles O16: with no denormal operand the lane's exact value is the datum's own, and its rounding changes nothing. -/
theorem exactNormalValueIsDelivered : Obligations.ExactNormalValueIsDelivered := by
  unfold Obligations.ExactNormalValueIsDelivered
  intro x y z r c hfin hx hy hz hlow hhigh hval
  have hmag : f32Mag r ≠ 0 := by
    rw [f32Mag, if_neg (by omega)]
    exact Nat.mul_ne_zero (by omega) (Nat.two_pow_pos _).ne'
  have he : laneExact x y z c = f32Val r * 2 ^ 149 := by
    rw [laneExact, dazOperand_of_not_denormal _ hx, dazOperand_of_not_denormal _ hy, dazOperand_of_not_denormal _ hz, hval]
  have hflag : denormalFlag (dazOperand c.daz x) (dazOperand c.daz y) (dazOperand c.daz z) = 0 := by
    simp [denormalFlag, hx, hy, hz, flagIf]
  obtain ⟨hsign, habs⟩ := f32Val_sign_abs r hmag
  have hne : f32Val r * 2 ^ 149 ≠ 0 := by omega
  rw [fnmsub32_of_laneExact_ne_zero x y z c hfin (he ▸ hne), hflag, he, hsign, habs, roundFinite_of_normal r c hlow hhigh]

end Sys2Proof.Machine
end

section
/-! SUPPORT. The finite data as a grid: about a value they are the multiples of one power of two, to which the value is rounded
(40_fnmsub_lane_arithmetic.md R131, R142). -/

namespace Sys2Proof.Machine

open Sys2Proof.Safety

/-! ## Rounding to an integer, by the side it goes to -/

section RoundInt
variable {num den : Nat} {s : Bool} {rm : RoundMode}

theorem roundInt_mul_le (h : roundingSide rm s = .toward) : (roundInt num den s rm).1 * den ≤ num := by
  rw [roundInt_of_toward h]
  exact Nat.div_mul_le_self ..

theorem le_roundInt_mul (hden : 0 < den) (h : roundingSide rm s = .away) : num ≤ (roundInt num den s rm).1 * den := by
  have hdiv := Nat.div_add_mod' num den
  have hmod := Nat.mod_lt num hden
  rw [roundInt_of_away h]
  split
  · omega
  · rw [Nat.add_mul, Nat.one_mul]
    omega

/-- To nearest the distance is half a divisor at most, and less when the integer is odd. -/
theorem roundInt_near (hden : 0 < den) (h : roundingSide rm s = .nearest) :
    2 * (((roundInt num den s rm).1 * den : Nat) - num : Int).natAbs ≤ den ∧
      (2 * (((roundInt num den s rm).1 * den : Nat) - num : Int).natAbs = den → (roundInt num den s rm).1 % 2 = 0) := by
  have hdiv := Nat.div_add_mod' num den
  have hmod := Nat.mod_lt num hden
  rw [roundInt_of_nearest h]
  split
  · rw [Nat.add_mul, Nat.one_mul]
    omega
  · omega

/-- A common factor of value and divisor does not change the rounding. -/
theorem roundInt_mul_right {k : Nat} (hk : 0 < k) : roundInt (num * k) (den * k) s rm = roundInt num den s rm := by
  have hlt (m n : Nat) : m * k < 2 * (n * k) ↔ m < 2 * n := by
    rw [← Nat.mul_assoc]
    exact Nat.mul_lt_mul_right hk
  have heq (m n : Nat) : 2 * (n * k) = m * k ↔ 2 * n = m := by
    rw [← Nat.mul_assoc]
    exact Nat.mul_left_inj hk.ne'
  simp only [roundInt, Nat.mul_mod_mul_right, Nat.mul_div_mul_right _ _ hk, Nat.mul_eq_zero, hk.ne', or_false, hlt, heq]

end RoundInt

/-! ## The finite data -/

/-- A number of units of 2^-149 that is the value of a finite datum. -/
def Representable (w : Int) : Prop := ∃ v : F32, isFinite v = true ∧ w.natAbs = f32Mag v

theorem representable_f32Val {v : F32} (h : isFinite v = true) : Representable (f32Val v) := by
  refine ⟨v, h, ?_⟩
  rw [f32Val]
  split <;> omega

theorem representable_f32Mag {v : F32} (h : isFinite v = true) : Representable (f32Mag v) := ⟨v, h, rfl⟩

theorem representable_neg {w : Int} (h : Representable w) : Representable (-w) := by
  obtain ⟨v, hv, hw⟩ := h
  exact ⟨v, hv, by omega⟩

theorem representable_zero : Representable 0 := ⟨f32Zero false, isFinite_zero _, by rw [f32Mag_zero]; rfl⟩

/-- From 2^23 units of `2^t` on, every finite magnitude is a multiple of `2^t`. -/
theorem dvd_or_lt_of_isFinite (v : F32) (t : Nat) : 2 ^ t ∣ f32Mag v ∨ f32Mag v < 2 ^ t * 2 ^ 23 := by
  have hfrac := f32Frac_lt v
  have hpos := Nat.two_pow_pos t
  rw [f32Mag]
  split
  · right
    exact hfrac.trans_le (Nat.le_mul_of_pos_left _ hpos)
  by_cases ht : t ≤ f32Exp v - 1
  · exact .inl (Dvd.dvd.mul_left (Nat.pow_dvd_pow 2 ht) _)
  · right
    have hmul : (2 ^ 23 + f32Frac v) * 2 ^ (f32Exp v - 1) < 2 ^ 24 * 2 ^ (f32Exp v - 1) :=
      Nat.mul_lt_mul_of_pos_right (by omega) (Nat.two_pow_pos _)
    have hpow : 2 ^ (f32Exp v - 1 + 1) ≤ 2 ^ t := Nat.pow_le_pow_right (by omega) (by omega)
    rw [pow_succ] at hpow
    omega

theorem f32Mag_le_max (v : F32) (h : isFinite v = true) : f32Mag v ≤ (2 ^ 24 - 1) * 2 ^ 253 := by
  have hfrac := f32Frac_lt v
  have hexp : f32Exp v ≠ 255 := of_decide_eq_true h
  have hexp' := f32Exp_lt v
  rw [f32Mag]
  split
  · omega
  · exact Nat.mul_le_mul (by omega) (Nat.pow_le_pow_right (by omega) (by omega))

/-! ## What a delivered result is to the exact value -/

/-- A finite result `r` for an exact value of sign `s` and magnitude `a * 2^-298`, rounded to this side: of the sign and, of the
finite data, between those below the magnitude and those above it; on the side of the rounding, or a closest one. -/
structure Delivered (side : RoundingSide) (a : Nat) (s : Bool) (r : F32) : Prop where
  finite : isFinite r = true
  value : f32Val r = if s then -(f32Mag r : Int) else f32Mag r
  below : ∀ w, Representable w → w * 2 ^ 149 ≤ a → w ≤ f32Mag r
  above : ∀ w, Representable w → a ≤ w * 2 ^ 149 → f32Mag r ≤ w
  toward : side = .toward → f32Mag r * 2 ^ 149 ≤ a
  away : side = .away → a ≤ f32Mag r * 2 ^ 149
  nearest : side = .nearest → ∀ w, Representable w →
    ((f32Mag r * 2 ^ 149 : Int) - a).natAbs ≤ (w * 2 ^ 149 - a).natAbs ∧
      (((f32Mag r * 2 ^ 149 : Int) - a).natAbs = (w * 2 ^ 149 - a).natAbs → w ≠ f32Mag r → r.getLsbD 0 = false)

/-- An exact zero is delivered as such. -/
theorem delivered_zero (side : RoundingSide) (s s' : Bool) : Delivered side 0 s (f32Zero s') := by
  have hmag := f32Mag_zero s'
  refine ⟨isFinite_zero s', ?_, ?_, ?_, ?_, ?_, ?_⟩
  · rw [f32Val, hmag]
    simp
  all_goals rw [hmag]
  · intro w _ _
    omega
  · intro w _ _
    omega
  · intro _
    omega
  · intro _
    omega
  · intro _ w _
    exact ⟨by omega, fun _ _ => by omega⟩

/-- Above the largest finite magnitude it is the one that is closest below. -/
theorem delivered_max {a : Nat} (s : Bool) (ha : (2 ^ 24 - 1) * 2 ^ 253 * 2 ^ 149 < a) : Delivered .toward a s (f32Max s) := by
  have hmag := f32Mag_max s
  have hle : ∀ w, Representable w → w ≤ f32Mag (f32Max s) := by
    rintro w ⟨v, hv, hw⟩
    have := f32Mag_le_max v hv
    omega
  refine ⟨isFinite_make s _ (by omega), by rw [f32Val, f32Max, f32Sign_make], fun w hw _ => hle w hw, ?_, ?_, nofun, nofun⟩
  · intro w hw h
    have := hle w hw
    omega
  · intro _
    rw [hmag]
    exact ha.le

section Grid
variable {a t : Nat} {s : Bool} {rm : RoundMode}

/-- A finite datum is on the grid of `2^t`, or below its 2^23 units. -/
theorem grid_of_representable {w : Int} (h : Representable w) (t : Nat) :
    (∃ k : Nat, w = (k * 2 ^ t : Nat)) ∨ w < 0 ∨ (0 ≤ w ∧ w < (2 ^ t * 2 ^ 23 : Nat) ∧ t ≠ 0) := by
  obtain ⟨v, -, hw⟩ := h
  obtain hneg | hneg := lt_or_ge w 0
  · exact .inr (.inl hneg)
  by_cases ht : t = 0
  · exact .inl ⟨w.natAbs, by rw [ht]; omega⟩
  obtain ⟨k, hk⟩ | hlt := dvd_or_lt_of_isFinite v t
  · exact .inl ⟨k, by rw [Nat.mul_comm] at hk; omega⟩
  · exact .inr (.inr ⟨hneg, by omega, ht⟩)

/-- Of two multiples of `d` one within half of it is no further than the other, and as far only at the half. -/
theorem nearest_on_grid {q d : Nat} (k : Nat) (h : 2 * ((q * d : Nat) - a : Int).natAbs ≤ d) :
    ((q * d : Nat) - a : Int).natAbs ≤ ((k * d : Nat) - a : Int).natAbs ∧
      (((q * d : Nat) - a : Int).natAbs = ((k * d : Nat) - a : Int).natAbs → k ≠ q →
        2 * ((q * d : Nat) - a : Int).natAbs = d) := by
  obtain hlt | rfl | hlt := Nat.lt_trichotomy k q
  · have hmul := Nat.mul_le_mul_right d hlt
    rw [Nat.succ_mul] at hmul
    omega
  · exact ⟨le_rfl, fun _ hne => absurd rfl hne⟩
  · have hmul := Nat.mul_le_mul_right d hlt
    rw [Nat.succ_mul] at hmul
    omega

/-- The magnitude rounded to the grid of `2^t`, which holds every finite datum above it and, but for those below its
2^23 units, every finite datum below it. -/
theorem delivered_of_grid (r : F32) (hgrid : t ≠ 0 → 2 ^ 23 * 2 ^ (t + 149) ≤ a) (hfin : isFinite r = true)
    (hsign : f32Sign r = s) (hmag : f32Mag r = (roundInt a (2 ^ (t + 149)) s rm).1 * 2 ^ t)
    (hbit : r.getLsbD 0 = decide ((roundInt a (2 ^ (t + 149)) s rm).1 % 2 = 1)) :
    Delivered (roundingSide rm s) a s r := by
  have hden : 0 < 2 ^ (t + 149) := Nat.two_pow_pos _
  have hdown (k : Nat) := roundInt_le s rm (num := a) (k := k) hden
  have hup (k : Nat) := le_roundInt s rm (num := a) (k := k) hden
  have htoward := roundInt_mul_le (num := a) (den := 2 ^ (t + 149)) (rm := rm) (s := s)
  have haway := le_roundInt_mul (num := a) (rm := rm) (s := s) hden
  have hnear := roundInt_near (num := a) (rm := rm) (s := s) hden
  generalize (roundInt a (2 ^ (t + 149)) s rm).1 = q at *
  have hpow : 2 ^ (t + 149) = 2 ^ t * 2 ^ 149 := pow_add ..
  have hscale (k : Nat) : k * 2 ^ t * 2 ^ 149 = k * 2 ^ (t + 149) := by rw [hpow, Nat.mul_assoc]
  refine ⟨hfin, by rw [f32Val, hsign], ?below, ?above, ?toward, ?away, ?nearest⟩
  case below =>
    intro w hw hle
    rw [hmag]
    obtain ⟨k, rfl⟩ | hneg | ⟨-, hlt, ht⟩ := grid_of_representable hw t
    · have := hup k (by rw [← hscale]; omega)
      exact_mod_cast Nat.mul_le_mul_right _ this
    · omega
    · have := Nat.mul_le_mul_right (2 ^ t) (hup (2 ^ 23) (hgrid ht))
      omega
  case above =>
    intro w hw hle
    rw [hmag]
    obtain ⟨k, rfl⟩ | hneg | ⟨-, hlt, ht⟩ := grid_of_representable hw t
    · have := hdown k (by rw [← hscale]; omega)
      exact_mod_cast Nat.mul_le_mul_right _ this
    · omega
    · have := hgrid ht
      omega
  case toward =>
    intro hside
    rw [hmag, hscale]
    exact htoward hside
  case away =>
    intro hside
    rw [hmag, hscale]
    exact haway hside
  case nearest =>
    intro hside w hw
    obtain ⟨hle, heven⟩ := hnear hside
    have hr : (f32Mag r * 2 ^ 149 : Int) = (q * 2 ^ (t + 149) : Nat) := by rw [hmag]; exact_mod_cast hscale q
    have hq : r.getLsbD 0 = false ↔ q % 2 = 0 := by rw [hbit, decide_eq_false_iff_not]; omega
    have hzero := (nearest_on_grid 0 hle).1
    have hbottom := (nearest_on_grid (2 ^ 23) hle).1
    rw [hr, hq, hmag]
    obtain ⟨k, rfl⟩ | hneg | ⟨-, hlt, ht⟩ := grid_of_representable hw t
    · have hk : ((k * 2 ^ t : Nat) * 2 ^ 149 : Int) = (k * 2 ^ (t + 149) : Nat) := by exact_mod_cast hscale k
      obtain ⟨hdist, htie⟩ := nearest_on_grid k hle
      rw [hk]
      exact ⟨hdist, fun heq hne => heven (htie heq fun hkq => hne (by rw [hkq]))⟩
    · omega
    · have hfar := hgrid ht
      exact ⟨by omega, by omega⟩

end Grid

end Sys2Proof.Machine
end

section
/-! Correct rounding (40_fnmsub_lane_arithmetic.md R135, R142 to R144): the statements O18 and O19. -/

namespace Sys2Proof.Machine

open Sys2Proof.Safety

/-! ## The results delivered are on the grid -/

theorem getLsbD_ofNat_zero {w : Nat} (hw : 0 < w) (n : Nat) : (BitVec.ofNat w n).getLsbD 0 = decide (n % 2 = 1) := by
  simp [BitVec.getLsbD_ofNat, hw, Nat.testBit_zero, -BitVec.getLsbD_eq_getElem]

/-- Whether a datum is even is told by its fraction. -/
theorem getLsbD_f32Make_zero (s : Bool) (e f : Nat) : (f32Make s e f).getLsbD 0 = decide (f % 2 = 1) := by
  rw [getLsbD_f32Make, if_pos (by omega), getLsbD_ofNat_zero (by omega)]

section
variable {a : Nat} (s : Bool) (rm : RoundMode)

/-- A denormal result (40_fnmsub_lane_arithmetic.md R143): the rounding to units of 2^-149. -/
theorem delivered_denormal (ha : a ≤ 2 ^ 172) :
    Delivered (roundingSide rm s) a s (BitVec.ofBool s ++ BitVec.ofNat 31 (roundInt a (2 ^ 149) s rm).1) := by
  have hle := roundInt_le s rm (num := a) (den := 2 ^ 149) (k := 2 ^ 23) (by norm_num) (by omega)
  have hmag := f32Mag_subnormal s hle
  refine delivered_of_grid (t := 0) _ (fun h => absurd rfl h) ?_ ?_ ?_ ?_
  · rw [ofBool_append_ofNat]
    exact isFinite_make _ _ (by omega)
  · rw [ofBool_append_ofNat, f32Sign_make]
  · rw [hmag, Nat.zero_add, pow_zero, Nat.mul_one]
  · rw [Nat.zero_add, ofBool_append_ofNat, getLsbD_f32Make_zero]
    congr 2
    omega

/-- A value that rounds to 2^-126 from below, as a number of units of 2^-149. -/
theorem roundInt_of_reaches (h : Reaches (roundingSide rm s) a 172) (hlt : a < 2 ^ 172) :
    (roundInt a (2 ^ 149) s rm).1 = 2 ^ 23 := by
  have hup : (2 ^ 23 - 1) * 2 ^ 149 ≤ a ∧ RoundsUp (roundingSide rm s) a ((2 ^ 23 - 1) * 2 ^ 149) (2 ^ 149) := by
    cases hside : roundingSide rm s
    · rw [hside, Reaches] at h
      exact ⟨by omega, by rw [RoundsUp]; omega⟩
    · rw [hside, Reaches] at h
      exact ⟨by omega, by rw [RoundsUp]; omega⟩
    · rw [hside, Reaches] at h
      omega
  exact (roundInt_eq_succ_iff hup.1 (by omega) (by norm_num)).2 hup.2

/-- A normal result: the rounding to the units of its exponent, a carry giving the smallest significand of the next one. -/
theorem delivered_normal (ha : a ≠ 0) (hreach : Reaches (roundingSide rm s) a 172) (m : Nat × Int × Bool)
    (hm : roundUnbounded s a rm = m) (hlow : -126 ≤ m.2.1) (hhigh : m.2.1 ≤ 127) :
    Delivered (roundingSide rm s) a s (f32Make s (m.2.1 + 127).toNat m.1) := by
  obtain ⟨l, hspec⟩ := roundUnbounded_spec s a rm ha
  rw [hm] at hspec
  have hlog : 2 ^ Nat.log2 a ≤ a := Nat.log2_self_le ha
  have hlog' : a < 2 ^ (Nat.log2 a + 1) := Nat.lt_log2_self
  have hmag := f32Mag_make_normal s (e := (m.2.1 + 127).toNat) (by omega) (by omega) hspec.significand_ge
    hspec.significand_lt
  have hbit := getLsbD_f32Make_zero s (m.2.1 + 127).toNat m.1
  have hsign := f32Sign_make s (m.2.1 + 127).toNat m.1
  have hfin := isFinite_make s (e := (m.2.1 + 127).toNat) m.1 (by omega)
  generalize f32Make s (m.2.1 + 127).toNat m.1 = r at *
  by_cases hl : 172 ≤ Nat.log2 a
  case pos =>
    obtain ⟨t, ht⟩ : ∃ t, Nat.log2 a = t + 172 := ⟨Nat.log2 a - 172, by omega⟩
    have hround : roundInt (a * 2 ^ 23) (2 ^ Nat.log2 a) s rm = roundInt a (2 ^ (t + 149)) s rm := by
      rw [ht, show t + 172 = t + 149 + 23 by omega, pow_add 2 (t + 149) 23]
      exact roundInt_mul_right (by norm_num)
    have hgrid : 2 ^ 23 * 2 ^ (t + 149) ≤ a := by rwa [← pow_add, show 23 + (t + 149) = Nat.log2 a by omega]
    have hcases := roundUnbounded_cases s a rm _ hround
    rw [hm] at hcases
    refine delivered_of_grid (t := t) r (fun _ => hgrid) hfin hsign ?_ ?_
    · obtain ⟨hq, rfl⟩ | ⟨-, rfl⟩ := hcases
      · rw [hmag, hq, show ((Nat.log2 a : Int) - 298 + 1 + 127).toNat - 1 = t + 1 by omega, pow_succ]
        omega
      · rw [hmag, show ((Nat.log2 a : Int) - 298 + 127).toNat - 1 = t by omega]
    · obtain ⟨hq, rfl⟩ | ⟨-, rfl⟩ := hcases
      · rw [hbit, hq]
        exact decide_eq_decide.2 (by norm_num)
      · rw [hbit]
  case neg =>
    have hq := roundInt_of_reaches s rm hreach
      (hlog'.trans_le (Nat.pow_le_pow_right (by omega) (by omega)))
    have hcases := roundUnbounded_cases s a rm _ rfl
    rw [hm] at hcases
    obtain ⟨-, rfl⟩ | ⟨-, rfl⟩ := hcases
    case inr => dsimp only at hlow; omega
    case inl =>
      dsimp only at hlow
      refine delivered_of_grid (t := 0) r (fun h => absurd rfl h) hfin hsign ?_ ?_
      · rw [hmag, Nat.zero_add, hq, show ((Nat.log2 a : Int) - 298 + 1 + 127).toNat - 1 = 0 by omega]
      · rw [hbit, Nat.zero_add, hq]

end

/-- An overflowing value is above every finite magnitude. -/
theorem max_lt_of_overflows {rm : RoundMode} {e : Int} (h : overflows rm e) :
    (2 ^ 24 - 1) * 2 ^ 253 * 2 ^ 149 < e.natAbs := by
  unfold overflows at h
  have hpow : 2 ^ 298 = 2 ^ 149 * 2 ^ 149 := by rw [← pow_add]
  rw [hpow] at h
  cases hside : roundingSide rm (decide (e < 0)) <;> rw [hside] at h <;> dsimp only at h <;> omega

/-- What a lane of finite operands delivers: a correctly rounded finite datum, or an infinity for a value that overflows. -/
theorem fnmsub32_delivered (x y z r : F32) (c : FpControl) (hfin : allFinite x y z) (e : Int) (he : laneExact x y z c = e)
    (hftz : c.ftz = false ∨ ¬tiny c.rm e) (hr : (fnmsub32 x y z c).r = some r) :
    Delivered (roundingSide c.rm (decide (e < 0))) e.natAbs (decide (e < 0)) r ∨
      (r = f32Inf (decide (e < 0)) ∧ roundingSide c.rm (decide (e < 0)) ≠ .toward ∧ overflows c.rm e) := by
  obtain ⟨m, hm⟩ : ∃ m, roundUnbounded (decide (e < 0)) e.natAbs c.rm = m := ⟨_, rfl⟩
  obtain ⟨fl, -, ⟨rfl, s, eq⟩ | ⟨htiny, -, eq⟩ | ⟨-, hover, eq⟩ | ⟨he0, htiny, -, hlow, hhigh, eq⟩⟩ :=
    fnmsub32_classes x y z c hfin e he m hm
  case inl =>
    rw [eq] at hr
    obtain rfl := Option.some.inj hr
    exact .inl (delivered_zero _ _ _)
  case inr.inl =>
    left
    rw [eq] at hr
    obtain ⟨-, answer⟩ | ⟨-, h, -⟩ | ⟨-, -, answer⟩ := tinyResult_cases (decide (e < 0)) e.natAbs m.2.2 c fl _ rfl
    · rw [answer] at hr
      cases hr
    · obtain h' | h' := hftz
      · simp [h] at h'
      · exact absurd htiny h'
    · rw [answer] at hr
      obtain rfl := Option.some.inj hr
      exact delivered_denormal _ _ (natAbs_le_of_tiny htiny)
  case inr.inr.inl =>
    rw [eq] at hr
    cases hom : c.om
    · rw [overflowResult_of_unmasked _ _ c fl hom] at hr
      cases hr
    · rw [overflowResult_of_masked _ _ c fl hom] at hr
      obtain rfl := Option.some.inj hr
      by_cases hside : roundingSide c.rm (decide (e < 0)) = .toward
      · rw [if_pos hside, hside]
        exact .inl (delivered_max _ (max_lt_of_overflows hover))
      · exact .inr ⟨if_neg hside, hside, hover⟩
  case inr.inr.inr =>
    rw [eq] at hr
    obtain rfl := Option.some.inj hr
    rw [tiny_iff_not_reaches c.rm e he0, not_not] at htiny
    exact .inl (delivered_normal _ _ (Int.natAbs_ne_zero.2 he0) htiny m hm hlow hhigh)

/-! ## The statements -/

/-- A value that overflows is beyond every finite datum of its sign. -/
theorem finite_lt_of_overflows {rm : RoundMode} {e : Int} (h : overflows rm e) (v : F32) (hv : isFinite v = true) :
    if e < 0 then e < f32Val v * 2 ^ 149 else f32Val v * 2 ^ 149 < e := by
  have hmax := max_lt_of_overflows h
  have hle := f32Mag_le_max v hv
  have habs : (f32Val v).natAbs = f32Mag v := by rw [f32Val]; split <;> omega
  split <;> omega

section Directed
variable {side : RoundingSide} {e : Int} {r : F32} (h : Delivered side e.natAbs (decide (e < 0)) r)
include h

/-- Down: away from zero below it and toward zero above. -/
theorem Delivered.greatest_below (hside : side = if e < 0 then .away else .toward) :
    f32Val r * 2 ^ 149 ≤ e ∧ ∀ v, isFinite v = true → f32Val v * 2 ^ 149 ≤ e → f32Val v ≤ f32Val r := by
  have hval := h.value
  by_cases hneg : e < 0
  · rw [if_pos (decide_eq_true hneg)] at hval
    have haway := h.away (hside.trans (if_pos hneg))
    refine ⟨by omega, fun v hv hle => ?_⟩
    have := h.above _ (representable_neg (representable_f32Val hv)) (by omega)
    omega
  · rw [if_neg (by simpa using hneg)] at hval
    have htoward := h.toward (hside.trans (if_neg hneg))
    refine ⟨by omega, fun v hv hle => ?_⟩
    have := h.below _ (representable_f32Val hv) (by omega)
    omega

/-- Up: toward zero below it and away from zero above. -/
theorem Delivered.least_above (hside : side = if e < 0 then .toward else .away) :
    e ≤ f32Val r * 2 ^ 149 ∧ ∀ v, isFinite v = true → e ≤ f32Val v * 2 ^ 149 → f32Val r ≤ f32Val v := by
  have hval := h.value
  by_cases hneg : e < 0
  · rw [if_pos (decide_eq_true hneg)] at hval
    have htoward := h.toward (hside.trans (if_pos hneg))
    refine ⟨by omega, fun v hv hle => ?_⟩
    have := h.below _ (representable_neg (representable_f32Val hv)) (by omega)
    omega
  · rw [if_neg (by simpa using hneg)] at hval
    have haway := h.away (hside.trans (if_neg hneg))
    refine ⟨by omega, fun v hv hle => ?_⟩
    have := h.above _ (representable_f32Val hv) (by omega)
    omega

/-- A result has the sign of the exact value. -/
theorem Delivered.same_sign : 0 ≤ f32Val r * e := by
  rw [h.value]
  by_cases hneg : e < 0
  · rw [if_pos (decide_eq_true hneg)]
    exact mul_nonneg_of_nonpos_of_nonpos (by omega) hneg.le
  · rw [if_neg (by simpa using hneg)]
    exact mul_nonneg (by omega) (by omega)

end Directed

/-- Settles O18: the side of the rounding by mode and sign, and what a delivered result is on that side. -/
theorem directedRoundingIsCorrect : Obligations.DirectedRoundingIsCorrect := by
  unfold Obligations.DirectedRoundingIsCorrect
  intro x y z r c hftz hfin hr
  obtain ⟨e, he⟩ : ∃ e, laneExact x y z c = e := ⟨_, rfl⟩
  rw [he] at hftz ⊢
  have hdown : c.rm = .rd → roundingSide c.rm (decide (e < 0)) = if e < 0 then .away else .toward := fun hrm => by
    simp only [hrm, roundingSide, decide_eq_true_eq]
  have hup : c.rm = .ru → roundingSide c.rm (decide (e < 0)) = if e < 0 then .toward else .away := fun hrm => by
    simp only [hrm, roundingSide, decide_eq_true_eq]
  have hzero : c.rm = .rz → roundingSide c.rm (decide (e < 0)) = .toward := fun hrm => by rw [hrm, roundingSide]
  obtain hd | ⟨rfl, hside, hover⟩ := fnmsub32_delivered x y z r c hfin e he hftz hr
  case inl =>
    have hinf : isFinite r ≠ false := by simp [hd.finite]
    refine ⟨fun hrm _ => hd.greatest_below (hdown hrm), fun _ h => absurd h hinf,
      fun hrm _ => hd.least_above (hup hrm), fun _ h => absurd h hinf,
      fun hrm => ⟨hd.finite, hd.same_sign, hd.toward (hzero hrm), fun v hv hle => ?_⟩⟩
    exact_mod_cast hd.below _ (representable_f32Mag hv) (by exact_mod_cast hle)
  case inr =>
    have hfinite : isFinite (f32Inf (decide (e < 0))) ≠ true := by simp [isFinite_inf]
    refine ⟨fun _ h => absurd h hfinite, fun hrm _ => ?down, fun _ h => absurd h hfinite, fun hrm _ => ?up,
      fun hrm => absurd (hzero hrm) hside⟩
    case down =>
      have hneg : e < 0 := by
        by_contra hn
        exact hside ((hdown hrm).trans (if_neg hn))
      refine ⟨by rw [f32Inf_eq, if_pos (decide_eq_true hneg)], fun v hv => ?_⟩
      simpa only [if_pos hneg] using finite_lt_of_overflows hover v hv
    case up =>
      have hpos : ¬e < 0 := fun hn => hside ((hup hrm).trans (if_pos hn))
      refine ⟨by rw [f32Inf_eq, if_neg (by simpa using hpos)], fun v hv => ?_⟩
      simpa only [if_neg hpos] using finite_lt_of_overflows hover v hv

/-- Settles O19: a delivered result is a closest finite datum, by the sign of the exact value. -/
theorem nearestRoundingIsCorrect : Obligations.NearestRoundingIsCorrect := by
  unfold Obligations.NearestRoundingIsCorrect
  intro x y z r c hrm hftz hfin hr
  obtain ⟨e, he⟩ : ∃ e, laneExact x y z c = e := ⟨_, rfl⟩
  rw [he] at hftz ⊢
  have hside : roundingSide c.rm (decide (e < 0)) = .nearest := by rw [hrm]; rfl
  obtain hd | ⟨rfl, -, hover⟩ := fnmsub32_delivered x y z r c hfin e he hftz hr
  · refine ⟨fun _ v hv => ?_, fun h => absurd hd.finite (by simp [h])⟩
    have hval := hd.value
    by_cases hneg : e < 0
    · obtain ⟨hle, htie⟩ := hd.nearest hside _ (representable_neg (representable_f32Val hv))
      rw [if_pos (decide_eq_true hneg)] at hval
      exact ⟨by omega, fun heq hne => htie (by omega) (by omega)⟩
    · obtain ⟨hle, htie⟩ := hd.nearest hside _ (representable_f32Val hv)
      rw [if_neg (by simpa using hneg)] at hval
      exact ⟨by omega, fun heq hne => htie (by omega) (by omega)⟩
  · refine ⟨fun h => by simp [isFinite_inf] at h, fun _ => ⟨by simp only [f32Inf_eq, decide_eq_true_eq], ?_⟩⟩
    unfold overflows at hover
    rw [hside] at hover
    exact hover

end Sys2Proof.Machine
end
